-- ==== Sys2Proof/Word.lean ====
section
/-!
DEFINITION. The words of LCD4: a byte, a nibble and one bit (R13). Bit 0 is the least significant bit.
-/
namespace Sys2Proof

/-- A byte: 8 bits, unsigned (R13). -/
abbrev Byte := BitVec 8

/-- A nibble: 4-bit half of a byte (R13, R17). -/
abbrev Nibble := BitVec 4

/-- One bit: the backlight flag, a register-select value, a row number, the V bit of PRINT_TEXT. -/
abbrev Bit := BitVec 1

end Sys2Proof
end

