-- ==== Sys2Proof/Config.lean ====
section
/-!
DEFINITION. The parameters of LCD4 (R11) and its free value.
What the source does not let vary (R12) is a constant; what is a decision of the spec is a field of `Params`
with the spec's default. The parameters are fixed for the machine: `State` carries them and no operation writes them.
-/
namespace Sys2Proof.Config

/-! ### Fixed numbers (R11, R12) -/

/-- ROWS, the display rows. -/
def rows : Nat := 2
/-- COLS, "the display width": the value of COL that ends a row. -/
def cols : BitVec 5 := 16
/-- ROW_BASE_0, the DDRAM base of row 0. -/
def rowBase0 : Nat := 0x00
/-- ROW_BASE_1, the DDRAM base of row 1. -/
def rowBase1 : Nat := 0x40
/-- SET_DDRAM, the "set DDRAM address" command bit. -/
def setDdram : Byte := 0x80
/-- The largest address a SET_DDRAM_ADDR command can carry (R184). -/
def maxDdramAddr : Nat := 0x7F
/-- BL_DEFAULT, the reset value of the backlight flag. -/
def blDefault : Bit := 1
/-- BL_POS, the bit position of the backlight flag in a port byte. -/
def blPos : Nat := 3
/-- DATA_POS, the lowest bit position of the data nibble in a port byte. -/
def dataPos : Nat := 4
/-- T_STROBE, the wait after each of the two writes of SEND_BYTE, in milliseconds. -/
def tStrobe : Nat := 1
/-- T_POWERON, the wait after port initialisation. -/
def tPowerOn : Nat := 20
/-- T_BOOT_1, the wait after the first bootstrap nibble. -/
def tBoot1 : Nat := 10
/-- T_BOOT_2, the wait after the second bootstrap nibble. -/
def tBoot2 : Nat := 1
/-- T_CMD, the wait before each of the six initialisation commands. -/
def tCmd : Nat := 1
/-- BOOT_NIBBLES, 0x3, 0x3, 0x3, 0x2: the value of the first three bootstrap nibbles. -/
def bootNibble : Nibble := 0x3
/-- BOOT_NIBBLES: the value of the fourth bootstrap nibble, which "switches controller into 4-bit mode". -/
def fourBitNibble : Nibble := 0x2
/-- BUF_CAP, the capacity of the formatting buffer in bytes. -/
def bufCap : Nat := 32

/-! ### Parameters (R11, decisions D3, D4, D6, D11, D15, D22) -/

/-- EN_POS: the two bit positions that the source's frame formula leaves free (R82). -/
inductive EnPos where
  | one
  | two
deriving DecidableEq, Repr

/-- The bit number of an enable position. -/
def EnPos.toNat : EnPos → Nat
  | .one => 1
  | .two => 2

/-- RS_POS: the three bit positions that the data nibble and the backlight flag leave free (R11, R81, D4; log 6). -/
inductive RsPos where
  | zero
  | one
  | two
deriving DecidableEq, Repr

/-- The bit number of a register-select position. -/
def RsPos.toNat : RsPos → Nat
  | .zero => 0
  | .one => 1
  | .two => 2

/-- FLOAT_FORMAT, OPEN in the spec (R222): the two formats it names, and any other one. -/
inductive FloatFormat where
  | binary32
  | binary64
  | other
deriving DecidableEq, Repr

/-- The parameters of one LCD4. DESIGN CHOICE (log 6, 10, 15): the defaults are the spec's own, except
`floatFormat`, which the spec leaves OPEN. -/
structure Params where
  /-- EN_POS (R82, D3). -/
  enPos : EnPos := .two
  /-- RS_POS (R11, R81, D4): 0, where the source's formula ORs register-select in unshifted. -/
  rsPos : RsPos := .zero
  /-- RS_COMMAND (R83, D4). -/
  rsCommand : Bit := 0
  /-- RS_DATA (R83, D4). -/
  rsData : Bit := 1
  /-- CMD_FUNCTION_SET_4BIT (R87, D6). -/
  cmdFunctionSet4Bit : Byte := 0x28
  /-- CMD_DISPLAY_OFF (R87, D6). -/
  cmdDisplayOff : Byte := 0x08
  /-- CMD_RETURN_HOME (R87, D6). -/
  cmdReturnHome : Byte := 0x02
  /-- CMD_ENTRY_MODE_INC (R87, D6). -/
  cmdEntryModeInc : Byte := 0x06
  /-- CMD_DISPLAY_ON (R87, D6). -/
  cmdDisplayOn : Byte := 0x0C
  /-- CMD_CLEAR_DISPLAY (R87, D6). -/
  cmdClearDisplay : Byte := 0x01
  /-- NEWLINE (R97, D15). -/
  newline : Byte := 0x0A
  /-- NUL (R97, D15). -/
  nul : Byte := 0x00
  /-- WRAP_REPOSITIONS (D11, U15): whether the line wrap sends a cursor message. -/
  wrapRepositions : Bool := true
  /-- FLOAT_FORMAT (R222, D22). -/
  floatFormat : FloatFormat := .binary64
  /-- INT_WIDTH (R221, D22), for which the spec gives no lower bound; 0 counts as 1 (DESIGN CHOICE, log 10). -/
  intWidth : Nat := 32
deriving DecidableEq, Repr

/-- The parameters with every default. -/
def Params.default : Params := {}

/-- The enable bit and register-select are two different bits of a port byte, as in the table of R81 (log 6). -/
abbrev Params.BitsDiffer (p : Params) : Prop := p.rsPos.toNat ≠ p.enPos.toNat

/-- Free value (log 10): SPLIT of the number's bits in a format that is neither binary32 nor binary64 (R222, U6).
`none` stands for a number that SPLIT refuses. Nothing constrains it. -/
opaque openSplit : BitVec 64 → Option (Int × Int)

end Sys2Proof.Config
end

