-- ==== Sys2Proof/Syntax.lean ====
section
/-!
DEFINITION. The instructions of LCD4, one constructor per row of the opcode table (R10, R87, R91), and the
encoded forms they are decoded from (R80).
-/
namespace Sys2Proof

/-- The instructions: six host operations (R91), three internal procedures (R125, R140, R144) and the seven
display commands LCD4 emits (R87). -/
inductive Instr where
  /-- INIT (R161). -/
  | init
  /-- CLEAR (R180). -/
  | clear
  /-- SET_CURSOR row, column (R181). -/
  | setCursor (row column : Byte)
  /-- PRINT_TEXT (R186); `v = 0` is the null reference, `v = 1` the text of the TEXT space (R92). -/
  | printText (v : Bit)
  /-- PRINT_FORMATTED (R220); its template and number travel in FMT and NUM (R90). -/
  | printFormatted
  /-- PRINT_CHAR character (R185). -/
  | printChar (character : Byte)
  /-- SEND_BYTE frame (R125). -/
  | sendByte (frame : Byte)
  /-- SEND_NIBBLE v4, rs (R140). -/
  | sendNibble (v4 : Nibble) (rs : Bit)
  /-- SEND_MESSAGE v8, rs (R144). -/
  | sendMessage (v8 : Byte) (rs : Bit)
  /-- CMD_CLEAR_DISPLAY (R87). -/
  | cmdClearDisplay
  /-- CMD_RETURN_HOME (R87). -/
  | cmdReturnHome
  /-- CMD_ENTRY_MODE_INC (R87). -/
  | cmdEntryModeInc
  /-- CMD_DISPLAY_OFF (R87). -/
  | cmdDisplayOff
  /-- CMD_DISPLAY_ON (R87). -/
  | cmdDisplayOn
  /-- CMD_FUNCTION_SET_4BIT (R87). -/
  | cmdFunctionSet4Bit
  /-- SET_DDRAM_ADDR address (R87). -/
  | setDdramAddr (address : BitVec 7)
deriving DecidableEq, Repr

/-- The encoded form of an instruction that is not a host operation: the port bytes the procedure emits, first
write in the high byte, or the display command byte. Which procedure is meant is known from the caller, not from
any bit (R85). -/
inductive InnerWord where
  /-- SEND_BYTE: the two port bytes of one strobe pair. -/
  | bytePair (w : BitVec 16)
  /-- SEND_NIBBLE: the two port bytes of one strobe pair. -/
  | nibblePair (w : BitVec 16)
  /-- SEND_MESSAGE: the four port bytes of two strobe pairs. -/
  | message (w : BitVec 32)
  /-- A display command value, LCDCMD8. -/
  | command (w : BitVec 8)
deriving DecidableEq, Repr

/-- An encoded instruction: the host's 24-bit command word CMD24 (R90), or an inner form. -/
inductive Encoding where
  | cmd24 (w : BitVec 24)
  | inner (w : InnerWord)
deriving DecidableEq, Repr

/-- Why the decoder rejects an encoded form. -/
inductive DecodeError where
  /-- The OP of a command word selects no operation (R93). -/
  | reservedOpcode
  /-- A must-be-zero bit of a command word is 1 (R93). -/
  | mustBeZero
  /-- Two port bytes are not the strobe pair of one frame (R84). -/
  | notStrobePair
  /-- The frames of a message differ in their backlight or register-select bit (R85, R147). -/
  | mixedControlBits
  /-- A byte is no display command LCD4 emits (R87). -/
  | unknownCommand
deriving DecidableEq, Repr

end Sys2Proof
end

