-- ==== Sys2Proof/Machine/State.lean ====
section
/-!
DEFINITION. The state of LCD4 as plain data, the observation of it, and the reasons a step can stop.
-/
namespace Sys2Proof.Machine

open Sys2Proof

/-- The result of an operation (R26). -/
inductive Status where
  | ok
  | fail
deriving DecidableEq, Repr

/-- The causes of a failure (R241). They are names for use inside the model: no cell of LCD4 records a cause and
the host sees FAIL only (R240, R248; log 31). -/
inductive FailCause where
  /-- F_PORTINIT: `portInit` was answered false in step 1 of INIT. -/
  | portInit
  /-- F_WRITE_EN: the first write of a strobe pair was answered false. -/
  | writeEn
  /-- F_WRITE_DIS: the second write of a strobe pair was answered false. -/
  | writeDis
  /-- F_NULLTEXT: the text operand of PRINT_TEXT is the null reference. -/
  | nullText
deriving DecidableEq, Repr

/-- A port event (R8): a request together with the port's answer. -/
inductive PortEvent where
  /-- `PI(r)`: a `portInit` request answered with `r`. -/
  | portInit (r : Bool)
  /-- `W(b, r)`: a `writeByte` request carrying `b`, answered with `r`. -/
  | write (b : Byte) (r : Bool)
  /-- `D(n)`: a `delay` request of `n` milliseconds, which has returned (R281). -/
  | delay (n : Nat)
deriving DecidableEq, Repr

/-- One line of the pseudocode of an operation: a port request (R120), a write of an operation-local cell or of
PORT_BOUND, or `raise Fail(cause)` (R14). -/
inductive Action where
  /-- PORT_BOUND <- 1 (R165). -/
  | bindPort
  /-- The request `PortInit()` (R121). -/
  | portInit
  /-- The request `PortWrite(b)` (R122); `cause` is raised when it is answered false. -/
  | write (b : Byte) (cause : FailCause)
  /-- The request `Delay(n)` (R123). -/
  | delay (n : Nat)
  /-- STEP <- n (R27). -/
  | setStep (n : Nat)
  /-- ROW <- r (R23). -/
  | setRow (r : Bit)
  /-- COL <- c (R24). -/
  | setCol (c : BitVec 5)
  /-- IDX <- i (R25). -/
  | setIdx (i : Nat)
  /-- `raise Fail(cause)` (R14). -/
  | raise (cause : FailCause)
deriving DecidableEq, Repr

/-- A host operation as the host issues it: the command word and the operands that travel beside it (R90).
`fmt = none` is the null reference (R226). -/
structure HostCall where
  word : BitVec 24
  text : List Byte
  fmt : Option (List Byte)
  num : BitVec 64
deriving DecidableEq, Repr

/-- What LCD4 is asked to run next: a host operation, or an internal procedure or display command by itself
(DESIGN CHOICE, log 4: the host interface offers only the former, R254). -/
inductive Request where
  | host (c : HostCall)
  | inner (w : InnerWord)
deriving DecidableEq, Repr

/-- Storage inside LCD4: address and byte pairs in canonical form (`Memory.wf`); an unlisted address reads as 0
(DESIGN CHOICE, log 8). -/
abbrev Memory := List Host.Cell

/-- The state: the cells of LCD4, its parameters, the operands of the operation it runs, the inputs it takes from
the port and the host, and the observation. -/
structure State where
  /-- The parameters, constant during a run (R11). -/
  params : Config.Params
  /-- BL (R21). -/
  bl : Bit
  /-- PORT_BOUND (R22). -/
  portBound : Bool
  /-- BUSY (R33): inside an operation that waits for the port. -/
  busy : Bool
  /-- ROW (R23). -/
  row : Bit
  /-- COL (R24). -/
  col : BitVec 5
  /-- IDX (R25). -/
  idx : Nat
  /-- STEP (R27); the numbering is log 9. -/
  initStep : Nat
  /-- BUF (R30), addresses 0 to 31. -/
  buf : Memory
  /-- STATUS (R26), once the operation has delivered it. -/
  status : Option Status
  /-- What is left of the operation in progress (R27, R28, R259; log 20). -/
  pending : List Action
  /-- The TEXT space (R51). -/
  text : List Byte
  /-- The FMT space (R52), or the null reference (R226). -/
  fmt : Option (List Byte)
  /-- The NUM operand (R90); the width is log 11. -/
  num : BitVec 64
  /-- The port's answers to the coming `portInit` and `writeByte` requests, oldest first (R9; log 2). -/
  answers : List Bool
  /-- How many coming `delay` requests return (R123, R259; log 2). -/
  delayReturns : Nat
  /-- What LCD4 is asked to run, oldest first (R284; log 3). -/
  queue : List Request
  /-- All port events since reset, oldest first (R8, R18; log 16). -/
  trace : List PortEvent
deriving DecidableEq, Repr

/-- LCD4 right after reset (R37, R270). The cells the spec leaves unspecified hold 0 (DESIGN CHOICE, log 7, 8). -/
def State.reset : State where
  params := Config.Params.default
  bl := Config.blDefault
  portBound := false
  busy := false
  row := 0
  col := 0
  idx := 0
  initStep := 0
  buf := []
  status := none
  pending := []
  text := []
  fmt := none
  num := 0
  answers := []
  delayReturns := 0
  queue := []
  trace := []

/-- The faults of a step: none. Nothing in the spec stops LCD4 with an error: its four failures (R241) are next
states with STATUS = FAIL, and a port that never answers leaves it waiting (R259). -/
inductive Fault where
deriving DecidableEq, Repr

/-- The refusals: situations to which the spec gives no meaning and which a model must reject (R253). All are safe:
the machine stops where the spec defines nothing. -/
inductive Refusal where
  /-- Raised by an arm of `exec` whose instruction has no meaning yet. Safe. -/
  | notModelled (mnemonic : String)
  /-- Raised by any port request while PORT_BOUND = 0 (R22, R34, U9). Safe. -/
  | portNotBound
  /-- Raised by SET_CURSOR when the DDRAM address exceeds 0x7F (R184, U2). Safe. -/
  | addressOverflow
  /-- Raised by `step` when the decoder rejects the fetched word (R93, U10). Safe. -/
  | undecodable (e : DecodeError)
  /-- Raised by every instruction that is started while BUSY = 1 (R257, U4); `step` never does it. Safe. -/
  | operationInProgress
  /-- Raised by PRINT_FORMATTED when the template is the null reference (R226, U8). Safe. -/
  | nullTemplate
  /-- Raised by PRINT_FORMATTED for a NaN or an infinity (R221, U13). Safe. -/
  | numberNotFinite
  /-- Raised by PRINT_FORMATTED when the integer part does not fit INT_WIDTH bits (R221, U13). Safe. -/
  | integerPartTooWide
  /-- Raised by PRINT_FORMATTED for a template outside the grammar of RENDER (R223, U7). Safe. -/
  | badTemplate
  /-- Raised by PRINT_FORMATTED when the rendered text and its terminator exceed BUF (R224, U1). Safe. -/
  | bufferOverflow
deriving DecidableEq, Repr

/-- How one action ends. -/
inductive ActResult where
  /-- The action is done. -/
  | next (s : State)
  /-- The action failed with a cause (R241). -/
  | fail (cause : FailCause) (s : State)
  /-- The port has not returned from the request (R259). -/
  | wait
  /-- The spec gives the action no meaning here (R253). -/
  | refuse (r : Refusal)
deriving DecidableEq, Repr

/-- How a list of actions ends. -/
inductive RunResult where
  /-- All actions are done. -/
  | done (s : State)
  /-- An action failed; the rest was not begun (R15, R248). -/
  | failed (cause : FailCause) (s : State)
  /-- The port has not returned from the first action of `rest` (R259). -/
  | waiting (rest : List Action) (s : State)
  /-- The spec gives an action no meaning (R253). -/
  | refused (r : Refusal)
deriving DecidableEq, Repr

end Sys2Proof.Machine
end

