-- ==== Sys2Proof/Machine/Flags.lean ====
section
/-!
DEFINITION. STATUS, the only flag of LCD4 (R26): its encoding on the host interface, and the status a finished
operation delivers.
-/
namespace Sys2Proof.Machine

/-- STATUS on the host interface: OK = 0, FAIL = 1 (R98; log 24). -/
def statusBit (st : Status) : Bit :=
  match st with
  | .ok => 0
  | .fail => 1

/-- Reads a STATUS bit of the host interface (R98). -/
def statusOfBit (b : Bit) : Status := if b = 0 then .ok else .fail

/-- Every cause of a failure surfaces as the one value FAIL (R240). -/
def causeStatus (cause : FailCause) : Status :=
  match cause with
  | .portInit => .fail
  | .writeEn => .fail
  | .writeDis => .fail
  | .nullText => .fail

/-- Whether a port event records a failure: an answer `false` (R242, R243). A delay cannot fail (R123). -/
def eventFailed (e : PortEvent) : Bool :=
  match e with
  | .portInit r => !r
  | .write _ r => !r
  | .delay _ => false

end Sys2Proof.Machine
end

