-- ==== Sys2Proof/WellFormed.lean ====
section
/-!
DEFINITION. Which instructions have an encoded form of their own.
-/
namespace Sys2Proof

/-- An instruction is well formed when its operands fit the encoding the opcode table gives it. Every operand
value fits, but for SEND_BYTE: its two port bytes force bit 2 to 1 and then to 0, so they carry the frame only when
the frame's own bit 2 is 0 (R84, R129; log 5). -/
def Instr.WellFormed : Instr → Bool
  | .sendByte frame => !frame.getLsbD 2
  | .init => true
  | .clear => true
  | .setCursor _ _ => true
  | .printText _ => true
  | .printFormatted => true
  | .printChar _ => true
  | .sendNibble _ _ => true
  | .sendMessage _ _ => true
  | .cmdClearDisplay => true
  | .cmdReturnHome => true
  | .cmdEntryModeInc => true
  | .cmdDisplayOff => true
  | .cmdDisplayOn => true
  | .cmdFunctionSet4Bit => true
  | .setDdramAddr _ => true

end Sys2Proof
end

