-- ==== Sys2Proof/Decode.lean ====
section
/-!
DEFINITION. The decoder, total on every word and rejecting by name, and after it the encoder (R80 to R93, R99).
The numbers here are those of the opcode table, with EN_POS = 2 and the default command values (log 5).
-/
namespace Sys2Proof

/-! ### PORT8 (R81) -/

/-- A port byte from its fields: D in bits 7:4, BLB in bit 3, EN in bit 2, 0 in bit 1, RS in bit 0 (R81). -/
def port8 (d : Nibble) (blb en rs : Bit) : Byte :=
  d ++ blb ++ en ++ (0 : Bit) ++ rs

/-- The data nibble of a port byte. -/
def port8Data (b : Byte) : Nibble := b.extractLsb' 4 4
/-- The backlight bit of a port byte. -/
def port8Backlight (b : Byte) : Bit := b.extractLsb' 3 1
/-- The register-select bit of a port byte. -/
def port8Select (b : Byte) : Bit := b.extractLsb' 0 1

/-! ### The decoder -/

/-- Reads the host's command word: OP in bits 23:16, A in bits 15:8, B in bits 7:0 (R90 to R93). -/
def decodeCmd24 (w : BitVec 24) : Except DecodeError Instr :=
  let op : Byte := w.extractLsb' 16 8
  let a : Byte := w.extractLsb' 8 8
  let b : Byte := w.extractLsb' 0 8
  if op = 0x00 then
    if a = 0 ∧ b = 0 then .ok .init else .error .mustBeZero
  else if op = 0x01 then
    if a = 0 ∧ b = 0 then .ok .clear else .error .mustBeZero
  else if op = 0x02 then
    .ok (.setCursor a b)
  else if op = 0x03 then
    if a = 0 ∧ b.extractLsb' 1 7 = 0 then .ok (.printText (b.extractLsb' 0 1)) else .error .mustBeZero
  else if op = 0x04 then
    if a = 0 ∧ b = 0 then .ok .printFormatted else .error .mustBeZero
  else if op = 0x05 then
    if a = 0 then .ok (.printChar b) else .error .mustBeZero
  else
    .error .reservedOpcode

/-- Two port bytes are the strobe pair of one frame: the frame has EN = 0 and the first byte is the frame with
EN = 1 (R84). -/
def isStrobePair (first second : Byte) : Bool :=
  second.extractLsb' 2 1 == 0 && first == (second ||| 0x04)

/-- Two port bytes are the strobe pair of a frame the encoder builds: bit 1 is 0 as well (R84, R99). -/
def isFramePair (first second : Byte) : Bool :=
  second.extractLsb' 1 1 == 0 && isStrobePair first second

/-- Reads the port bytes of an internal procedure or a display command (R84, R85, R87). -/
def decodeInner : InnerWord → Except DecodeError Instr
  | .bytePair w =>
    let first : Byte := w.extractLsb' 8 8
    let second : Byte := w.extractLsb' 0 8
    if isStrobePair first second then .ok (.sendByte second) else .error .notStrobePair
  | .nibblePair w =>
    let first : Byte := w.extractLsb' 8 8
    let second : Byte := w.extractLsb' 0 8
    if isFramePair first second then .ok (.sendNibble (port8Data second) (port8Select second))
    else .error .notStrobePair
  | .message w =>
    let hiEn : Byte := w.extractLsb' 24 8
    let hi : Byte := w.extractLsb' 16 8
    let loEn : Byte := w.extractLsb' 8 8
    let lo : Byte := w.extractLsb' 0 8
    if isFramePair hiEn hi && isFramePair loEn lo then
      if port8Backlight hi = port8Backlight lo ∧ port8Select hi = port8Select lo then
        .ok (.sendMessage (port8Data hi ++ port8Data lo) (port8Select hi))
      else .error .mixedControlBits
    else .error .notStrobePair
  | .command w =>
    if w.extractLsb' 7 1 = 1 then .ok (.setDdramAddr (w.extractLsb' 0 7))
    else if w = 0x01 then .ok .cmdClearDisplay
    else if w = 0x02 then .ok .cmdReturnHome
    else if w = 0x06 then .ok .cmdEntryModeInc
    else if w = 0x08 then .ok .cmdDisplayOff
    else if w = 0x0C then .ok .cmdDisplayOn
    else if w = 0x28 then .ok .cmdFunctionSet4Bit
    else .error .unknownCommand

/-- Reads an encoded instruction. -/
def decode : Encoding → Except DecodeError Instr
  | .cmd24 w => decodeCmd24 w
  | .inner w => decodeInner w

/-! ### The encoder -/

/-- The strobe pair of the frame with the given fields (R84), backlight at its default. -/
def encodeFramePair (d : Nibble) (rs : Bit) : BitVec 16 :=
  port8 d Config.blDefault 1 rs ++ port8 d Config.blDefault 0 rs

/-- Writes an instruction in its encoded form (R84, R87, R91). -/
def encode : Instr → Encoding
  | .init => .cmd24 (0x00#8 ++ 0x00#8 ++ 0x00#8)
  | .clear => .cmd24 (0x01#8 ++ 0x00#8 ++ 0x00#8)
  | .setCursor row column => .cmd24 (0x02#8 ++ row ++ column)
  | .printText v => .cmd24 (0x03#8 ++ 0x00#8 ++ 0#7 ++ v)
  | .printFormatted => .cmd24 (0x04#8 ++ 0x00#8 ++ 0x00#8)
  | .printChar character => .cmd24 (0x05#8 ++ 0x00#8 ++ character)
  | .sendByte frame => .inner (.bytePair ((frame ||| 0x04) ++ (frame &&& 0xFB)))
  | .sendNibble v4 rs => .inner (.nibblePair (encodeFramePair v4 rs))
  | .sendMessage v8 rs =>
    .inner (.message (encodeFramePair (v8.extractLsb' 4 4) rs ++ encodeFramePair (v8.extractLsb' 0 4) rs))
  | .cmdClearDisplay => .inner (.command 0x01)
  | .cmdReturnHome => .inner (.command 0x02)
  | .cmdEntryModeInc => .inner (.command 0x06)
  | .cmdDisplayOff => .inner (.command 0x08)
  | .cmdDisplayOn => .inner (.command 0x0C)
  | .cmdFunctionSet4Bit => .inner (.command 0x28)
  | .setDdramAddr address => .inner (.command ((1 : Bit) ++ address))

/-! ### Words as the opcode table numbers them -/

/-- The instruction an answer of the decoder gives, if any. -/
def decodedInstr (r : Except DecodeError Instr) : Option Instr :=
  match r with
  | .ok i => some i
  | .error _ => none

/-- The encoded form of a table word of `nbits` bits. A 16-bit word is the strobe pair of SEND_NIBBLE if it can be
one, and otherwise that of SEND_BYTE: the two rows share those words, since "the receiver cannot tell the two
apart" (R85; log 5). -/
def tableEncoding (nbits w : Nat) : Option Encoding :=
  if nbits = 24 then some (.cmd24 (BitVec.ofNat 24 w))
  else if nbits = 16 then
    match decodeInner (.nibblePair (BitVec.ofNat 16 w)) with
    | .ok _ => some (.inner (.nibblePair (BitVec.ofNat 16 w)))
    | .error _ => some (.inner (.bytePair (BitVec.ofNat 16 w)))
  else if nbits = 32 then some (.inner (.message (BitVec.ofNat 32 w)))
  else if nbits = 8 then some (.inner (.command (BitVec.ofNat 8 w)))
  else none

/-- The instruction the decoder reads from a table word. -/
def decodeTableWord (nbits w : Nat) : Option Instr :=
  match tableEncoding nbits w with
  | some e => decodedInstr (decode e)
  | none => none

end Sys2Proof
end

