-- ==== Sys2Proof/Machine/Operands.lean ====
section
/-!
DEFINITION. The operands of LCD4's operations and how they become port bytes, display commands and texts:
frame assembly (R86), the enable mask (R96 b) and the DDRAM address controller (R56). The operand of PRINT_TEXT is in
Text.lean, those of PRINT_FORMATTED in Number.lean and Formatted.lean.
-/
namespace Sys2Proof.Machine

open Sys2Proof

/-! ### Frames (R86, R96) -/

/-- EN_MASK = 1 << EN_POS (R96 b). -/
def enMask (p : Config.Params) : Byte := 1 <<< p.enPos.toNat

/-- The first port byte of a strobe pair: the frame with the enable bit set (R125, R129). -/
def enableSet (p : Config.Params) (frame : Byte) : Byte := frame ||| enMask p

/-- The second port byte of a strobe pair: the frame with the enable bit clear (R125, R129). -/
def enableClear (p : Config.Params) (frame : Byte) : Byte := frame &&& ~~~ enMask p

/-- The control bits of a frame: `(zext_8(BL) << 3) | zext_8(rs)` (R144), with register-select at RS_POS, which is 0
by default (R11). -/
def controlBits (p : Config.Params) (bl rs : Bit) : Byte :=
  (bl.zeroExtend 8 <<< Config.blPos) ||| (rs.zeroExtend 8 <<< p.rsPos.toNat)

/-- The frame of a 4-bit value (R140). -/
def nibbleFrame (p : Config.Params) (bl : Bit) (v4 : Nibble) (rs : Bit) : Byte :=
  (v4.zeroExtend 8 <<< Config.dataPos) ||| controlBits p bl rs

/-- The first frame of an 8-bit value: its high nibble, unshifted (R144). -/
def highFrame (p : Config.Params) (bl : Bit) (v8 : Byte) (rs : Bit) : Byte := (v8 &&& 0xF0) ||| controlBits p bl rs

/-- The second frame of an 8-bit value: its low nibble moved to bits 7:4 (R144). -/
def lowFrame (p : Config.Params) (bl : Bit) (v8 : Byte) (rs : Bit) : Byte :=
  ((v8 <<< Config.dataPos) &&& 0xF0) ||| controlBits p bl rs

/-! ### DDRAM addresses (R56, R87) -/

/-- DDRAM_ADDR(row, column), a natural number that is never reduced; every row but 1 uses the base of row 0 (R56). -/
def ddramAddr (row column : Byte) : Nat :=
  (if row = 1 then Config.rowBase1 else Config.rowBase0) + column.toNat

/-- The "set DDRAM address" command of an address, `0x80 | addr` (R181, R96 d). -/
def ddramCommand (addr : Nat) : Byte := Config.setDdram ||| BitVec.ofNat 8 addr

/-- ROW as the row operand of a SET_CURSOR: `zext_8(ROW)` (R186). -/
def rowOperand (row : Bit) : Byte := row.zeroExtend 8

end Sys2Proof.Machine
end

