-- ==== Sys2Proof/Machine/Ops.lean ====
section
/-!
DEFINITION. The operations shared by all instructions: BUF's memory, the three port primitives, the interpreter of
a list of actions, failing, finishing, waiting, and starting an operation.
-/
namespace Sys2Proof.Machine

open Sys2Proof

/-! ### Memory (R30, R50) -/

/-- Reads one byte; an unlisted address reads as 0 (log 8). -/
def Memory.read (m : Memory) (a : Nat) : Byte :=
  match m with
  | [] => 0
  | (a', b) :: rest => if a' = a then b else Memory.read rest a

/-- Writes one byte, keeping the canonical form: writing 0 removes the entry. -/
def Memory.write (m : Memory) (a : Nat) (b : Byte) : Memory :=
  match m with
  | [] => if b = 0 then [] else [(a, b)]
  | (a', b') :: rest =>
    if a < a' then (if b = 0 then (a', b') :: rest else (a, b) :: (a', b') :: rest)
    else if a = a' then (if b = 0 then rest else (a, b) :: rest)
    else (a', b') :: Memory.write rest a b

/-- The canonical form: addresses strictly rising, no entry equal to what an unlisted address reads as. -/
abbrev Memory.wf (m : Memory) : Prop := m.Pairwise (fun c d => c.1 < d.1) ∧ ∀ c ∈ m, c.2 ≠ 0

/-- Every listed address is one of BUF's, 0 to 31 (R30). -/
abbrev Memory.inBuf (m : Memory) : Prop := ∀ c ∈ m, c.1 < Config.bufCap

/-- Writes bytes at rising addresses from `a`. -/
def Memory.writeBytes (m : Memory) (a : Nat) (bytes : List Byte) : Memory :=
  match bytes with
  | [] => m
  | b :: rest => Memory.writeBytes (Memory.write m a b) (a + 1) rest

/-- Reads `n` bytes at rising addresses from `a`. -/
def Memory.readBytes (m : Memory) (a n : Nat) : List Byte :=
  match n with
  | 0 => []
  | k + 1 => Memory.read m a :: Memory.readBytes m (a + 1) k

/-- `BUF[0 .. length(text)-1] <- text ; BUF[length(text)] <- NUL` (R220). -/
def storeText (p : Config.Params) (text : List Byte) (m : Memory) : Memory :=
  Memory.writeBytes m 0 (text ++ [p.nul])

/-- BUF read as the text of PRINT_TEXT (R53). -/
def loadText (m : Memory) : List Byte := Memory.readBytes m 0 Config.bufCap

/-! ### The port primitives (R120 to R123) -/

/-- Makes a request that the port answers with a boolean: appends its event and, when the answer is false, raises
`cause`. While PORT_BOUND = 0 it has no meaning (R22); while the port has not answered, LCD4 waits (R259). -/
def requestAnswer (event : Bool → PortEvent) (cause : FailCause) (s : State) : ActResult :=
  if s.portBound then
    match s.answers with
    | [] => .wait
    | true :: rest => .next { s with answers := rest, trace := s.trace ++ [event true] }
    | false :: rest => .fail cause { s with answers := rest, trace := s.trace ++ [event false] }
  else .refuse .portNotBound

/-- `PortInit()` (R121), F_PORTINIT when it is answered false (R161). -/
def portInit (s : State) : ActResult := requestAnswer .portInit .portInit s

/-- `PortWrite(b)` (R122); `cause` is raised when it is answered false (R125). -/
def portWrite (b : Byte) (cause : FailCause) (s : State) : ActResult := requestAnswer (.write b) cause s

/-- `Delay(n)` (R123): no result, cannot fail. -/
def portDelay (n : Nat) (s : State) : ActResult :=
  if s.portBound then
    match s.delayReturns with
    | 0 => .wait
    | k + 1 => .next { s with delayReturns := k, trace := s.trace ++ [.delay n] }
  else .refuse .portNotBound

/-! ### Running an operation -/

/-- Does one action. -/
def act (a : Action) (s : State) : ActResult :=
  match a with
  | .bindPort => .next { s with portBound := true }
  | .portInit => portInit s
  | .write b cause => portWrite b cause s
  | .delay n => portDelay n s
  | .setStep n => .next { s with initStep := n }
  | .setRow r => .next { s with row := r }
  | .setCol c => .next { s with col := c }
  | .setIdx i => .next { s with idx := i }
  | .raise cause => .fail cause s

/-- Does the actions in order, with strict short-circuit: the first failure ends the operation and every operation
that called it, without retry or rollback (R15, R61, R248, R249). -/
def run (actions : List Action) (s : State) : RunResult :=
  match actions with
  | [] => .done s
  | a :: rest =>
    match act a s with
    | .next s' => run rest s'
    | .fail cause s' => .failed cause s'
    | .wait => .waiting (a :: rest) s
    | .refuse r => .refused r

/-- Delivers a STATUS: LCD4 is idle again (R33, R248). Taking a failure is this with FAIL; nothing is saved, no mode
switches, and no operation returns from it (R248, R251). -/
def deliver (st : Status) (s : State) : State :=
  { s with status := some st, busy := false, pending := [] }

/-- Keeps the position of an operation that waits for the port: BUSY = 1, no STATUS (R33, R259). -/
def waitForPort (rest : List Action) (s : State) : State :=
  { s with status := none, busy := true, pending := rest }

/-- The outcome of an operation from the way its actions ended. -/
def finish (r : RunResult) : Host.Outcome State Fault Refusal :=
  match r with
  | .done s => .next (deliver .ok s)
  | .failed cause s => .next (deliver (causeStatus cause) s)
  | .waiting rest s => .next (waitForPort rest s)
  | .refused reason => .refused reason

/-- Starts an operation: it is accepted only when LCD4 is idle (R33, R257). -/
def perform (actions : List Action) (s : State) : Host.Outcome State Fault Refusal :=
  if s.busy then .refused .operationInProgress else finish (run actions s)

/-- Goes on with the operation in progress (R259). -/
def resume (s : State) : Host.Outcome State Fault Refusal := finish (run s.pending s)

/-! ### Fetching a request -/

/-- Takes the operands that travel beside a host's command word, sampled as the operation starts (R64, R90). -/
def loadOperands (c : HostCall) (s : State) : State :=
  { s with text := c.text, fmt := c.fmt, num := c.num }

/-- The encoded instruction of a request. -/
def requestEncoding (q : Request) : Encoding :=
  match q with
  | .host c => .cmd24 c.word
  | .inner w => .inner w

/-- The state in which the instruction of a request is run: the request is taken from the queue and its operands
are sampled. -/
def acceptRequest (q : Request) (rest : List Request) (s : State) : State :=
  match q with
  | .host c => loadOperands c { s with queue := rest }
  | .inner _ => { s with queue := rest }

/-- A request for an encoded instruction with the operands that stand in the operand spaces now. -/
def requestOf (e : Encoding) (s : State) : Request :=
  match e with
  | .cmd24 w => .host ⟨w, s.text, s.fmt, s.num⟩
  | .inner w => .inner w

/-- Makes LCD4 idle with a request at the front of its queue, so that the next step runs it (log 3). -/
def placeRequest (e : Encoding) (s : State) : State :=
  { s with busy := false, pending := [], queue := requestOf e s :: s.queue }

end Sys2Proof.Machine
end

