-- ==== Sys2Proof/Machine/Transport.lean ====
section
/-!
DEFINITION. The transport layer: SEND_BYTE (40_transport.md).
A procedure is the list of the actions of its pseudocode; `run` gives it the fail-fast meaning of R15.
-/
namespace Sys2Proof.Machine

open Sys2Proof

/-- SEND_BYTE(frame), the block labelled R125. -/
def sendByteActions (p : Config.Params) (frame : Byte) : List Action :=
  [.write (enableSet p frame) .writeEn, .delay Config.tStrobe,
   .write (enableClear p frame) .writeDis, .delay Config.tStrobe]

/-- SEND_BYTE by itself (R125). -/
def execSendByte (frame : Byte) (s : State) : Host.Outcome State Fault Refusal :=
  perform (sendByteActions s.params frame) s

end Sys2Proof.Machine
end

