-- ==== Sys2Proof/Machine/Encoder.lean ====
section
/-!
DEFINITION. The nibble/message encoder: SEND_NIBBLE and SEND_MESSAGE (41_encoder.md).
-/
namespace Sys2Proof.Machine

open Sys2Proof

/-- SEND_NIBBLE(v4, rs), the block labelled R140. -/
def sendNibbleActions (p : Config.Params) (bl : Bit) (v4 : Nibble) (rs : Bit) : List Action :=
  sendByteActions p (nibbleFrame p bl v4 rs)

/-- SEND_MESSAGE(v8, rs), the block labelled R144: high nibble first (R58). -/
def sendMessageActions (p : Config.Params) (bl : Bit) (v8 : Byte) (rs : Bit) : List Action :=
  sendByteActions p (highFrame p bl v8 rs) ++ sendByteActions p (lowFrame p bl v8 rs)

/-- A display command: a message with register-select COMMAND (R88). -/
def sendCommandActions (p : Config.Params) (bl : Bit) (command : Byte) : List Action :=
  sendMessageActions p bl command p.rsCommand

/-- Character data: a message with register-select DATA (R89). -/
def sendDataActions (p : Config.Params) (bl : Bit) (character : Byte) : List Action :=
  sendMessageActions p bl character p.rsData

/-- SEND_NIBBLE by itself (R140). -/
def execSendNibble (v4 : Nibble) (rs : Bit) (s : State) : Host.Outcome State Fault Refusal :=
  perform (sendNibbleActions s.params s.bl v4 rs) s

/-- SEND_MESSAGE by itself (R144). -/
def execSendMessage (v8 : Byte) (rs : Bit) (s : State) : Host.Outcome State Fault Refusal :=
  perform (sendMessageActions s.params s.bl v8 rs) s

end Sys2Proof.Machine
end

