-- ==== Sys2Proof/Machine/Commands.lean ====
section
/-!
DEFINITION. The display commands LCD4 emits, each by itself (R87, R88). What the display does with one is outside
LCD4 (R6, R35; log 21).
-/
namespace Sys2Proof.Machine

open Sys2Proof

/-- CMD_CLEAR_DISPLAY (R87). -/
def execCmdClearDisplay (s : State) : Host.Outcome State Fault Refusal :=
  perform (sendCommandActions s.params s.bl s.params.cmdClearDisplay) s

/-- CMD_RETURN_HOME (R87). -/
def execCmdReturnHome (s : State) : Host.Outcome State Fault Refusal :=
  perform (sendCommandActions s.params s.bl s.params.cmdReturnHome) s

/-- CMD_ENTRY_MODE_INC (R87). -/
def execCmdEntryModeInc (s : State) : Host.Outcome State Fault Refusal :=
  perform (sendCommandActions s.params s.bl s.params.cmdEntryModeInc) s

/-- CMD_DISPLAY_OFF (R87). -/
def execCmdDisplayOff (s : State) : Host.Outcome State Fault Refusal :=
  perform (sendCommandActions s.params s.bl s.params.cmdDisplayOff) s

/-- CMD_DISPLAY_ON (R87). -/
def execCmdDisplayOn (s : State) : Host.Outcome State Fault Refusal :=
  perform (sendCommandActions s.params s.bl s.params.cmdDisplayOn) s

/-- CMD_FUNCTION_SET_4BIT (R87). -/
def execCmdFunctionSet4Bit (s : State) : Host.Outcome State Fault Refusal :=
  perform (sendCommandActions s.params s.bl s.params.cmdFunctionSet4Bit) s

/-- SET_DDRAM_ADDR address (R87): `0x80 | address`. -/
def execSetDdramAddr (address : BitVec 7) (s : State) : Host.Outcome State Fault Refusal :=
  perform (sendCommandActions s.params s.bl (ddramCommand address.toNat)) s

end Sys2Proof.Machine
end

