-- ==== Sys2Proof/Machine/Number.lean ====
section
/-!
DEFINITION. The two functions PRINT_FORMATTED rests on: SPLIT of a floating-point number (R221, R222) and RENDER of
a template (R223).
-/
namespace Sys2Proof.Machine

open Sys2Proof

/-! ### SPLIT (R221, R222; log 10, 11, 12) -/

/-- A finite floating-point value: `(-1)^negative * significand * 2^exponent`. -/
structure FloatValue where
  negative : Bool
  significand : Nat
  exponent : Int
deriving DecidableEq, Repr

/-- The value of an IEEE 754 binary pattern given by its sign, biased exponent and fraction fields; `none` for a NaN
or an infinity (G7; log 12). -/
def ieeeValue (exponentBits fractionBits : Nat) (negative : Bool) (biased fraction : Nat) : Option FloatValue :=
  let bias : Int := 2 ^ (exponentBits - 1) - 1 + fractionBits
  if biased = 2 ^ exponentBits - 1 then none
  else if biased = 0 then some ⟨negative, fraction, 1 - bias⟩
  else some ⟨negative, 2 ^ fractionBits + fraction, biased - bias⟩

/-- The value of a binary32 pattern, held in bits 31:0 of NUM. -/
def binary32Value (num : BitVec 64) : Option FloatValue :=
  ieeeValue 8 23 (num.getLsbD 31) (num.extractLsb' 23 8).toNat (num.extractLsb' 0 23).toNat

/-- The value of a binary64 pattern. -/
def binary64Value (num : BitVec 64) : Option FloatValue :=
  ieeeValue 11 52 (num.getLsbD 63) (num.extractLsb' 52 11).toNat (num.extractLsb' 0 52).toNat

/-- The number of bits of a natural number. -/
def bitLength (n : Nat) : Nat := if n = 0 then 0 else Nat.log2 n + 1

/-- A natural number rounded to `precision` significant bits, to nearest, ties to even (R222). -/
def roundToPrecision (precision n : Nat) : Nat :=
  let excess := bitLength n - precision
  if excess = 0 then n
  else
    let kept := n / 2 ^ excess
    let lost := n % 2 ^ excess
    let half := 2 ^ (excess - 1)
    let up := half < lost ∨ (lost = half ∧ kept % 2 = 1)
    (if up then kept + 1 else kept) * 2 ^ excess

/-- The magnitudes of the two parts of `significand * 2^exponent` (R221): the integer part truncated toward zero,
and the exact remaining fraction times 100, rounded once to the format's precision and truncated toward zero. -/
def splitMagnitude (precision : Nat) (significand : Nat) (exponent : Int) : Nat × Nat :=
  if 0 ≤ exponent ∨ significand = 0 then (significand * 2 ^ exponent.toNat, 0)
  else
    let scale := 2 ^ (-exponent).toNat
    (significand / scale, roundToPrecision precision (significand % scale * 100) / scale)

/-- A magnitude with a sign. -/
def withSign (negative : Bool) (n : Nat) : Int := if negative then -(n : Int) else n

/-- The two parts of a floating-point value (R221). -/
def splitValue (precision : Nat) (v : FloatValue) : Int × Int :=
  let parts := splitMagnitude precision v.significand v.exponent
  (withSign v.negative parts.1, withSign v.negative parts.2)

/-- The two parts of the number in FLOAT_FORMAT (R222); `none` where the number is not finite. -/
def splitNumber (format : Config.FloatFormat) (num : BitVec 64) : Option (Int × Int) :=
  match format with
  | .binary32 => (binary32Value num).map (splitValue 24)
  | .binary64 => (binary64Value num).map (splitValue 53)
  | .other => Config.openSplit num

/-- An integer fits a signed integer of `width` bits (R221). DESIGN CHOICE (log 10): the spec does not say what fits a
width of 0 bits; it is treated as a width of 1 bit, so -1 and 0 fit. -/
def fitsSigned (width : Nat) (i : Int) : Bool := -(2 ^ (width - 1) : Int) ≤ i && i < (2 ^ (width - 1) : Int)

/-- SPLIT(number), or the reason it is refused (R221). -/
def split (p : Config.Params) (num : BitVec 64) : Except Refusal (Int × Int) :=
  match splitNumber p.floatFormat num with
  | none => .error .numberNotFinite
  | some parts => if fitsSigned p.intWidth parts.1 then .ok parts else .error .integerPartTooWide

/-! ### RENDER (R223; log 13) -/

/-- The character `%`. -/
def percentChar : Byte := 0x25
/-- The character `d`. -/
def decimalChar : Byte := 0x64
/-- The character `-`. -/
def minusChar : Byte := 0x2D

/-- The character of a decimal digit. -/
def digitChar (d : Nat) : Byte := BitVec.ofNat 8 (0x30 + d)

/-- The decimal digits of `n` before `tail`, most significant first; `fuel` bounds the number of digits. -/
def digitsOnto (fuel n : Nat) (tail : List Byte) : List Byte :=
  match fuel with
  | 0 => tail
  | k + 1 => if n < 10 then digitChar n :: tail else digitsOnto k (n / 10) (digitChar (n % 10) :: tail)

/-- The decimal digits of a natural number, without leading zeros; 0 is `0` (R223). -/
def decimalNat (n : Nat) : List Byte := digitsOnto (n + 1) n []

/-- The decimal digits of an integer with a leading `-` if negative and no sign if not (R223). -/
def decimalInt (i : Int) : List Byte :=
  if i < 0 then minusChar :: decimalNat i.natAbs else decimalNat i.natAbs

/-- RENDER(format, ...) of the remaining template with the integers still to be placed: `%d` takes the next
integer, `%%` is one `%`, any other `%` sequence, a NUL, or a count of `%d` other than that of the integers is
refused (R223). DESIGN CHOICE (log 13): should NUL be configured to be `%` or `d`, it is a NUL before all else, so
that a template with a placeholder is refused. -/
def render (p : Config.Params) (template : List Byte) (parts : List Int) : Except Refusal (List Byte) :=
  match template with
  | [] => if parts = [] then .ok [] else .error .badTemplate
  | [c] =>
    if c = p.nul ∨ c = percentChar then .error .badTemplate
    else (render p [] parts).map (c :: ·)
  | c :: d :: rest =>
    if c = p.nul then .error .badTemplate
    else if c = percentChar then
      if d = p.nul then .error .badTemplate
      else if d = percentChar then (render p rest parts).map (percentChar :: ·)
      else if d = decimalChar ∧ parts ≠ [] then
        (render p rest parts.tail).map (decimalInt (parts.headD 0) ++ ·)
      else .error .badTemplate
    else (render p (d :: rest) parts).map (c :: ·)

end Sys2Proof.Machine
end

