-- ==== Sys2Proof/Machine/Cursor.lean ====
section
/-!
DEFINITION. The one-message operations of the cursor/text state machine: CLEAR, SET_CURSOR, PRINT_CHAR
(43_cursor_text.md).
-/
namespace Sys2Proof.Machine

open Sys2Proof

/-- CLEAR(), the block labelled R180. -/
def clearActions (p : Config.Params) (bl : Bit) : List Action :=
  sendCommandActions p bl p.cmdClearDisplay

/-- The message of SET_CURSOR(row, column), the block labelled R181 after its address test. -/
def setCursorActions (p : Config.Params) (bl : Bit) (row column : Byte) : List Action :=
  sendCommandActions p bl (ddramCommand (ddramAddr row column))

/-- PRINT_CHAR(character), the block labelled R185. -/
def printCharActions (p : Config.Params) (bl : Bit) (character : Byte) : List Action :=
  sendDataActions p bl character

/-- CLEAR (R180). -/
def execClear (s : State) : Host.Outcome State Fault Refusal :=
  perform (clearActions s.params s.bl) s

/-- SET_CURSOR (R181): the address is tested before anything is sent (R247); above 0x7F it is refused (R184). -/
def execSetCursor (row column : Byte) (s : State) : Host.Outcome State Fault Refusal :=
  if s.busy then .refused .operationInProgress
  else if ddramAddr row column > Config.maxDdramAddr then .refused .addressOverflow
  else perform (setCursorActions s.params s.bl row column) s

/-- PRINT_CHAR (R185). -/
def execPrintChar (character : Byte) (s : State) : Host.Outcome State Fault Refusal :=
  perform (printCharActions s.params s.bl character) s

end Sys2Proof.Machine
end

