-- ==== Sys2Proof/Machine/Text.lean ====
section
/-!
DEFINITION. The text operation of the cursor/text state machine: PRINT_TEXT (43_cursor_text.md).
-/
namespace Sys2Proof.Machine

open Sys2Proof

/-- What the line wrap does: ROW <- 1, COL <- 0, and SET_CURSOR(1, 0) unless the parameter WRAP_REPOSITIONS says
otherwise (R191, D11; log 15). -/
def wrapActions (p : Config.Params) (bl : Bit) : List Action :=
  .setRow 1 :: .setCol 0 :: (if p.wrapRepositions then setCursorActions p bl 1 0 else [])

/-- The character loop of PRINT_TEXT, the block labelled R186, with ROW, COL and IDX at its top and the characters
from IDX on: it ends at NUL or at the end of the text (R193), or when row 1 is full (R192). -/
def textLoopActions (p : Config.Params) (bl : Bit) (row : Bit) (col : BitVec 5) (idx : Nat) (chars : List Byte) :
    List Action :=
  match chars with
  | [] => []
  | ch :: rest =>
    if ch = p.nul then []
    else if ch = p.newline then
      .setRow (row ^^^ 1) :: .setCol 0 :: setCursorActions p bl (rowOperand (row ^^^ 1)) 0
      ++ .setIdx (idx + 1) :: textLoopActions p bl (row ^^^ 1) 0 (idx + 1) rest
    else
      printCharActions p bl ch ++ .setCol (col + 1) ::
        (if col + 1 = Config.cols then
          if row = 0 then
            wrapActions p bl ++ .setIdx (idx + 1) :: textLoopActions p bl 1 0 (idx + 1) rest
          else []
        else .setIdx (idx + 1) :: textLoopActions p bl row (col + 1) (idx + 1) rest)

/-- PRINT_TEXT(text), the block labelled R186; `none` is the null reference (R187). -/
def printTextActions (p : Config.Params) (bl : Bit) (text : Option (List Byte)) : List Action :=
  match text with
  | none => [.raise .nullText]
  | some chars =>
    clearActions p bl ++ setCursorActions p bl 0 0
    ++ [.setRow 0, .setCol 0, .setIdx 0] ++ textLoopActions p bl 0 0 0 chars

/-- The text operand of PRINT_TEXT: V = 0 is the null reference, V = 1 the TEXT space (R92). -/
def textOperand (v : Bit) (text : List Byte) : Option (List Byte) :=
  if v = 0 then none else some text

/-- PRINT_TEXT (R186). -/
def execPrintText (v : Bit) (s : State) : Host.Outcome State Fault Refusal :=
  perform (printTextActions s.params s.bl (textOperand v s.text)) s

end Sys2Proof.Machine
end

