-- ==== Sys2Proof/Machine/Formatted.lean ====
section
/-!
DEFINITION. The formatted-number front end: PRINT_FORMATTED and its reduced form (44_formatted.md).
-/
namespace Sys2Proof.Machine

open Sys2Proof

/-- The text of PRINT_FORMATTED_INT, or the reason it is refused: the template is null (R226), outside the grammar
(R223), or renders to more than BUF holds with its terminator (R224). -/
def renderForBuf (p : Config.Params) (template : Option (List Byte)) (ipart fpart : Int) :
    Except Refusal (List Byte) :=
  match template with
  | none => .error .nullTemplate
  | some chars =>
    match render p chars [ipart, fpart] with
    | .error r => .error r
    | .ok text => if text.length + 1 > Config.bufCap then .error .bufferOverflow else .ok text

/-- Stores a rendered text in BUF and prints BUF (R220, R225). -/
def printBuf (text : List Byte) (s : State) : Host.Outcome State Fault Refusal :=
  let s' := { s with buf := storeText s.params text s.buf }
  perform (printTextActions s'.params s'.bl (some (loadText s'.buf))) s'

/-- PRINT_FORMATTED_INT(format, ipart, fpart): the block labelled R220 from its second line on (R228). -/
def printFormattedInt (template : Option (List Byte)) (ipart fpart : Int) (s : State) :
    Host.Outcome State Fault Refusal :=
  match renderForBuf s.params template ipart fpart with
  | .error r => .refused r
  | .ok text => printBuf text s

/-- PRINT_FORMATTED (R220): SPLIT, then the reduced form (R228). -/
def execPrintFormatted (s : State) : Host.Outcome State Fault Refusal :=
  if s.busy then .refused .operationInProgress
  else
    match split s.params s.num with
    | .error r => .refused r
    | .ok parts => printFormattedInt s.fmt parts.1 parts.2 s

end Sys2Proof.Machine
end

