-- ==== Sys2Proof/Machine/Initialization.lean ====
section
/-!
DEFINITION. The initialization sequencer: INIT (42_init_sequencer.md).
-/
namespace Sys2Proof.Machine

open Sys2Proof

/-- The six initialisation commands in their order (R88, R161 step 7). -/
def initCommands (p : Config.Params) : List Byte :=
  [p.cmdFunctionSet4Bit, p.cmdDisplayOff, p.cmdReturnHome, p.cmdEntryModeInc, p.cmdDisplayOn, p.cmdClearDisplay]

/-- Step 7 of R161 from STEP = `step` on: for each command wait, then send it as a message. -/
def initCommandActions (p : Config.Params) (bl : Bit) (step : Nat) (commands : List Byte) : List Action :=
  match commands with
  | [] => []
  | c :: rest =>
    .delay Config.tCmd :: sendCommandActions p bl c ++ .setStep (step + 1) :: initCommandActions p bl (step + 1) rest

/-- INIT(), the block labelled R161. STEP advances after each step that did not fail (R27; log 9). -/
def initActions (p : Config.Params) (bl : Bit) : List Action :=
  [.bindPort, .setStep 1, .portInit, .setStep 2, .delay Config.tPowerOn, .setStep 3]
  ++ sendNibbleActions p bl Config.bootNibble p.rsCommand ++ [.delay Config.tBoot1, .setStep 4]
  ++ sendNibbleActions p bl Config.bootNibble p.rsCommand ++ [.delay Config.tBoot2, .setStep 5]
  ++ sendNibbleActions p bl Config.bootNibble p.rsCommand ++ [.setStep 6]
  ++ sendNibbleActions p bl Config.fourBitNibble p.rsCommand ++ [.setStep 7]
  ++ initCommandActions p bl 7 (initCommands p)

/-- INIT (R161). It may be issued whenever LCD4 is idle (R169; log 26). -/
def execInit (s : State) : Host.Outcome State Fault Refusal :=
  perform (initActions s.params s.bl) s

end Sys2Proof.Machine
end

