-- ==== Sys2Proof/Machine/Dispatch.lean ====
section
/-!
DEFINITION. The meaning of every instruction, one arm per row of the opcode table.
-/
namespace Sys2Proof.Machine

open Sys2Proof

/-- Runs one instruction. -/
def exec (i : Instr) (s : State) : Host.Outcome State Fault Refusal :=
  match i with
  | .init => Sys2Proof.Machine.execInit s
  | .clear => Sys2Proof.Machine.execClear s
  | .setCursor row column => Sys2Proof.Machine.execSetCursor row column s
  | .printText v => Sys2Proof.Machine.execPrintText v s
  | .printFormatted => Sys2Proof.Machine.execPrintFormatted s
  | .printChar character => Sys2Proof.Machine.execPrintChar character s
  | .sendByte frame => Sys2Proof.Machine.execSendByte frame s
  | .sendNibble v4 rs => Sys2Proof.Machine.execSendNibble v4 rs s
  | .sendMessage v8 rs => Sys2Proof.Machine.execSendMessage v8 rs s
  | .cmdClearDisplay => Sys2Proof.Machine.execCmdClearDisplay s
  | .cmdReturnHome => Sys2Proof.Machine.execCmdReturnHome s
  | .cmdEntryModeInc => Sys2Proof.Machine.execCmdEntryModeInc s
  | .cmdDisplayOff => Sys2Proof.Machine.execCmdDisplayOff s
  | .cmdDisplayOn => Sys2Proof.Machine.execCmdDisplayOn s
  | .cmdFunctionSet4Bit => Sys2Proof.Machine.execCmdFunctionSet4Bit s
  | .setDdramAddr address => Sys2Proof.Machine.execSetDdramAddr address s

end Sys2Proof.Machine
end

