-- ==== Sys2Proof/Machine/Step.lean ====
section
/-!
DEFINITION. One step of LCD4: it goes on with the operation in progress, or runs the request at the front of the
queue, or waits for the host (R33, R38, R257).
-/
namespace Sys2Proof.Machine

open Sys2Proof

/-- Runs a request: decodes it (R93) and runs the instruction on its operands. -/
def runRequest (q : Request) (rest : List Request) (s : State) : Host.Outcome State Fault Refusal :=
  match decode (requestEncoding q) with
  | .error e => .refused (.undecodable e)
  | .ok i => exec i (acceptRequest q rest s)

/-- One step. -/
def step (s : State) : Host.Outcome State Fault Refusal :=
  if s.busy then resume s
  else
    match s.queue with
    | [] => .next s
    | q :: rest => runRequest q rest s

/-- The state whose next step runs the instruction of a table word (log 3). -/
def State.withFetchWord (s : State) (nbits w : Nat) : State :=
  match tableEncoding nbits w with
  | some e => placeRequest e s
  | none => s

end Sys2Proof.Machine
end

