-- ==== Sys2Proof/Safety.lean ====
section
/-!
DEFINITION. What the statements speak of: how an outcome ends, when the port serves an operation to its end, what a
trace asked of the port, and what a run that has ended is (R285).
-/
namespace Sys2Proof.Machine

open Sys2Proof

/-- The next state of an outcome, if there is one. -/
def nextOf (o : Host.Outcome State Fault Refusal) : Option State :=
  match o with
  | .next s => some s
  | .fault _ => none
  | .refused _ => none

/-- The reason of a refused outcome. -/
def refusalOf (o : Host.Outcome State Fault Refusal) : Option Refusal :=
  match o with
  | .next _ => none
  | .fault _ => none
  | .refused r => some r

/-- A safe step: one to which the spec gives a meaning. -/
def Safe (o : Host.Outcome State Fault Refusal) : Prop := ∃ s, o = .next s

/-- The port says yes to the next `n` requests that it answers with a boolean, and returns from the next `d`
delays (the premise of R259). -/
abbrev PortServes (n d : Nat) (s : State) : Prop :=
  n ≤ s.answers.length ∧ (∀ r ∈ s.answers.take n, r = true) ∧ d ≤ s.delayReturns

/-- LCD4 is idle and a port has been injected: an operation may start (R33, R34). -/
abbrev Ready (s : State) : Prop := s.busy = false ∧ s.portBound = true

/-- The state after an operation that succeeded with the given new events: STATUS = OK, LCD4 idle, the answers and
delays used up, everything else as in `s`. -/
def succeeded (events : List PortEvent) (answersUsed delaysUsed : Nat) (s : State) : State :=
  { s with status := some .ok, busy := false, pending := [], trace := s.trace ++ events,
           answers := s.answers.drop answersUsed, delayReturns := s.delayReturns - delaysUsed }

/-- The bytes of the writes of a trace, in order (R16 "writes"). -/
def writesOf (events : List PortEvent) : List Byte :=
  events.filterMap fun e =>
    match e with
    | .write b _ => some b
    | .portInit _ => none
    | .delay _ => none

/-- The delays of a trace, in order. -/
def delaysOf (events : List PortEvent) : List Nat :=
  events.filterMap fun e =>
    match e with
    | .delay n => some n
    | .portInit _ => none
    | .write _ _ => none

/-- The waiting time a trace asked for, in milliseconds (R283). -/
def requestedDelay (events : List PortEvent) : Nat := (delaysOf events).sum

/-! ### The port events the rules give, written from the PORT8 layout (R81) -/

/-- The enable bit of a port byte: bit 2 or bit 1 (R82). -/
def enableBit (p : Config.Params) : Byte :=
  match p.enPos with
  | .one => 0x02
  | .two => 0x04

/-- The register-select bit of a port byte: bit 0 by default (R11, R81; log 6). -/
def selectBit (p : Config.Params) : Byte :=
  match p.rsPos with
  | .zero => 0x01
  | .one => 0x02
  | .two => 0x04

/-- The frame of a data nibble: bits 7:4 the nibble, bit 3 BL, register-select in bit 0 (R81, R84, R86), or at the other
positions RS_POS can take (R11; log 6), and no other bit. -/
def frameOf (p : Config.Params) (d : Nibble) (bl rs : Bit) : Byte :=
  match p.rsPos with
  | .zero => port8 d bl 0 rs
  | .one => d ++ bl ++ (0 : Bit) ++ rs ++ (0 : Bit)
  | .two => d ++ bl ++ rs ++ (0 : BitVec 2)

/-- The successful strobe pair of a frame (R126). -/
def frameEvents (p : Config.Params) (frame : Byte) : List PortEvent :=
  [.write (frame ||| enableBit p) true, .delay 1, .write (frame &&& ~~~ enableBit p) true, .delay 1]

/-- The successful strobe pair of a 4-bit value (R143). -/
def nibbleEvents (p : Config.Params) (bl : Bit) (v4 : Nibble) (rs : Bit) : List PortEvent :=
  frameEvents p (frameOf p v4 bl rs)

/-- The successful trace of a message: high nibble, then low nibble (R145). -/
def messageEvents (p : Config.Params) (bl : Bit) (v8 : Byte) (rs : Bit) : List PortEvent :=
  nibbleEvents p bl (v8.extractLsb' 4 4) rs ++ nibbleEvents p bl (v8.extractLsb' 0 4) rs

/-- The successful trace of a display command. -/
def commandEvents (p : Config.Params) (bl : Bit) (command : Byte) : List PortEvent :=
  messageEvents p bl command p.rsCommand

/-- The successful trace of a character. -/
def dataEvents (p : Config.Params) (bl : Bit) (character : Byte) : List PortEvent :=
  messageEvents p bl character p.rsData

/-- The successful trace of INIT, one step of R163 after another. -/
def initEvents (p : Config.Params) (bl : Bit) : List PortEvent :=
  [.portInit true, .delay 20]
  ++ nibbleEvents p bl 0x3 p.rsCommand ++ [.delay 10]
  ++ nibbleEvents p bl 0x3 p.rsCommand ++ [.delay 1]
  ++ nibbleEvents p bl 0x3 p.rsCommand
  ++ nibbleEvents p bl 0x2 p.rsCommand
  ++ [p.cmdFunctionSet4Bit, p.cmdDisplayOff, p.cmdReturnHome, p.cmdEntryModeInc, p.cmdDisplayOn,
      p.cmdClearDisplay].flatMap fun c => .delay 1 :: commandEvents p bl c

/-! ### Texts -/

/-- The text a byte sequence stands for: the bytes before its first NUL (R51). -/
def textBytes (p : Config.Params) : List Byte → List Byte
  | [] => []
  | ch :: rest => if ch = p.nul then [] else ch :: textBytes p rest

/-- A character that PRINT_TEXT prints: neither NUL nor NEWLINE (R190). -/
abbrev Ordinary (p : Config.Params) (ch : Byte) : Prop := ch ≠ p.nul ∧ ch ≠ p.newline

/-- The characters of the text `u` that the PRINT_TEXT which ended in `t` has processed: IDX of them, and one more
where it was truncated (R192, R195). -/
def processed (p : Config.Params) (u : List Byte) (t : State) : List Byte :=
  (textBytes p u).take (if t.col = 16 then t.idx + 1 else t.idx)

/-- The number of line wraps of a text without NUL, from a row and column on (R191). -/
def wraps (p : Config.Params) (row : Bit) (col : Nat) (u : List Byte) : Nat :=
  match u with
  | [] => 0
  | ch :: rest =>
    if ch = p.newline then wraps p (row ^^^ 1) 0 rest
    else if col + 1 = 16 then (if row = 0 then 1 + wraps p 1 0 rest else 0)
    else wraps p row (col + 1) rest

/-- PRINT_TEXT of the text `u`, started in `s`, completes with OK in `t`. -/
def PrintsTo (s : State) (u : List Byte) (t : State) : Prop :=
  exec (.printText 1) { s with text := u } = .next t ∧ t.status = some .ok

/-- The number a sequence of decimal digit characters stands for. -/
def decimalValue (digits : List Byte) : Nat := digits.foldl (fun n d => 10 * n + (d.toNat - 0x30)) 0

/-! ### PRINT_FORMATTED -/

/-- The number of `%d` in a template; `none` if it has a `%` sequence other than `%d` and `%%` (R223). -/
def placeholders (template : List Byte) : Option Nat :=
  match template with
  | [] => some 0
  | [c] => if c = 0x25 then none else some 0
  | c :: d :: rest =>
    if c = 0x25 then
      if d = 0x25 then placeholders rest
      else if d = 0x64 then (placeholders rest).map (· + 1)
      else none
    else placeholders (d :: rest)

/-- A text as a part of a template: every `%` doubled (R223). -/
def escaped (text : List Byte) : List Byte := text.flatMap fun ch => if ch = 0x25 then [0x25, 0x25] else [ch]

/-- The operands of PRINT_FORMATTED are outside the defined domain, for the reason `r` (R221, R223, R224, R226).
An INT_WIDTH of 0 counts as 1 (log 10). -/
def OutsideDomain (s : State) (r : Refusal) : Prop :=
  (r = .numberNotFinite ∧ splitNumber s.params.floatFormat s.num = none) ∨
  (r = .integerPartTooWide ∧ ∃ parts, splitNumber s.params.floatFormat s.num = some parts ∧
    (parts.1 < -2 ^ (s.params.intWidth - 1) ∨ 2 ^ (s.params.intWidth - 1) ≤ parts.1)) ∨
  ∃ parts, split s.params s.num = .ok parts ∧
    ((r = .nullTemplate ∧ s.fmt = none) ∨
      ∃ template, s.fmt = some template ∧
        ((r = .badTemplate ∧ (s.params.nul ∈ template ∨ placeholders template ≠ some 2)) ∨
          (r = .bufferOverflow ∧ ∃ rendered,
            render s.params template [parts.1, parts.2] = .ok rendered ∧ 31 < rendered.length)))

/-- The value of a finite binary32 pattern (R222, G7; log 12). -/
def binary32Rat (num : BitVec 64) : Rat :=
  let e := (num.extractLsb' 23 8).toNat
  let f := (num.extractLsb' 0 23).toNat
  (if num.getLsbD 31 then -1 else 1) * (if e = 0 then (f : Rat) * 2 ^ (-149 : Int) else (2 ^ 23 + f) * 2 ^ (e - 150 : Int))

/-- The value of a finite binary64 pattern (R222, G7; log 12). -/
def binary64Rat (num : BitVec 64) : Rat :=
  let e := (num.extractLsb' 52 11).toNat
  let f := (num.extractLsb' 0 52).toNat
  (if num.getLsbD 63 then -1 else 1) * (if e = 0 then (f : Rat) * 2 ^ (-1074 : Int) else (2 ^ 52 + f) * 2 ^ (e - 1075 : Int))

/-- `i` is `q` truncated toward zero (R221). -/
def TruncatesTo (q : Rat) (i : Int) : Prop := if 0 ≤ q then i = ⌊q⌋ else i = ⌈q⌉

/-- A number with a significand of `precision` bits. -/
def Representable (precision : Nat) (q : Rat) : Prop :=
  ∃ m k : Int, |m| < 2 ^ precision ∧ q = m * 2 ^ k

/-- `x` is a number of `precision` significant bits nearest to `q` (R222). -/
def Nearest (precision : Nat) (q x : Rat) : Prop :=
  Representable precision x ∧ ∀ y, Representable precision y → |x - q| ≤ |y - q|

/-! ### Invariants -/

/-- An action writes only values its cell can hold (R24, R27). -/
def actionInRange (a : Action) : Bool :=
  match a with
  | .setCol c => c ≤ Config.cols
  | .setStep n => n ≤ 13
  | .bindPort | .portInit | .write _ _ | .delay _ | .setRow _ | .setIdx _ | .raise _ => true

/-- The invariant of LCD4's own cells: BUF is in canonical form and inside its 32 bytes, COL is at most 16 (R24),
STEP inside the sequence (R27); an idle LCD4 has nothing pending (R33), and one that waits has delivered no STATUS
and has a port (R22, R259). The enable bit and register-select are two bits of a port byte (R81, log 6). -/
structure Inv (s : State) : Prop where
  bitsDiffer : s.params.BitsDiffer
  buf_wf : Memory.wf s.buf
  buf_inBuf : Memory.inBuf s.buf
  col_le : s.col ≤ Config.cols
  step_le : s.initStep ≤ 13
  idle : s.busy = false → s.pending = []
  waiting : s.busy = true → s.status = none ∧ s.portBound = true
  pending_inRange : ∀ a ∈ s.pending, actionInRange a = true

/-- A port byte the encoder builds: bit 3 is BL, and of bits 2:0 only the enable bit and the register-select bit can
be 1 (R81, R99). -/
def byteFramed (p : Config.Params) (bl : Bit) (b : Byte) : Bool :=
  b.extractLsb' 3 1 == bl && b &&& 0x07 &&& ~~~ (enableBit p ||| selectBit p) == 0

/-- Every port byte of the trace, and every one still to be written, is one the encoder builds; and no SEND_BYTE
with a frame of its own is waiting to be run (R149). -/
structure Framed (s : State) : Prop where
  trace : ∀ b r, PortEvent.write b r ∈ s.trace → byteFramed s.params s.bl b = true
  pending : ∀ b c, Action.write b c ∈ s.pending → byteFramed s.params s.bl b = true
  queue : ∀ w, Request.inner (.bytePair w) ∉ s.queue

/-- Two states that differ in operation-local cells only: ROW, COL, IDX, STEP and BUF (R20). -/
def SameOutsideLocals (s s' : State) : Prop :=
  s' = { s with row := s'.row, col := s'.col, idx := s'.idx, initStep := s'.initStep, buf := s'.buf }

/-- The port later returns from more requests: it answers `more` and completes `d` further delays. -/
def portContinues (more : List Bool) (d : Nat) (s : State) : State :=
  { s with answers := s.answers ++ more, delayReturns := s.delayReturns + d }

/-- A run has ended: the last STATUS is delivered, LCD4 is idle and nothing is left to run (R285). -/
abbrev RunEnded (s : State) : Prop := s.busy = false ∧ s.status ≠ none ∧ s.queue = []

end Sys2Proof.Machine
end

