-- ==== Sys2Proof/Certificates/Slice0/Obligations.lean ====
section
/-!
DEFINITION. The statements about LCD4. Each docstring names the rule it formalises, or says that the clause is a
decision of the spec or of the model and where that is recorded.
-/

open Sys2Proof Sys2Proof.Machine

/-! ### Reset, fetching, waiting -/

/-- R270, R37 (decision D17), R38: LCD4 is idle after reset, has emitted no port event, has BL = 1 and PORT_BOUND = 0,
has delivered no STATUS, and does nothing on its own; nor does any idle LCD4 that the host asks nothing of (log 3). -/
def Obligations.ResetIsIdleUnboundWithBacklightOn : Prop :=
  State.reset.bl = 1 ∧ State.reset.portBound = false ∧ State.reset.busy = false ∧ State.reset.trace = [] ∧
  State.reset.status = none ∧ step State.reset = .next State.reset ∧
  ∀ s : State, s.busy = false → s.queue = [] → step s = .next s

/-- R90, R64, log 3: when LCD4 is idle and the host's next command word decodes to a well-formed instruction, a step
is that instruction run on the operands that travel beside the word, with the request taken from the queue. -/
def Obligations.StepRunsTheDecodedHostOperation : Prop :=
  ∀ (s : State) (c : HostCall) (rest : List Request) (i : Instr),
    s.busy = false → s.queue = .host c :: rest → decodeCmd24 c.word = .ok i → i.WellFormed = true →
    step s = exec i { s with queue := rest, text := c.text, fmt := c.fmt, num := c.num }

/-- Log 4 (the model's choice): an internal procedure or display command that is run by itself is its meaning, with
the request taken from the queue and the operands as they stand. -/
def Obligations.StepRunsTheDecodedInnerRequest : Prop :=
  ∀ (s : State) (w : InnerWord) (rest : List Request) (i : Instr),
    s.busy = false → s.queue = .inner w :: rest → decodeInner w = .ok i → i.WellFormed = true →
    step s = exec i { s with queue := rest }

/-- R33, R257 (decision D21): while an operation is in progress a step goes on with it, and serves no request. -/
def Obligations.RequestsAreNotServedWhileBusy : Prop :=
  ∀ s t : State, s.busy = true → step s = .next t → t.queue = s.queue ∧ s.trace <+: t.trace

/-- R257 (decision D21, U4): every instruction that is started while an operation is in progress is refused. -/
def Obligations.StartingWhileBusyIsRefused : Prop :=
  ∀ (i : Instr) (s : State), s.busy = true → exec i s = .refused .operationInProgress

/-! ### Encoding -/

/-- R93 (decision D2): the decoder rejects a command word exactly when its OP is reserved or a must-be-zero bit is
not 0; and a rejected word is refused by the step that fetches it, with no effect. -/
def Obligations.ReservedCommandWordsAreRefused : Prop :=
  (∀ w : BitVec 24,
    (∃ e, decodeCmd24 w = .error e) ↔
      (w.toNat / 65536 > 5 ∨
       (w.toNat / 65536 ∈ [0, 1, 4] ∧ w.toNat % 65536 ≠ 0) ∨
       (w.toNat / 65536 = 3 ∧ w.toNat % 65536 > 1) ∨
       (w.toNat / 65536 = 5 ∧ w.toNat / 256 % 256 ≠ 0))) ∧
  (∀ (s : State) (c : HostCall) (rest : List Request) (e : DecodeError),
    s.busy = false → s.queue = .host c :: rest → decodeCmd24 c.word = .error e →
    step s = .refused (.undecodable e))

/-- Decoding what the encoder writes for a well-formed instruction gives that instruction back, for every operand
value the encoding admits (R84, R86, R87, R91; decision D2). -/
def Obligations.DecodingAnEncodedInstructionGivesItBack : Prop :=
  ∀ i : Instr, i.WellFormed = true → decode (encode i) = .ok i

/-- Each accepted command word has one instruction and each host operation one word: encoding what a command word
decodes to gives the word back (R91, R93; decision D2). -/
def Obligations.EncodingADecodedCommandWordGivesItBack : Prop :=
  ∀ (w : BitVec 24) (i : Instr), decodeCmd24 w = .ok i → encode i = .cmd24 w

/-- Words written out from the tables of R84, R87 and R91 decode to the instructions they stand for. The command words
are the spec's decision D2; the bytes of the display commands are its decision D6 (log 6); and that a 16-bit word is
read as SEND_NIBBLE where it can be one, and as SEND_BYTE otherwise, is the model's choice (log 5). -/
def Obligations.WordsFromTheTablesDecode : Prop :=
  decodeTableWord 24 0x000000 = some .init ∧ decodeTableWord 24 0x010000 = some .clear ∧
  decodeTableWord 24 0x020105 = some (.setCursor 1 5) ∧ decodeTableWord 24 0x030001 = some (.printText 1) ∧
  decodeTableWord 24 0x040000 = some .printFormatted ∧ decodeTableWord 24 0x050048 = some (.printChar 0x48) ∧
  decodeTableWord 24 0x060000 = none ∧ decodeTableWord 24 0x010001 = none ∧ decodeTableWord 24 0x030002 = none ∧
  decodeTableWord 16 0xFFFB = some (.sendByte 0xFB) ∧ decodeTableWord 16 0x3C38 = some (.sendNibble 0x3 0) ∧
  decodeTableWord 32 0xCCC85C58 = some (.sendMessage 0xC5 0) ∧
  decodeTableWord 8 0x28 = some .cmdFunctionSet4Bit ∧ decodeTableWord 8 0xC5 = some (.setDdramAddr 0x45)

/-! ### Transport and encoder -/

/-- R125: SEND_BYTE of any frame. Unbound, it is refused (R22, decision D17, log 17); a false first answer gives one
event and FAIL; a false second answer gives three events and FAIL, with no wait after a failed write (R127, decision
D8, log 14); two true answers give the strobe pair with both waits and OK. A frame whose enable bit is 1 is no
exception (R129, decision D5, log 28). Nothing else changes. -/
def Obligations.SendByteFollowsItsPseudocode : Prop :=
  ∀ (frame : Byte) (s : State), s.busy = false →
    (s.portBound = false → exec (.sendByte frame) s = .refused .portNotBound) ∧
    (s.portBound = true → ∀ rest, s.answers = false :: rest →
      exec (.sendByte frame) s = .next { s with
        status := some .fail, pending := [], answers := rest,
        trace := s.trace ++ [.write (frame ||| enableBit s.params) false] }) ∧
    (s.portBound = true → ∀ rest d, s.answers = true :: false :: rest → s.delayReturns = d + 1 →
      exec (.sendByte frame) s = .next { s with
        status := some .fail, pending := [], answers := rest, delayReturns := d,
        trace := s.trace ++ [.write (frame ||| enableBit s.params) true, .delay 1,
          .write (frame &&& ~~~ enableBit s.params) false] }) ∧
    (s.portBound = true → PortServes 2 2 s →
      exec (.sendByte frame) s = .next (succeeded (frameEvents s.params frame) 2 2 s))

/-- R140: SEND_NIBBLE builds the frame with the value in bits 7:4, BL in bit 3 and the register-select in bit 0 (or at
another RS_POS: R11, decision D4, log 6), and is SEND_BYTE of it, failures and waits included. -/
def Obligations.SendNibbleIsSendByteOfItsFrame : Prop :=
  ∀ (v4 : Nibble) (rs : Bit) (s : State),
    exec (.sendNibble v4 rs) s = exec (.sendByte (frameOf s.params v4 s.bl rs)) s

/-- R126, R143 (derived by the spec): a SEND_NIBBLE that the port serves completes with its strobe pair. -/
def Obligations.SendNibbleCompletes : Prop :=
  ∀ (v4 : Nibble) (rs : Bit) (s : State), Ready s → PortServes 2 2 s →
    exec (.sendNibble v4 rs) s = .next (succeeded (nibbleEvents s.params s.bl v4 rs) 2 2 s)

/-- R144 whole: SEND_MESSAGE is SEND_BYTE of the frame of the high nibble and, only if that returned OK, SEND_BYTE of
the frame of the low nibble; both frames carry BL and the register-select, in bit 0 (or at another RS_POS: R11,
decision D4, log 6). -/
def Obligations.SendMessageIsHighThenLowFrame : Prop :=
  ∀ (v8 : Byte) (rs : Bit) (s t : State),
    exec (.sendByte (frameOf s.params (v8.extractLsb' 4 4) s.bl rs)) s = .next t →
    (t.status = some .fail → exec (.sendMessage v8 rs) s = .next t) ∧
    (t.status = some .ok →
      exec (.sendMessage v8 rs) s = exec (.sendByte (frameOf s.params (v8.extractLsb' 0 4) s.bl rs)) t)

/-- R145 (derived by the spec): a SEND_MESSAGE that the port serves completes with four writes and four waits. -/
def Obligations.SendMessageCompletes : Prop :=
  ∀ (v8 : Byte) (rs : Bit) (s : State), Ready s → PortServes 4 4 s →
    exec (.sendMessage v8 rs) s = .next (succeeded (messageEvents s.params s.bl v8 rs) 4 4 s)

/-- R146 (derived by the spec): a message whose write number k + 1 is the first to be answered false fails there: the
trace is the first k writes, each with its wait, and the failed write, and nothing after it. -/
def Obligations.SendMessageFailsAtTheFirstFalseWrite : Prop :=
  ∀ (v8 : Byte) (rs : Bit) (s : State) (k : Nat) (rest : List Bool) (b : Byte),
    Ready s → k < 4 → s.answers = List.replicate k true ++ false :: rest → k ≤ s.delayReturns →
    (writesOf (messageEvents s.params s.bl v8 rs))[k]? = some b →
    exec (.sendMessage v8 rs) s = .next { s with
      status := some .fail, pending := [], answers := rest, delayReturns := s.delayReturns - k,
      trace := s.trace ++ (messageEvents s.params s.bl v8 rs).take (2 * k) ++ [.write b false] }

/-- R58, R85: the receiver can tell messages apart: equal traces come from equal values and register-selects. The
enable bit and register-select are two different bits, as in R81; that is part of the invariant of every step. -/
def Obligations.MessageTraceDeterminesValueAndSelect : Prop :=
  ∀ (s t : State) (v8 v8' : Byte) (rs rs' : Bit),
    s.params.BitsDiffer →
    exec (.sendMessage v8 rs) s = .next t → exec (.sendMessage v8' rs') s = .next t → t.status = some .ok →
    v8 = v8' ∧ rs = rs'

/-! ### Cursor operations and display commands -/

/-- R180 whole: CLEAR is SEND_MESSAGE of the clear-display command with register-select COMMAND, failures and waits
included; and it completes when the port serves it. -/
def Obligations.ClearSendsTheClearDisplayMessage : Prop :=
  (∀ s : State, exec .clear s = exec (.sendMessage s.params.cmdClearDisplay s.params.rsCommand) s) ∧
  (∀ s : State, Ready s → PortServes 4 4 s →
    exec .clear s = .next (succeeded (commandEvents s.params s.bl s.params.cmdClearDisplay) 4 4 s))

/-- R181, R183: SET_CURSOR whose address fits is SEND_MESSAGE of 0x80 plus the address with register-select COMMAND,
failures and waits included, and completes when the port serves it; row 1 starts at 0x40, every other row at 0x00,
and the column is added as it is. -/
def Obligations.SetCursorSendsTheDdramAddress : Prop :=
  ∀ (row column : Byte) (s : State), (if row = 1 then 0x40 else 0) + column.toNat ≤ 0x7F →
    exec (.setCursor row column) s = exec (.sendMessage
      (BitVec.ofNat 8 (0x80 + ((if row = 1 then 0x40 else 0) + column.toNat))) s.params.rsCommand) s ∧
    (Ready s → PortServes 4 4 s →
      exec (.setCursor row column) s = .next (succeeded (commandEvents s.params s.bl
        (BitVec.ofNat 8 (0x80 + ((if row = 1 then 0x40 else 0) + column.toNat)))) 4 4 s))

/-- R182: every row but 1 acts as row 0, with no error raised; SET_CURSOR(2, 3) sends 0x83 and returns OK. -/
def Obligations.RowsOtherThanOneAliasToRowZero : Prop :=
  (∀ (row column : Byte) (s : State), row ≠ 1 → exec (.setCursor row column) s = exec (.setCursor 0 column) s) ∧
  (∀ s : State, Ready s → PortServes 4 4 s →
    exec (.setCursor 2 3) s = .next (succeeded (commandEvents s.params s.bl 0x83) 4 4 s))

/-- R184 (decision D10): an idle SET_CURSOR is refused for its address exactly when the row is 1 and the column at
least 64, or the row is not 1 and the column at least 128; nothing is sent first (R247). -/
def Obligations.SetCursorOverflowIsRefused : Prop :=
  ∀ (row column : Byte) (s : State), s.busy = false →
    (exec (.setCursor row column) s = .refused .addressOverflow ↔
      ((row = 1 ∧ 64 ≤ column.toNat) ∨ (row ≠ 1 ∧ 128 ≤ column.toNat)))

/-- R185 (decision D23), R89, R97: PRINT_CHAR is SEND_MESSAGE of the unchanged character with register-select DATA, for
any of the 256 characters, failures and waits included; and it completes when the port serves it. -/
def Obligations.PrintCharSendsTheCharacterAsData : Prop :=
  ∀ (character : Byte) (s : State),
    exec (.printChar character) s = exec (.sendMessage character s.params.rsData) s ∧
    (Ready s → PortServes 4 4 s →
      exec (.printChar character) s = .next (succeeded (dataEvents s.params s.bl character) 4 4 s))

/-- R87, R88, log 4 and 6: each of the six fixed display commands, run by itself, completes with the message of its
configured byte and register-select COMMAND, and so does SET_DDRAM_ADDR with the byte 1aaaaaaa. -/
def Obligations.DisplayCommandsSendTheirBytes : Prop :=
  ∀ s : State, Ready s → PortServes 4 4 s →
    exec .cmdClearDisplay s = .next (succeeded (commandEvents s.params s.bl s.params.cmdClearDisplay) 4 4 s) ∧
    exec .cmdReturnHome s = .next (succeeded (commandEvents s.params s.bl s.params.cmdReturnHome) 4 4 s) ∧
    exec .cmdEntryModeInc s = .next (succeeded (commandEvents s.params s.bl s.params.cmdEntryModeInc) 4 4 s) ∧
    exec .cmdDisplayOff s = .next (succeeded (commandEvents s.params s.bl s.params.cmdDisplayOff) 4 4 s) ∧
    exec .cmdDisplayOn s = .next (succeeded (commandEvents s.params s.bl s.params.cmdDisplayOn) 4 4 s) ∧
    exec .cmdFunctionSet4Bit s = .next (succeeded (commandEvents s.params s.bl s.params.cmdFunctionSet4Bit) 4 4 s) ∧
    ∀ address : BitVec 7, exec (.setDdramAddr address) s =
      .next (succeeded (commandEvents s.params s.bl ((1 : Bit) ++ address)) 4 4 s)

/-- R131 for SEND_BYTE, "State written: none" of R140, R144, R180, R181 and R185 for SEND_NIBBLE, SEND_MESSAGE, CLEAR,
SET_CURSOR and PRINT_CHAR, and log 4 (the model's choice) for a display command by itself: they write no cell of
LCD4, whatever the port answers. What changes is STATUS, BUSY and the position, the trace, and the port's inputs that
were used. -/
def Obligations.OneMessageOperationsWriteNoCell : Prop :=
  ∀ (i : Instr) (s t : State), i ≠ .init → (∀ v, i ≠ .printText v) → i ≠ .printFormatted → exec i s = .next t →
    t = { s with status := t.status, busy := t.busy, pending := t.pending, trace := t.trace,
                 answers := t.answers, delayReturns := t.delayReturns } ∧
    ∀ a, Memory.read t.buf a = Memory.read s.buf a

/-! ### INIT -/

/-- R161, R163, log 9: an INIT that the port serves completes with its fixed sequence, for any parameters and either
value of BL, whether or not a port was injected before (R169, decision D18). PORT_BOUND is 1 and STEP is past the last
step; nothing else changes. -/
def Obligations.InitEmitsItsFixedSequence : Prop :=
  ∀ s : State, s.busy = false → PortServes 33 41 s →
    exec .init s = .next { succeeded (initEvents s.params s.bl) 33 41 s with portBound := true, initStep := 13 }

/-- R163 (derived by the spec): the 32 bytes an INIT writes with the default parameters and BL = 1. -/
def Obligations.InitWritesTheDefaultBytes : Prop :=
  ∀ s t : State, s.params = Config.Params.default → s.bl = 1 → exec .init s = .next t → t.status = some .ok →
    writesOf t.trace = writesOf s.trace ++
      [0x3C, 0x38, 0x3C, 0x38, 0x3C, 0x38, 0x2C, 0x28, 0x2C, 0x28, 0x8C, 0x88, 0x0C, 0x08, 0x8C, 0x88,
       0x0C, 0x08, 0x2C, 0x28, 0x0C, 0x08, 0x6C, 0x68, 0x0C, 0x08, 0xCC, 0xC8, 0x0C, 0x08, 0x1C, 0x18]

/-- R164, R283 (derived by the spec): for any parameter values, an INIT that returns OK has made one `portInit`
request, 32 writes and 41 delays, and asked for 69 ms of waiting. -/
def Obligations.InitCountsHoldForAllParameters : Prop :=
  ∀ s t : State, exec .init s = .next t → t.status = some .ok →
    ∃ events, t.trace = s.trace ++ .portInit true :: events ∧ (∀ r, PortEvent.portInit r ∉ events) ∧
      (writesOf events).length = 32 ∧ (delaysOf events).length = 41 ∧ requestedDelay events = 69

/-- R166: an INIT fails with the event that failed: `PI(false)` alone, or the sequence up to the write that was
answered false, for every one of the 32 writes; no later step runs and no delay follows. -/
def Obligations.InitFailureEndsTheSequence : Prop :=
  ∀ s : State, s.busy = false →
    (∀ rest, s.answers = false :: rest → ∃ t, exec .init s = .next t ∧ t.status = some .fail ∧ t.busy = false ∧
      t.trace = s.trace ++ [.portInit false]) ∧
    (∀ before b after rest, initEvents s.params s.bl = before ++ .write b true :: after →
      s.answers = true :: List.replicate (writesOf before).length true ++ false :: rest →
      (delaysOf before).length ≤ s.delayReturns →
      ∃ t, exec .init s = .next t ∧ t.status = some .fail ∧ t.busy = false ∧ t.answers = rest ∧
        t.trace = s.trace ++ before ++ [.write b false])

/-- R165 (decision D17): INIT leaves PORT_BOUND = 1 whether it succeeds, fails or waits; and apart from PORT_BOUND and
STEP it writes no cell of LCD4. -/
def Obligations.InitBindsThePortAndKeepsTheRest : Prop :=
  ∀ s t : State, exec .init s = .next t →
    t = { s with portBound := true, initStep := t.initStep, status := t.status, busy := t.busy, pending := t.pending,
                 trace := t.trace, answers := t.answers, delayReturns := t.delayReturns } ∧
    ∀ a, Memory.read t.buf a = Memory.read s.buf a

/-- R34 (decision D17, U9): before any INIT, every instruction but INIT and PRINT_TEXT of the null reference is
refused. -/
def Obligations.OperationsBeforeInitAreRefused : Prop :=
  ∀ (i : Instr) (s : State), s.busy = false → s.portBound = false → i ≠ .init → i ≠ .printText 0 →
    ∃ r, exec i s = .refused r

/-! ### PRINT_TEXT -/

/-- R187: PRINT_TEXT of the null reference completes with FAIL and no port event, even before any INIT; nothing else
changes. -/
def Obligations.NullTextFailsWithoutPortEvent : Prop :=
  ∀ s : State, s.busy = false →
    exec (.printText 0) s = .next { s with status := some .fail, pending := [] }

/-- R186: a PRINT_TEXT that the port serves (two messages for every character are enough, and two for the preamble)
completes with OK, for every text; apart from ROW, COL and IDX it writes no cell of LCD4. -/
def Obligations.PrintTextCompletes : Prop :=
  ∀ s : State, Ready s → PortServes (8 + 8 * s.text.length) (8 + 8 * s.text.length) s →
    ∃ t, exec (.printText 1) s = .next t ∧ t.status = some .ok ∧ t.busy = false ∧
      t = { s with row := t.row, col := t.col, idx := t.idx, status := t.status, pending := [], trace := t.trace,
                   answers := t.answers, delayReturns := t.delayReturns }

/-- R186: the frame of PRINT_TEXT on every path, a failure or a wait included: of LCD4's own cells it writes ROW, COL
and IDX only, and it writes no byte of BUF. -/
def Obligations.PrintTextWritesRowColIdxOnly : Prop :=
  ∀ (v : Bit) (s t : State), exec (.printText v) s = .next t →
    t = { s with row := t.row, col := t.col, idx := t.idx, status := t.status, busy := t.busy, pending := t.pending,
                 trace := t.trace, answers := t.answers, delayReturns := t.delayReturns } ∧
    ∀ a, Memory.read t.buf a = Memory.read s.buf a

/-- R188: a non-null text, even an empty one, first sends the clear-display message and then the message of (0, 0); an
empty text sends exactly these two and returns OK with ROW = COL = IDX = 0. -/
def Obligations.PrintTextStartsWithClearAndHome : Prop :=
  ∀ s : State, Ready s → PortServes 8 8 s →
    (∀ t, exec (.printText 1) s = .next t →
      s.trace ++ commandEvents s.params s.bl s.params.cmdClearDisplay ++ commandEvents s.params s.bl 0x80 <+: t.trace) ∧
    (s.text = [] → exec (.printText 1) s = .next { succeeded
      (commandEvents s.params s.bl s.params.cmdClearDisplay ++ commandEvents s.params s.bl 0x80) 8 8 s with
      row := 0, col := 0, idx := 0 })

/-- R189: a newline after a text that is not truncated toggles the row, resets the column, sends one cursor message
(0xC0 for row 1, 0x80 for row 0) and is not itself printed, wherever it stands. -/
def Obligations.NewlineTogglesTheRow : Prop :=
  ∀ (s t : State) (u : List Byte), Ready s → s.params.nul ∉ u → s.params.newline ≠ s.params.nul →
    PrintsTo s u t → t.col ≠ 16 → PortServes 4 4 t →
    exec (.printText 1) { s with text := u ++ [s.params.newline] } = .next
      { succeeded (commandEvents s.params s.bl (if t.row = 0 then 0xC0 else 0x80)) 4 4 t with
        text := u ++ [s.params.newline], row := t.row ^^^ 1, col := 0, idx := t.idx + 1 }

/-- R190: any other character that does not fill the row is sent as data and the column counter increments. -/
def Obligations.OrdinaryCharacterIsPrintedAndCounted : Prop :=
  ∀ (s t : State) (u : List Byte) (ch : Byte), Ready s → s.params.nul ∉ u → Ordinary s.params ch →
    PrintsTo s u t → t.col < 15 → PortServes 4 4 t →
    exec (.printText 1) { s with text := u ++ [ch] } = .next
      { succeeded (dataEvents s.params s.bl ch) 4 4 t with
        text := u ++ [ch], col := t.col + 1, idx := t.idx + 1 }

/-- R191 (decisions D11 and D12, log 15): the character that fills row 0 is printed, and in the same iteration the
text moves to row 1 column 0 with one cursor message, unless WRAP_REPOSITIONS is off. -/
def Obligations.FullRowZeroWrapsToRowOne : Prop :=
  ∀ (s t : State) (u : List Byte) (ch : Byte), Ready s → s.params.nul ∉ u → Ordinary s.params ch →
    PrintsTo s u t → t.col = 15 → t.row = 0 → PortServes 8 8 t →
    exec (.printText 1) { s with text := u ++ [ch] } = .next
      (if s.params.wrapRepositions then
        { succeeded (dataEvents s.params s.bl ch ++ commandEvents s.params s.bl 0xC0) 8 8 t with
          text := u ++ [ch], row := 1, col := 0, idx := t.idx + 1 }
      else
        { succeeded (dataEvents s.params s.bl ch) 4 4 t with
          text := u ++ [ch], row := 1, col := 0, idx := t.idx + 1 })

/-- R192 (decision D13): the character that fills row 1 is printed and stops the printing with OK; from then on
nothing of the text is sent, whatever it is. -/
def Obligations.FullRowOneTruncatesSilently : Prop :=
  (∀ (s t : State) (u : List Byte) (ch : Byte), Ready s → s.params.nul ∉ u → Ordinary s.params ch →
    PrintsTo s u t → t.col = 15 → t.row = 1 → PortServes 4 4 t →
    exec (.printText 1) { s with text := u ++ [ch] } = .next
      { succeeded (dataEvents s.params s.bl ch) 4 4 t with text := u ++ [ch], col := 16 }) ∧
  (∀ (s t : State) (u v : List Byte), Ready s → s.params.nul ∉ u → PrintsTo s u t → t.col = 16 →
    exec (.printText 1) { s with text := u ++ v } = .next { t with text := u ++ v })

/-- R193: the loop stops at the terminating character, which is not printed and causes no message; what stands after
it is never read (R51). -/
def Obligations.NulEndsTheText : Prop :=
  ∀ (s t : State) (u v : List Byte), Ready s → PrintsTo s u t →
    exec (.printText 1) { s with text := u ++ s.params.nul :: v } = .next { t with text := u ++ s.params.nul :: v }

/-- R51 (decision D16): on every path, a failure or a wait included, PRINT_TEXT depends only on the bytes before the
first NUL. -/
def Obligations.TextAfterNulIsNeverRead : Prop :=
  ∀ s : State,
    (∀ t, exec (.printText 1) { s with text := textBytes s.params s.text } = .next t →
      exec (.printText 1) s = .next { t with text := s.text }) ∧
    (∀ r, exec (.printText 1) { s with text := textBytes s.params s.text } = .refused r →
      exec (.printText 1) s = .refused r)

/-- R191, R192, R199 (decisions D11 to D13, log 15): a text of ordinary characters shows its first 16 on row 0, sends
the cursor message of row 1 once there are 16 (unless WRAP_REPOSITIONS is off), shows the next 16 on row 1, and drops
the rest. -/
def Obligations.TextWithoutNewlineFillsTwoRows : Prop :=
  ∀ (s t : State) (u : List Byte), (∀ ch ∈ u, Ordinary s.params ch) → PrintsTo s u t →
    t.trace = s.trace ++ commandEvents s.params s.bl s.params.cmdClearDisplay ++ commandEvents s.params s.bl 0x80
      ++ (u.take 16).flatMap (dataEvents s.params s.bl)
      ++ (if 16 ≤ u.length ∧ s.params.wrapRepositions = true then commandEvents s.params s.bl 0xC0 else [])
      ++ ((u.drop 16).take 16).flatMap (dataEvents s.params s.bl)

/-- R195 (derived by the spec): after a PRINT_TEXT that returned OK, COL is at most 16, and 16 only on row 1; and if
the text was not truncated, IDX is the number of characters processed. -/
def Obligations.PrintTextCountersStayInRange : Prop :=
  ∀ (s t : State) (u : List Byte), PrintsTo s u t →
    t.col ≤ 16 ∧ (t.col = 16 → t.row = 1) ∧ (t.col ≠ 16 → t.idx = (textBytes s.params u).length)

/-- R196, R197, R190 (derived by the spec): a PRINT_TEXT that returns OK sends whole messages only: the preamble, then
as data exactly the processed characters of the text that are no newline, in order, and in between the cursor
commands 0x80 or 0xC0, one for every newline processed and one for every wrap (none for a wrap where WRAP_REPOSITIONS
is off: log 15). So there are 4 (2 + p + n + w) writes and as many `D(1)`. -/
def Obligations.PrintTextSendsWholeMessagesOfItsText : Prop :=
  ∀ (s t : State) (u : List Byte), PrintsTo s u t →
    ∃ (messages : List (Bool × Byte)) (events : List PortEvent) (p n w : Nat),
      p = ((processed s.params u t).filter (· ≠ s.params.newline)).length ∧
      n = (processed s.params u t).count s.params.newline ∧
      w = (if s.params.wrapRepositions then wraps s.params 0 0 (processed s.params u t) else 0) ∧
      t.trace = s.trace ++ events ∧
      events = commandEvents s.params s.bl s.params.cmdClearDisplay ++ commandEvents s.params s.bl 0x80
        ++ messages.flatMap (fun m => if m.1 then dataEvents s.params s.bl m.2 else commandEvents s.params s.bl m.2) ∧
      (messages.filter (·.1)).map (·.2) = (processed s.params u t).filter (· ≠ s.params.newline) ∧
      (∀ m ∈ messages, m.1 = true → Ordinary s.params m.2) ∧
      (∀ m ∈ messages, m.1 = false → m.2 = 0x80 ∨ m.2 = 0xC0) ∧
      messages.length = p + n + w ∧
      (writesOf events).length = 4 * (2 + p + n + w) ∧ delaysOf events = List.replicate (4 * (2 + p + n + w)) 1

/-! ### PRINT_FORMATTED -/

/-- R225: PRINT_FORMATTED of a number and template that SPLIT and RENDER accept, rendering to at most 31 bytes, is
PRINT_TEXT of the rendered text: the same STATUS or wait, the same trace, the same counters, the same refusal;
besides, the text and NUL stand in BUF (R220). -/
def Obligations.PrintFormattedIsPrintTextOfTheRenderedText : Prop :=
  ∀ (s : State) (template rendered : List Byte) (parts : Int × Int),
    Memory.wf s.buf → s.busy = false → s.fmt = some template → split s.params s.num = .ok parts →
    render s.params template [parts.1, parts.2] = .ok rendered → rendered.length ≤ 31 →
    (∀ t, exec (.printText 1) { s with text := rendered } = .next t →
      exec .printFormatted s = .next { t with text := s.text, buf := storeText s.params rendered s.buf }) ∧
    (∀ r, exec (.printText 1) { s with text := rendered } = .refused r → exec .printFormatted s = .refused r)

/-- R220, R224: PRINT_FORMATTED completes with OK when SPLIT and RENDER accept its operands, the text has at most 31
bytes and the port serves it; BUF then holds the text and NUL, and every other byte of BUF reads as before. -/
def Obligations.PrintFormattedCompletesAndStoresItsText : Prop :=
  ∀ (s : State) (template rendered : List Byte) (parts : Int × Int),
    Memory.wf s.buf → Ready s → s.fmt = some template → split s.params s.num = .ok parts →
    render s.params template [parts.1, parts.2] = .ok rendered → rendered.length ≤ 31 →
    PortServes (8 + 8 * rendered.length) (8 + 8 * rendered.length) s →
    ∃ t, exec .printFormatted s = .next t ∧ t.status = some .ok ∧ t.busy = false ∧
      (∀ i, i < rendered.length → Memory.read t.buf i = rendered.getD i 0) ∧
      Memory.read t.buf rendered.length = s.params.nul ∧
      (∀ a, rendered.length < a → Memory.read t.buf a = Memory.read s.buf a) ∧
      t = { s with buf := t.buf, row := t.row, col := t.col, idx := t.idx, status := t.status, pending := [],
                   trace := t.trace, answers := t.answers, delayReturns := t.delayReturns }

/-- R220: the frame of PRINT_FORMATTED on every path, a failure or a wait included: of LCD4's own cells it writes ROW,
COL, IDX and BUF only; and of BUF only the bytes of the rendered text and the NUL after it, from address 0 on. -/
def Obligations.PrintFormattedWritesBufRowColIdxOnly : Prop :=
  ∀ s t : State, Memory.wf s.buf → exec .printFormatted s = .next t →
    t = { s with buf := t.buf, row := t.row, col := t.col, idx := t.idx, status := t.status, busy := t.busy,
                 pending := t.pending, trace := t.trace, answers := t.answers, delayReturns := t.delayReturns } ∧
    ∃ template parts rendered, s.fmt = some template ∧ split s.params s.num = .ok parts ∧
      render s.params template [parts.1, parts.2] = .ok rendered ∧ rendered.length ≤ 31 ∧
      ∀ a, Memory.read t.buf a = (rendered ++ [s.params.nul]).getD a (Memory.read s.buf a)

/-- R221, R223, R224, R226 (decision D22): an idle PRINT_FORMATTED is refused, with the reason's name, for every
operand outside the defined domain: a number that is not finite (in binary32 and binary64: an exponent field of all
ones), an integer part that does not fit INT_WIDTH bits (0 counts as 1: log 10, the model's choice), a null template,
a template with a NUL, with a `%` sequence outside the grammar or without exactly two `%d`, and a rendered text of
more than 31 bytes. Nothing is sent. -/
def Obligations.PrintFormattedRefusesUndefinedOperands : Prop :=
  ∀ s : State, s.busy = false →
    (s.params.floatFormat = .binary32 → s.num.extractLsb' 23 8 = 0xFF →
      exec .printFormatted s = .refused .numberNotFinite) ∧
    (s.params.floatFormat = .binary64 → s.num.extractLsb' 52 11 = 0x7FF →
      exec .printFormatted s = .refused .numberNotFinite) ∧
    (∀ parts, splitNumber s.params.floatFormat s.num = some parts →
      (parts.1 < -2 ^ (s.params.intWidth - 1) ∨ 2 ^ (s.params.intWidth - 1) ≤ parts.1) →
      exec .printFormatted s = .refused .integerPartTooWide) ∧
    (∀ parts, split s.params s.num = .ok parts → s.fmt = none → exec .printFormatted s = .refused .nullTemplate) ∧
    (∀ parts template, split s.params s.num = .ok parts → s.fmt = some template →
      s.params.nul ∈ template ∨ placeholders template ≠ some 2 →
      exec .printFormatted s = .refused .badTemplate) ∧
    (∀ parts template rendered, split s.params s.num = .ok parts → s.fmt = some template →
      render s.params template [parts.1, parts.2] = .ok rendered → 31 < rendered.length →
      exec .printFormatted s = .refused .bufferOverflow)

/-- R223 (decision D22, log 13): a template without NUL that has two `%d` between literal parts, in which `%%` stands
for `%`, renders to those parts with the decimal digits of the integer part and of the fraction in the places of the
first and the second. -/
def Obligations.RenderPlacesTheTwoIntegersInOrder : Prop :=
  ∀ (p : Config.Params) (a b c : List Byte) (ipart fpart : Int),
    p.nul ∉ escaped a ++ [0x25, 0x64] ++ escaped b ++ [0x25, 0x64] ++ escaped c →
    render p (escaped a ++ [0x25, 0x64] ++ escaped b ++ [0x25, 0x64] ++ escaped c) [ipart, fpart] =
      .ok (a ++ decimalInt ipart ++ b ++ decimalInt fpart ++ c)

/-- R223 (decision D22; the characters `0` to `9` and `-` as 0x30 to 0x39 and 0x2D are log 13): an integer is rendered
as the digits of its magnitude, with a leading `-` if it is negative and no sign if not; and the digits of a natural
number are decimal digit characters that stand for it, without a leading zero unless the number is 0, which is the one
digit `0`. -/
def Obligations.DecimalDigitsStandForTheNumber : Prop :=
  (∀ i : Int, decimalInt i = (if i < 0 then [0x2D] else []) ++ decimalNat i.natAbs) ∧
  ∀ n : Nat,
    decimalValue (decimalNat n) = n ∧ (∀ d ∈ decimalNat n, 0x30 ≤ d.toNat ∧ d.toNat ≤ 0x39) ∧
    (0 < n → (decimalNat n).head? ≠ some 0x30) ∧ decimalNat 0 = [0x30]

/-- R221, R222 (decision D22, log 12): in binary32 and binary64 every finite number is split: its integer part is the
number truncated toward zero, and its fraction is 100 times the difference, rounded to a nearest number of the format's
precision and truncated toward zero. The fraction is at most 99 in magnitude, and both parts have the sign of the
number or are 0. -/
def Obligations.SplitFractionHasTwoDigitsAndTheSign : Prop :=
  ∀ num : BitVec 64,
    (num.extractLsb' 23 8 ≠ 0xFF → ∃ i f, splitNumber .binary32 num = some (i, f) ∧ TruncatesTo (binary32Rat num) i ∧
      (∃ x, Nearest 24 ((binary32Rat num - i) * 100) x ∧ TruncatesTo x f) ∧
      f.natAbs ≤ 99 ∧ (if num.getLsbD 31 then i ≤ 0 ∧ f ≤ 0 else 0 ≤ i ∧ 0 ≤ f)) ∧
    (num.extractLsb' 52 11 ≠ 0x7FF → ∃ i f, splitNumber .binary64 num = some (i, f) ∧ TruncatesTo (binary64Rat num) i ∧
      (∃ x, Nearest 53 ((binary64Rat num - i) * 100) x ∧ TruncatesTo x f) ∧
      f.natAbs ≤ 99 ∧ (if num.getLsbD 63 then i ≤ 0 ∧ f ≤ 0 else 0 ≤ i ∧ 0 ≤ f))

/-! ### Failures -/

/-- R98 (decision D19): OK is 0 and FAIL is 1 on the host interface, and the bit determines the STATUS. -/
def Obligations.StatusBitsAreZeroAndOne : Prop :=
  statusBit .ok = 0 ∧ statusBit .fail = 1 ∧ ∀ st, statusOfBit (statusBit st) = st

/-- R250, R242, R244, R248: every operation that returns FAIL either is PRINT_TEXT of the null reference, with no
event, or ends its trace with the one event that was answered false, all earlier ones having succeeded; LCD4 is then
idle with nothing left to do. And an operation that returns OK has had no request answered false. -/
def Obligations.FailureIsTheLastEventOfTheTrace : Prop :=
  ∀ (i : Instr) (s t : State), exec i s = .next t →
    (t.status = some .fail → t.busy = false ∧ t.pending = [] ∧
      ((i = .printText 0 ∧ t.trace = s.trace) ∨
       ∃ before e, t.trace = s.trace ++ before ++ [e] ∧ eventFailed e = true ∧
         ∀ e' ∈ before, eventFailed e' = false)) ∧
    (t.status = some .ok → ∃ events, t.trace = s.trace ++ events ∧ ∀ e ∈ events, eventFailed e = false)

/-- R245: as long as the port answers true, no operand value of any operation produces FAIL, except the null text. -/
def Obligations.NoOperandButNullTextProducesFail : Prop :=
  ∀ (i : Instr) (s t : State), (∀ r ∈ s.answers, r = true) → exec i s = .next t → t.status = some .fail →
    i = .printText 0

/-- R34, R184, R253 (decisions D10, D17, D22): once a port has been injected, an idle LCD4 refuses nothing but a
PRINT_FORMATTED whose operands are outside the defined domain, for that reason, and a SET_CURSOR whose address exceeds
0x7F. An INT_WIDTH of 0 counts as 1 (log 10, the model's choice). -/
def Obligations.BoundOperationsAreRefusedForOperandsOnly : Prop :=
  ∀ (i : Instr) (s : State) (r : Refusal), Ready s → exec i s = .refused r →
    (i = .printFormatted ∧ OutsideDomain s r) ∨
    (∃ row column, i = .setCursor row column ∧ r = .addressOverflow ∧
      0x7F < (if row = 1 then 0x40 else 0) + column.toNat)

/-- R259 (decision D20): an operation that has not ended waits with BUSY = 1 and no STATUS at a request the port has
not answered, and a step without a new answer changes nothing. -/
def Obligations.WaitingForThePortChangesNothing : Prop :=
  ∀ (i : Instr) (s t : State), exec i s = .next t → t.busy = true →
    t.status = none ∧ t.pending ≠ [] ∧ (t.answers = [] ∨ t.delayReturns = 0) ∧ step t = .next t

/-- R259, R61 (decision D20, log 20): an operation that had to wait ends as it would have ended if the port had
answered at once: going on with the later answers is the same as running it with all of them. -/
def Obligations.ResumedOperationEndsAsUninterrupted : Prop :=
  ∀ (i : Instr) (s t : State) (more : List Bool) (d : Nat), exec i s = .next t → t.busy = true →
    step (portContinues more d t) = exec i (portContinues more d s)

/-- R20: ROW, COL, IDX, STEP and BUF are local to one operation: their values before an operation change nothing about
it but those cells afterwards: not its STATUS, its trace, nor what it refuses. -/
def Obligations.LocalCellsDoNotInfluenceOperations : Prop :=
  ∀ (i : Instr) (s s' : State), Memory.wf s.buf → Memory.wf s'.buf → SameOutsideLocals s s' →
    (∀ t, exec i s = .next t → ∃ t', exec i s' = .next t' ∧ SameOutsideLocals t t') ∧
    (∀ r, exec i s = .refused r → exec i s' = .refused r)

/-! ### Invariants of every step -/

/-- R37: the invariant of LCD4's cells holds at reset. -/
def Obligations.InvariantHoldsAtReset : Prop := Inv State.reset

/-- Every step keeps the invariant of LCD4's cells: BUF canonical and inside its 32 bytes, COL at most 16, STEP inside
the sequence, nothing pending when idle, no STATUS while waiting, two bits for enable and register-select (R22, R24,
R27, R30, R33; R81 with log 6). -/
def Obligations.EveryStepKeepsTheInvariant : Prop :=
  ∀ s t : State, Inv s → step s = .next t → Inv t

/-- R21, R22, R11: no step changes BL or a parameter, none clears PORT_BOUND, and the trace only grows. -/
def Obligations.BacklightAndParametersNeverChange : Prop :=
  ∀ s t : State, step s = .next t →
    t.bl = s.bl ∧ t.params = s.params ∧ (s.portBound = true → t.portBound = true) ∧ s.trace <+: t.trace

/-- R81, R99, R149, R282 (derived by the spec): as long as no bare SEND_BYTE is asked for, every port byte LCD4 writes
carries BL in bit 3 and has no bit of 2:0 set but the enable bit and register-select (so bit 1 is 0 with the default
positions), in every step from every such state. -/
def Obligations.EveryPortByteIsFramed : Prop :=
  ∀ s t : State, Framed s → step s = .next t → Framed t
end

