-- ==== Sys2Proof/Laws/State.lean ====
section
/-!
SUPPORT. One lemma per field of State and per named update of it, so that no proof unfolds an update.
-/
namespace Sys2Proof.Machine

open Sys2Proof

/-! ### `deliver` -/

@[simp] theorem deliver_params (st : Status) (s : State) : (deliver st s).params = s.params := rfl
@[simp] theorem deliver_bl (st : Status) (s : State) : (deliver st s).bl = s.bl := rfl
@[simp] theorem deliver_portBound (st : Status) (s : State) : (deliver st s).portBound = s.portBound := rfl
@[simp] theorem deliver_busy (st : Status) (s : State) : (deliver st s).busy = false := rfl
@[simp] theorem deliver_row (st : Status) (s : State) : (deliver st s).row = s.row := rfl
@[simp] theorem deliver_col (st : Status) (s : State) : (deliver st s).col = s.col := rfl
@[simp] theorem deliver_idx (st : Status) (s : State) : (deliver st s).idx = s.idx := rfl
@[simp] theorem deliver_initStep (st : Status) (s : State) : (deliver st s).initStep = s.initStep := rfl
@[simp] theorem deliver_buf (st : Status) (s : State) : (deliver st s).buf = s.buf := rfl
@[simp] theorem deliver_status (st : Status) (s : State) : (deliver st s).status = some st := rfl
@[simp] theorem deliver_pending (st : Status) (s : State) : (deliver st s).pending = [] := rfl
@[simp] theorem deliver_text (st : Status) (s : State) : (deliver st s).text = s.text := rfl
@[simp] theorem deliver_fmt (st : Status) (s : State) : (deliver st s).fmt = s.fmt := rfl
@[simp] theorem deliver_num (st : Status) (s : State) : (deliver st s).num = s.num := rfl
@[simp] theorem deliver_answers (st : Status) (s : State) : (deliver st s).answers = s.answers := rfl
@[simp] theorem deliver_delayReturns (st : Status) (s : State) : (deliver st s).delayReturns = s.delayReturns := rfl
@[simp] theorem deliver_queue (st : Status) (s : State) : (deliver st s).queue = s.queue := rfl
@[simp] theorem deliver_trace (st : Status) (s : State) : (deliver st s).trace = s.trace := rfl

/-! ### `waitForPort` -/

@[simp] theorem waitForPort_params (rest : List Action) (s : State) : (waitForPort rest s).params = s.params := rfl
@[simp] theorem waitForPort_bl (rest : List Action) (s : State) : (waitForPort rest s).bl = s.bl := rfl
@[simp] theorem waitForPort_portBound (rest : List Action) (s : State) : (waitForPort rest s).portBound = s.portBound := rfl
@[simp] theorem waitForPort_busy (rest : List Action) (s : State) : (waitForPort rest s).busy = true := rfl
@[simp] theorem waitForPort_row (rest : List Action) (s : State) : (waitForPort rest s).row = s.row := rfl
@[simp] theorem waitForPort_col (rest : List Action) (s : State) : (waitForPort rest s).col = s.col := rfl
@[simp] theorem waitForPort_idx (rest : List Action) (s : State) : (waitForPort rest s).idx = s.idx := rfl
@[simp] theorem waitForPort_initStep (rest : List Action) (s : State) : (waitForPort rest s).initStep = s.initStep := rfl
@[simp] theorem waitForPort_buf (rest : List Action) (s : State) : (waitForPort rest s).buf = s.buf := rfl
@[simp] theorem waitForPort_status (rest : List Action) (s : State) : (waitForPort rest s).status = none := rfl
@[simp] theorem waitForPort_pending (rest : List Action) (s : State) : (waitForPort rest s).pending = rest := rfl
@[simp] theorem waitForPort_text (rest : List Action) (s : State) : (waitForPort rest s).text = s.text := rfl
@[simp] theorem waitForPort_fmt (rest : List Action) (s : State) : (waitForPort rest s).fmt = s.fmt := rfl
@[simp] theorem waitForPort_num (rest : List Action) (s : State) : (waitForPort rest s).num = s.num := rfl
@[simp] theorem waitForPort_answers (rest : List Action) (s : State) : (waitForPort rest s).answers = s.answers := rfl
@[simp] theorem waitForPort_delayReturns (rest : List Action) (s : State) : (waitForPort rest s).delayReturns = s.delayReturns := rfl
@[simp] theorem waitForPort_queue (rest : List Action) (s : State) : (waitForPort rest s).queue = s.queue := rfl
@[simp] theorem waitForPort_trace (rest : List Action) (s : State) : (waitForPort rest s).trace = s.trace := rfl

/-! ### `loadOperands` -/

@[simp] theorem loadOperands_params (c : HostCall) (s : State) : (loadOperands c s).params = s.params := rfl
@[simp] theorem loadOperands_bl (c : HostCall) (s : State) : (loadOperands c s).bl = s.bl := rfl
@[simp] theorem loadOperands_portBound (c : HostCall) (s : State) : (loadOperands c s).portBound = s.portBound := rfl
@[simp] theorem loadOperands_busy (c : HostCall) (s : State) : (loadOperands c s).busy = s.busy := rfl
@[simp] theorem loadOperands_row (c : HostCall) (s : State) : (loadOperands c s).row = s.row := rfl
@[simp] theorem loadOperands_col (c : HostCall) (s : State) : (loadOperands c s).col = s.col := rfl
@[simp] theorem loadOperands_idx (c : HostCall) (s : State) : (loadOperands c s).idx = s.idx := rfl
@[simp] theorem loadOperands_initStep (c : HostCall) (s : State) : (loadOperands c s).initStep = s.initStep := rfl
@[simp] theorem loadOperands_buf (c : HostCall) (s : State) : (loadOperands c s).buf = s.buf := rfl
@[simp] theorem loadOperands_status (c : HostCall) (s : State) : (loadOperands c s).status = s.status := rfl
@[simp] theorem loadOperands_pending (c : HostCall) (s : State) : (loadOperands c s).pending = s.pending := rfl
@[simp] theorem loadOperands_text (c : HostCall) (s : State) : (loadOperands c s).text = c.text := rfl
@[simp] theorem loadOperands_fmt (c : HostCall) (s : State) : (loadOperands c s).fmt = c.fmt := rfl
@[simp] theorem loadOperands_num (c : HostCall) (s : State) : (loadOperands c s).num = c.num := rfl
@[simp] theorem loadOperands_answers (c : HostCall) (s : State) : (loadOperands c s).answers = s.answers := rfl
@[simp] theorem loadOperands_delayReturns (c : HostCall) (s : State) : (loadOperands c s).delayReturns = s.delayReturns := rfl
@[simp] theorem loadOperands_queue (c : HostCall) (s : State) : (loadOperands c s).queue = s.queue := rfl
@[simp] theorem loadOperands_trace (c : HostCall) (s : State) : (loadOperands c s).trace = s.trace := rfl

/-! ### `acceptRequest` and `placeRequest` -/

@[simp] theorem acceptRequest_params (q : Request) (rest : List Request) (s : State) :
    (acceptRequest q rest s).params = s.params := by cases q <;> rfl
@[simp] theorem acceptRequest_bl (q : Request) (rest : List Request) (s : State) :
    (acceptRequest q rest s).bl = s.bl := by cases q <;> rfl
@[simp] theorem acceptRequest_portBound (q : Request) (rest : List Request) (s : State) :
    (acceptRequest q rest s).portBound = s.portBound := by cases q <;> rfl
@[simp] theorem acceptRequest_busy (q : Request) (rest : List Request) (s : State) :
    (acceptRequest q rest s).busy = s.busy := by cases q <;> rfl
@[simp] theorem acceptRequest_row (q : Request) (rest : List Request) (s : State) :
    (acceptRequest q rest s).row = s.row := by cases q <;> rfl
@[simp] theorem acceptRequest_col (q : Request) (rest : List Request) (s : State) :
    (acceptRequest q rest s).col = s.col := by cases q <;> rfl
@[simp] theorem acceptRequest_idx (q : Request) (rest : List Request) (s : State) :
    (acceptRequest q rest s).idx = s.idx := by cases q <;> rfl
@[simp] theorem acceptRequest_initStep (q : Request) (rest : List Request) (s : State) :
    (acceptRequest q rest s).initStep = s.initStep := by cases q <;> rfl
@[simp] theorem acceptRequest_buf (q : Request) (rest : List Request) (s : State) :
    (acceptRequest q rest s).buf = s.buf := by cases q <;> rfl
@[simp] theorem acceptRequest_status (q : Request) (rest : List Request) (s : State) :
    (acceptRequest q rest s).status = s.status := by cases q <;> rfl
@[simp] theorem acceptRequest_pending (q : Request) (rest : List Request) (s : State) :
    (acceptRequest q rest s).pending = s.pending := by cases q <;> rfl
@[simp] theorem acceptRequest_answers (q : Request) (rest : List Request) (s : State) :
    (acceptRequest q rest s).answers = s.answers := by cases q <;> rfl
@[simp] theorem acceptRequest_delayReturns (q : Request) (rest : List Request) (s : State) :
    (acceptRequest q rest s).delayReturns = s.delayReturns := by cases q <;> rfl
@[simp] theorem acceptRequest_queue (q : Request) (rest : List Request) (s : State) :
    (acceptRequest q rest s).queue = rest := by cases q <;> rfl
@[simp] theorem acceptRequest_trace (q : Request) (rest : List Request) (s : State) :
    (acceptRequest q rest s).trace = s.trace := by cases q <;> rfl
@[simp] theorem placeRequest_params (e : Encoding) (s : State) : (placeRequest e s).params = s.params := rfl
@[simp] theorem placeRequest_bl (e : Encoding) (s : State) : (placeRequest e s).bl = s.bl := rfl
@[simp] theorem placeRequest_portBound (e : Encoding) (s : State) : (placeRequest e s).portBound = s.portBound := rfl
@[simp] theorem placeRequest_busy (e : Encoding) (s : State) : (placeRequest e s).busy = false := rfl
@[simp] theorem placeRequest_row (e : Encoding) (s : State) : (placeRequest e s).row = s.row := rfl
@[simp] theorem placeRequest_col (e : Encoding) (s : State) : (placeRequest e s).col = s.col := rfl
@[simp] theorem placeRequest_idx (e : Encoding) (s : State) : (placeRequest e s).idx = s.idx := rfl
@[simp] theorem placeRequest_initStep (e : Encoding) (s : State) : (placeRequest e s).initStep = s.initStep := rfl
@[simp] theorem placeRequest_buf (e : Encoding) (s : State) : (placeRequest e s).buf = s.buf := rfl
@[simp] theorem placeRequest_status (e : Encoding) (s : State) : (placeRequest e s).status = s.status := rfl
@[simp] theorem placeRequest_pending (e : Encoding) (s : State) : (placeRequest e s).pending = [] := rfl
@[simp] theorem placeRequest_text (e : Encoding) (s : State) : (placeRequest e s).text = s.text := rfl
@[simp] theorem placeRequest_fmt (e : Encoding) (s : State) : (placeRequest e s).fmt = s.fmt := rfl
@[simp] theorem placeRequest_num (e : Encoding) (s : State) : (placeRequest e s).num = s.num := rfl
@[simp] theorem placeRequest_answers (e : Encoding) (s : State) : (placeRequest e s).answers = s.answers := rfl
@[simp] theorem placeRequest_delayReturns (e : Encoding) (s : State) : (placeRequest e s).delayReturns = s.delayReturns := rfl
@[simp] theorem placeRequest_queue (e : Encoding) (s : State) : (placeRequest e s).queue = requestOf e s :: s.queue := rfl
@[simp] theorem placeRequest_trace (e : Encoding) (s : State) : (placeRequest e s).trace = s.trace := rfl

/-! ### `succeeded` -/

@[simp] theorem succeeded_params (ev : List PortEvent) (n d : Nat) (s : State) :
    (succeeded ev n d s).params = s.params := rfl
@[simp] theorem succeeded_bl (ev : List PortEvent) (n d : Nat) (s : State) :
    (succeeded ev n d s).bl = s.bl := rfl
@[simp] theorem succeeded_portBound (ev : List PortEvent) (n d : Nat) (s : State) :
    (succeeded ev n d s).portBound = s.portBound := rfl
@[simp] theorem succeeded_busy (ev : List PortEvent) (n d : Nat) (s : State) :
    (succeeded ev n d s).busy = false := rfl
@[simp] theorem succeeded_row (ev : List PortEvent) (n d : Nat) (s : State) :
    (succeeded ev n d s).row = s.row := rfl
@[simp] theorem succeeded_col (ev : List PortEvent) (n d : Nat) (s : State) :
    (succeeded ev n d s).col = s.col := rfl
@[simp] theorem succeeded_idx (ev : List PortEvent) (n d : Nat) (s : State) :
    (succeeded ev n d s).idx = s.idx := rfl
@[simp] theorem succeeded_initStep (ev : List PortEvent) (n d : Nat) (s : State) :
    (succeeded ev n d s).initStep = s.initStep := rfl
@[simp] theorem succeeded_buf (ev : List PortEvent) (n d : Nat) (s : State) :
    (succeeded ev n d s).buf = s.buf := rfl
@[simp] theorem succeeded_status (ev : List PortEvent) (n d : Nat) (s : State) :
    (succeeded ev n d s).status = some .ok := rfl
@[simp] theorem succeeded_pending (ev : List PortEvent) (n d : Nat) (s : State) :
    (succeeded ev n d s).pending = [] := rfl
@[simp] theorem succeeded_text (ev : List PortEvent) (n d : Nat) (s : State) :
    (succeeded ev n d s).text = s.text := rfl
@[simp] theorem succeeded_fmt (ev : List PortEvent) (n d : Nat) (s : State) :
    (succeeded ev n d s).fmt = s.fmt := rfl
@[simp] theorem succeeded_num (ev : List PortEvent) (n d : Nat) (s : State) :
    (succeeded ev n d s).num = s.num := rfl
@[simp] theorem succeeded_answers (ev : List PortEvent) (n d : Nat) (s : State) :
    (succeeded ev n d s).answers = s.answers.drop n := rfl
@[simp] theorem succeeded_delayReturns (ev : List PortEvent) (n d : Nat) (s : State) :
    (succeeded ev n d s).delayReturns = s.delayReturns - d := rfl
@[simp] theorem succeeded_queue (ev : List PortEvent) (n d : Nat) (s : State) :
    (succeeded ev n d s).queue = s.queue := rfl
@[simp] theorem succeeded_trace (ev : List PortEvent) (n d : Nat) (s : State) :
    (succeeded ev n d s).trace = s.trace ++ ev := rfl

end Sys2Proof.Machine
end

