-- ==== Sys2Proof/Laws/Run.lean ====
section
/-!
SUPPORT. Everything a list of actions can do, said once: what one action does, how a run ends, and what state a run
that succeeds leaves.
-/
namespace Sys2Proof.Machine

open Sys2Proof

/-! ### One action -/

/-- The state one action leaves when it succeeds. -/
def afterAction (a : Action) (s : State) : State :=
  match a with
  | .bindPort => { s with portBound := true }
  | .portInit => { s with answers := s.answers.tail, trace := s.trace ++ [.portInit true] }
  | .write b _ => { s with answers := s.answers.tail, trace := s.trace ++ [.write b true] }
  | .delay n => { s with delayReturns := s.delayReturns - 1, trace := s.trace ++ [.delay n] }
  | .setStep n => { s with initStep := n }
  | .setRow r => { s with row := r }
  | .setCol c => { s with col := c }
  | .setIdx i => { s with idx := i }
  | .raise _ => s

/-- The port events of one action that succeeds. -/
def actionEvents (a : Action) : List PortEvent :=
  match a with
  | .portInit => [.portInit true]
  | .write b _ => [.write b true]
  | .delay n => [.delay n]
  | .bindPort | .setStep _ | .setRow _ | .setCol _ | .setIdx _ | .raise _ => []

/-- How many answers one action takes from the port. -/
def actionAnswers (a : Action) : Nat :=
  match a with
  | .portInit | .write _ _ => 1
  | .delay _ | .bindPort | .setStep _ | .setRow _ | .setCol _ | .setIdx _ | .raise _ => 0

/-- How many delays one action asks for. -/
def actionDelays (a : Action) : Nat :=
  match a with
  | .delay _ => 1
  | .portInit | .write _ _ | .bindPort | .setStep _ | .setRow _ | .setCol _ | .setIdx _ | .raise _ => 0

/-- Everything `requestAnswer` can do. -/
theorem requestAnswer_cases (event : Bool → PortEvent) (cause : FailCause) (s : State) :
    (s.portBound = false ∧ requestAnswer event cause s = .refuse .portNotBound) ∨
    (s.portBound = true ∧ s.answers = [] ∧ requestAnswer event cause s = .wait) ∨
    (∃ rest, s.portBound = true ∧ s.answers = true :: rest ∧ requestAnswer event cause s =
      .next { s with answers := rest, trace := s.trace ++ [event true] }) ∨
    (∃ rest, s.portBound = true ∧ s.answers = false :: rest ∧ requestAnswer event cause s =
      .fail cause { s with answers := rest, trace := s.trace ++ [event false] }) := by
  cases hb : s.portBound with
  | false => exact .inl ⟨rfl, by simp [requestAnswer, hb]⟩
  | true =>
    rcases ha : s.answers with _ | ⟨r, rest⟩
    · exact .inr (.inl ⟨rfl, rfl, by simp [requestAnswer, hb, ha]⟩)
    · cases r
      · exact .inr (.inr (.inr ⟨rest, rfl, rfl, by simp [requestAnswer, hb, ha]⟩))
      · exact .inr (.inr (.inl ⟨rest, rfl, rfl, by simp [requestAnswer, hb, ha]⟩))

/-- Everything `portDelay` can do: it never fails (R123). -/
theorem portDelay_cases (n : Nat) (s : State) :
    (s.portBound = false ∧ portDelay n s = .refuse .portNotBound) ∨
    (s.portBound = true ∧ s.delayReturns = 0 ∧ portDelay n s = .wait) ∨
    (s.portBound = true ∧ 1 ≤ s.delayReturns ∧ portDelay n s =
      .next { s with delayReturns := s.delayReturns - 1, trace := s.trace ++ [.delay n] }) := by
  cases hb : s.portBound with
  | false => exact .inl ⟨rfl, by simp [portDelay, hb]⟩
  | true =>
    rcases hd : s.delayReturns with _ | k
    · exact .inr (.inl ⟨rfl, rfl, by simp [portDelay, hb, hd]⟩)
    · exact .inr (.inr ⟨rfl, by omega, by simp [portDelay, hb, hd]⟩)

/-- An action that succeeds leaves `afterAction`, and the port served it. -/
theorem act_next {a : Action} {s s' : State} (h : act a s = .next s') :
    s' = afterAction a s ∧ PortServes (actionAnswers a) (actionDelays a) s := by
  cases a with
  | portInit =>
    rcases requestAnswer_cases .portInit .portInit s with ⟨_, e⟩ | ⟨_, _, e⟩ | ⟨rest, _, ha, e⟩ | ⟨_, _, _, e⟩ <;>
      simp only [act, portInit, e, reduceCtorEq, ActResult.next.injEq] at h
    subst h; simp [afterAction, actionAnswers, actionDelays, PortServes, ha]
  | write b c =>
    rcases requestAnswer_cases (.write b) c s with ⟨_, e⟩ | ⟨_, _, e⟩ | ⟨rest, _, ha, e⟩ | ⟨_, _, _, e⟩ <;>
      simp only [act, portWrite, e, reduceCtorEq, ActResult.next.injEq] at h
    subst h; simp [afterAction, actionAnswers, actionDelays, PortServes, ha]
  | delay n =>
    rcases portDelay_cases n s with ⟨_, e⟩ | ⟨_, _, e⟩ | ⟨_, hd, e⟩ <;>
      simp only [act, e, reduceCtorEq, ActResult.next.injEq] at h
    subst h; simp [afterAction, actionAnswers, actionDelays, PortServes, hd]
  | bindPort | setStep | setRow | setCol | setIdx =>
    simp only [act, ActResult.next.injEq] at h
    subst h; simp [afterAction, actionAnswers, actionDelays, PortServes]
  | raise c => simp [act] at h

/-- An action that the port serves succeeds. -/
theorem act_of_serves {a : Action} {s : State} (hr : ∀ c, a ≠ .raise c)
    (hb : a = .bindPort ∨ s.portBound = true) (hp : PortServes (actionAnswers a) (actionDelays a) s) :
    act a s = .next (afterAction a s) := by
  obtain ⟨hn, ht, hd⟩ := hp
  cases a with
  | portInit =>
    have hb : s.portBound = true := by simpa using hb
    rcases ha : s.answers with _ | ⟨r, rest⟩
    · simp [ha, actionAnswers] at hn
    · have hr : r = true := ht r (by simp [ha, actionAnswers])
      subst hr; simp [act, portInit, requestAnswer, hb, ha, afterAction]
  | write b c =>
    have hb : s.portBound = true := by simpa using hb
    rcases ha : s.answers with _ | ⟨r, rest⟩
    · simp [ha, actionAnswers] at hn
    · have hr : r = true := ht r (by simp [ha, actionAnswers])
      subst hr; simp [act, portWrite, requestAnswer, hb, ha, afterAction]
  | delay n =>
    have hb : s.portBound = true := by simpa using hb
    rcases hk : s.delayReturns with _ | k
    · simp [hk, actionDelays] at hd
    · simp [act, portDelay, hb, hk, afterAction]
  | bindPort | setStep | setRow | setCol | setIdx => rfl
  | raise c => exact absurd rfl (hr c)

/-- An action that fails: a request answered false, whose event is appended, or `raise`. -/
theorem act_fail {a : Action} {s s' : State} {cause : FailCause} (h : act a s = .fail cause s') :
    (a = .raise cause ∧ s' = s) ∨
    (∃ e rest, eventFailed e = true ∧ s.answers = false :: rest ∧
      s' = { s with answers := rest, trace := s.trace ++ [e] }) := by
  cases a with
  | portInit =>
    rcases requestAnswer_cases .portInit .portInit s with ⟨_, e⟩ | ⟨_, _, e⟩ | ⟨_, _, _, e⟩ | ⟨rest, _, ha, e⟩ <;>
      simp only [act, portInit, e, reduceCtorEq, ActResult.fail.injEq] at h
    exact .inr ⟨_, rest, rfl, ha, h.2.symm⟩
  | write b c =>
    rcases requestAnswer_cases (.write b) c s with ⟨_, e⟩ | ⟨_, _, e⟩ | ⟨_, _, _, e⟩ | ⟨rest, _, ha, e⟩ <;>
      simp only [act, portWrite, e, reduceCtorEq, ActResult.fail.injEq] at h
    exact .inr ⟨_, rest, rfl, ha, h.2.symm⟩
  | delay n =>
    rcases portDelay_cases n s with ⟨_, e⟩ | ⟨_, _, e⟩ | ⟨_, _, e⟩ <;> simp [act, e] at h
  | bindPort | setStep | setRow | setCol | setIdx => simp [act] at h
  | raise c => simp only [act, ActResult.fail.injEq] at h; exact .inl ⟨by rw [h.1], h.2.symm⟩

/-- An action waits only for a port that has not answered (R259). -/
theorem act_wait {a : Action} {s : State} (h : act a s = .wait) :
    s.portBound = true ∧
      ((actionAnswers a = 1 ∧ s.answers = []) ∨ (actionDelays a = 1 ∧ s.delayReturns = 0)) := by
  cases a with
  | portInit =>
    rcases requestAnswer_cases .portInit .portInit s with ⟨_, e⟩ | ⟨hb, ha, e⟩ | ⟨_, _, _, e⟩ | ⟨_, _, _, e⟩ <;>
      simp only [act, portInit, e, reduceCtorEq] at h
    exact ⟨hb, .inl ⟨rfl, ha⟩⟩
  | write b c =>
    rcases requestAnswer_cases (.write b) c s with ⟨_, e⟩ | ⟨hb, ha, e⟩ | ⟨_, _, _, e⟩ | ⟨_, _, _, e⟩ <;>
      simp only [act, portWrite, e, reduceCtorEq] at h
    exact ⟨hb, .inl ⟨rfl, ha⟩⟩
  | delay n =>
    rcases portDelay_cases n s with ⟨_, e⟩ | ⟨hb, hd, e⟩ | ⟨_, _, e⟩ <;> simp only [act, e, reduceCtorEq] at h
    exact ⟨hb, .inr ⟨rfl, hd⟩⟩
  | bindPort | setStep | setRow | setCol | setIdx | raise => simp [act] at h

/-- An action is refused only while PORT_BOUND = 0 (R22). -/
theorem act_refuse {a : Action} {s : State} {r : Refusal} (h : act a s = .refuse r) :
    s.portBound = false ∧ r = .portNotBound := by
  cases a with
  | portInit =>
    rcases requestAnswer_cases .portInit .portInit s with ⟨hb, e⟩ | ⟨_, _, e⟩ | ⟨_, _, _, e⟩ | ⟨_, _, _, e⟩ <;>
      simp only [act, portInit, e, reduceCtorEq, ActResult.refuse.injEq] at h
    exact ⟨hb, h.symm⟩
  | write b c =>
    rcases requestAnswer_cases (.write b) c s with ⟨hb, e⟩ | ⟨_, _, e⟩ | ⟨_, _, _, e⟩ | ⟨_, _, _, e⟩ <;>
      simp only [act, portWrite, e, reduceCtorEq, ActResult.refuse.injEq] at h
    exact ⟨hb, h.symm⟩
  | delay n =>
    rcases portDelay_cases n s with ⟨hb, e⟩ | ⟨_, _, e⟩ | ⟨_, _, e⟩ <;>
      simp only [act, e, reduceCtorEq, ActResult.refuse.injEq] at h
    exact ⟨hb, h.symm⟩
  | bindPort | setStep | setRow | setCol | setIdx | raise => simp [act] at h

/-! ### A list of actions -/

/-- The state a list of actions leaves when all of them succeed. -/
def afterActions (actions : List Action) (s : State) : State := actions.foldl (fun s a => afterAction a s) s

/-- The port events of a list of actions that all succeed. -/
def successEvents (actions : List Action) : List PortEvent := actions.flatMap actionEvents

/-- How many answers a list of actions takes from the port. -/
def answersNeeded (actions : List Action) : Nat := (actions.map actionAnswers).sum

/-- How many delays a list of actions asks for. -/
def delaysNeeded (actions : List Action) : Nat := (actions.map actionDelays).sum

@[simp] theorem afterActions_nil (s : State) : afterActions [] s = s := rfl
@[simp] theorem afterActions_cons (a : Action) (rest : List Action) (s : State) :
    afterActions (a :: rest) s = afterActions rest (afterAction a s) := rfl
@[simp] theorem afterActions_append (xs ys : List Action) (s : State) :
    afterActions (xs ++ ys) s = afterActions ys (afterActions xs s) := by simp [afterActions]
@[simp] theorem successEvents_nil : successEvents [] = [] := rfl
@[simp] theorem successEvents_cons (a : Action) (rest : List Action) :
    successEvents (a :: rest) = actionEvents a ++ successEvents rest := rfl
@[simp] theorem successEvents_append (xs ys : List Action) :
    successEvents (xs ++ ys) = successEvents xs ++ successEvents ys := by simp [successEvents]
@[simp] theorem answersNeeded_nil : answersNeeded [] = 0 := rfl
@[simp] theorem answersNeeded_cons (a : Action) (rest : List Action) :
    answersNeeded (a :: rest) = actionAnswers a + answersNeeded rest := rfl
@[simp] theorem answersNeeded_append (xs ys : List Action) :
    answersNeeded (xs ++ ys) = answersNeeded xs + answersNeeded ys := by simp [answersNeeded]
@[simp] theorem delaysNeeded_nil : delaysNeeded [] = 0 := rfl
@[simp] theorem delaysNeeded_cons (a : Action) (rest : List Action) :
    delaysNeeded (a :: rest) = actionDelays a + delaysNeeded rest := rfl
@[simp] theorem delaysNeeded_append (xs ys : List Action) :
    delaysNeeded (xs ++ ys) = delaysNeeded xs + delaysNeeded ys := by simp [delaysNeeded]

/-- One successful action adds its events to the trace. -/
theorem afterAction_trace (a : Action) (s : State) : (afterAction a s).trace = s.trace ++ actionEvents a := by
  cases a <;> simp [afterAction, actionEvents]

theorem afterAction_answers (a : Action) (s : State) :
    (afterAction a s).answers = s.answers.drop (actionAnswers a) := by
  cases a <;> simp [afterAction, actionAnswers]

theorem afterAction_delayReturns (a : Action) (s : State) :
    (afterAction a s).delayReturns = s.delayReturns - actionDelays a := by
  cases a <;> simp [afterAction, actionDelays]

@[simp] theorem afterActions_trace (actions : List Action) (s : State) :
    (afterActions actions s).trace = s.trace ++ successEvents actions := by
  induction actions generalizing s with
  | nil => simp
  | cons a rest ih => simp [ih, afterAction_trace]

@[simp] theorem afterActions_answers (actions : List Action) (s : State) :
    (afterActions actions s).answers = s.answers.drop (answersNeeded actions) := by
  induction actions generalizing s with
  | nil => simp
  | cons a rest ih => simp [ih, afterAction_answers]

@[simp] theorem afterActions_delayReturns (actions : List Action) (s : State) :
    (afterActions actions s).delayReturns = s.delayReturns - delaysNeeded actions := by
  induction actions generalizing s with
  | nil => simp
  | cons a rest ih => simp [ih, afterAction_delayReturns]; omega

/-- The frame of a successful list of actions: it writes no parameter, no BL, no BUF, no operand, no request and
nothing that belongs to delivering a STATUS. -/
theorem afterActions_frame (actions : List Action) (s : State) :
    afterActions actions s = { s with
      portBound := (afterActions actions s).portBound, row := (afterActions actions s).row,
      col := (afterActions actions s).col, idx := (afterActions actions s).idx,
      initStep := (afterActions actions s).initStep, answers := (afterActions actions s).answers,
      delayReturns := (afterActions actions s).delayReturns, trace := (afterActions actions s).trace } := by
  induction actions generalizing s with
  | nil => rfl
  | cons a rest ih =>
    rw [afterActions_cons, ih]
    cases a <;> rfl

/-- PORT_BOUND is never cleared (R22). -/
theorem afterActions_portBound {actions : List Action} {s : State} (h : s.portBound = true) :
    (afterActions actions s).portBound = true := by
  induction actions generalizing s with
  | nil => exact h
  | cons a rest ih => exact ih (by cases a <;> simp [afterAction, h])

@[simp] theorem run_nil (s : State) : run [] s = .done s := rfl

/-- Running a list that is two lists in a row. -/
theorem run_append (xs ys : List Action) (s : State) :
    run (xs ++ ys) s =
      match run xs s with
      | .done s' => run ys s'
      | .failed cause s' => .failed cause s'
      | .waiting rest s' => .waiting (rest ++ ys) s'
      | .refused r => .refused r := by
  induction xs generalizing s with
  | nil => rfl
  | cons a rest ih =>
    simp only [List.cons_append, run]
    cases act a s with
    | next s' => exact ih s'
    | fail c s' => rfl
    | wait => rfl
    | refuse r => rfl

/-- A run that is done left `afterActions`, and the port served all of it. -/
theorem run_done {actions : List Action} {s s' : State} (h : run actions s = .done s') :
    s' = afterActions actions s ∧ PortServes (answersNeeded actions) (delaysNeeded actions) s := by
  induction actions generalizing s with
  | nil => simp only [run_nil, RunResult.done.injEq] at h; subst h; simp [PortServes]
  | cons a rest ih =>
    simp only [run] at h
    split at h
    · next s1 ha =>
      obtain ⟨rfl, hn, ht, hd⟩ := act_next ha
      obtain ⟨rfl, hn', ht', hd'⟩ := ih h
      rw [afterAction_answers] at hn' ht'
      rw [afterAction_delayReturns] at hd'
      rw [List.length_drop] at hn'
      refine ⟨rfl, by simp only [answersNeeded_cons]; omega, ?_, by simp only [delaysNeeded_cons]; omega⟩
      intro r hr
      rw [answersNeeded_cons, List.take_add] at hr
      rcases List.mem_append.mp hr with hr | hr
      · exact ht r hr
      · exact ht' r hr
    all_goals simp at h

/-- A list of actions that raises nothing, run on a bound port that serves it, is done. -/
theorem run_of_serves {actions : List Action} {s : State} (hr : ∀ c, Action.raise c ∉ actions)
    (hb : s.portBound = true) (hp : PortServes (answersNeeded actions) (delaysNeeded actions) s) :
    run actions s = .done (afterActions actions s) := by
  induction actions generalizing s with
  | nil => rfl
  | cons a rest ih =>
    obtain ⟨hn, ht, hd⟩ := hp
    simp only [answersNeeded_cons, delaysNeeded_cons] at hn ht hd
    have ha : act a s = .next (afterAction a s) := by
      refine act_of_serves (fun c hc => hr c (by simp [hc])) (.inr hb) ⟨by omega, fun r hr => ht r ?_, by omega⟩
      rw [List.take_add]; exact List.mem_append_left _ hr
    simp only [run, ha, afterActions_cons]
    refine ih (fun c hc => hr c (by simp [hc])) (by cases a <;> simp [afterAction, hb]) ⟨?_, ?_, ?_⟩
    · rw [afterAction_answers, List.length_drop]; omega
    · intro r hr
      rw [afterAction_answers] at hr
      refine ht r ?_
      rw [List.take_add]; exact List.mem_append_right _ hr
    · rw [afterAction_delayReturns]; omega

/-- Every way a run can end: all done, or stopped at one action after the ones before it were done. -/
theorem run_cases (actions : List Action) (s : State) :
    (run actions s = .done (afterActions actions s)) ∨
    (∃ pre a post cause s', actions = pre ++ a :: post ∧ run pre s = .done (afterActions pre s) ∧
      act a (afterActions pre s) = .fail cause s' ∧ run actions s = .failed cause s') ∨
    (∃ pre a post, actions = pre ++ a :: post ∧ run pre s = .done (afterActions pre s) ∧
      act a (afterActions pre s) = .wait ∧ run actions s = .waiting (a :: post) (afterActions pre s)) ∨
    (∃ pre a post r, actions = pre ++ a :: post ∧ run pre s = .done (afterActions pre s) ∧
      act a (afterActions pre s) = .refuse r ∧ run actions s = .refused r) := by
  induction actions generalizing s with
  | nil => exact .inl rfl
  | cons a rest ih =>
    cases ha : act a s with
    | next s1 =>
      obtain ⟨rfl, -⟩ := act_next ha
      have hrun : run (a :: rest) s = run rest (afterAction a s) := by simp [run, ha]
      have hpre : ∀ pre, run pre (afterAction a s) = .done (afterActions pre (afterAction a s)) →
          run (a :: pre) s = .done (afterActions (a :: pre) s) := fun pre h => by simp [run, ha, h]
      rcases ih (afterAction a s) with h | ⟨pre, b, post, c, s', rfl, h1, h2, h3⟩ | ⟨pre, b, post, rfl, h1, h2, h3⟩ |
        ⟨pre, b, post, r, rfl, h1, h2, h3⟩
      · exact .inl (by rw [hrun, h]; rfl)
      · exact .inr (.inl ⟨a :: pre, b, post, c, s', rfl, hpre pre h1, h2, by rw [hrun, h3]⟩)
      · exact .inr (.inr (.inl ⟨a :: pre, b, post, rfl, hpre pre h1, h2, by rw [hrun, h3]; rfl⟩))
      · exact .inr (.inr (.inr ⟨a :: pre, b, post, r, rfl, hpre pre h1, h2, by rw [hrun, h3]⟩))
    | fail c s' => exact .inr (.inl ⟨[], a, rest, c, s', rfl, rfl, ha, by simp [run, ha]⟩)
    | wait => exact .inr (.inr (.inl ⟨[], a, rest, rfl, rfl, ha, by simp [run, ha]⟩))
    | refuse r => exact .inr (.inr (.inr ⟨[], a, rest, r, rfl, rfl, ha, by simp [run, ha]⟩))

/-! ### Finishing -/

/-- Every cause surfaces as FAIL (R240). -/
@[simp] theorem causeStatus_eq (cause : FailCause) : causeStatus cause = .fail := by cases cause <;> rfl

@[simp] theorem finish_done (s : State) : finish (.done s) = .next (deliver .ok s) := rfl
@[simp] theorem finish_failed (cause : FailCause) (s : State) :
    finish (.failed cause s) = .next (deliver .fail s) := by simp [finish]
@[simp] theorem finish_waiting (rest : List Action) (s : State) :
    finish (.waiting rest s) = .next (waitForPort rest s) := rfl
@[simp] theorem finish_refused (r : Refusal) : finish (.refused r) = .refused r := rfl

/-! ### Two runs beside one another -/

/-- A relation between states that no action can see or break: related states have the same port, and stay related
when an action succeeds or a request is answered false. -/
structure Unseen (R : State → State → Prop) : Prop where
  bound : ∀ s s', R s s' → s'.portBound = s.portBound
  answers : ∀ s s', R s s' → s'.answers = s.answers
  delays : ∀ s s', R s s' → s'.delayReturns = s.delayReturns
  after : ∀ s s' a, R s s' → R (afterAction a s) (afterAction a s')
  failed : ∀ s s' e rest, R s s' →
    R { s with answers := rest, trace := s.trace ++ [e] } { s' with answers := rest, trace := s'.trace ++ [e] }

/-- Two results that end in the same way, in related states. -/
inductive SameResult (R : State → State → Prop) : RunResult → RunResult → Prop where
  | done {s s' : State} (h : R s s') : SameResult R (.done s) (.done s')
  | failed {s s' : State} (cause : FailCause) (h : R s s') : SameResult R (.failed cause s) (.failed cause s')
  | waiting {s s' : State} (rest : List Action) (h : R s s') : SameResult R (.waiting rest s) (.waiting rest s')
  | refused (r : Refusal) : SameResult R (.refused r) (.refused r)

/-- A successful action leaves `afterAction` of the state, so two related states go on in step. -/
theorem Unseen.act_eq {R : State → State → Prop} (hR : Unseen R) {s s' : State} (h : R s s') (a : Action) :
    (act a s = .next (afterAction a s) ∧ act a s' = .next (afterAction a s')) ∨
    (∃ cause t t', act a s = .fail cause t ∧ act a s' = .fail cause t' ∧ R t t') ∨
    (act a s = .wait ∧ act a s' = .wait) ∨ (∃ r, act a s = .refuse r ∧ act a s' = .refuse r) := by
  have hb := hR.bound s s' h
  have ha := hR.answers s s' h
  have hd := hR.delays s s' h
  have req : ∀ (event : Bool → PortEvent) (cause : FailCause),
      (requestAnswer event cause s = .next { s with answers := s.answers.tail, trace := s.trace ++ [event true] } ∧
        requestAnswer event cause s' =
          .next { s' with answers := s'.answers.tail, trace := s'.trace ++ [event true] }) ∨
      (∃ t t', requestAnswer event cause s = .fail cause t ∧ requestAnswer event cause s' = .fail cause t' ∧ R t t') ∨
      (requestAnswer event cause s = .wait ∧ requestAnswer event cause s' = .wait) ∨
      (∃ r, requestAnswer event cause s = .refuse r ∧ requestAnswer event cause s' = .refuse r) := by
    intro event cause
    rcases requestAnswer_cases event cause s with ⟨h1, e⟩ | ⟨h1, h2, e⟩ | ⟨rest, h1, h2, e⟩ | ⟨rest, h1, h2, e⟩
    · exact .inr (.inr (.inr ⟨_, e, by simp [requestAnswer, hb, h1]⟩))
    · exact .inr (.inr (.inl ⟨e, by simp [requestAnswer, hb, ha, h1, h2]⟩))
    · exact .inl ⟨by rw [e, h2]; rfl, by simp [requestAnswer, hb, ha, h1, h2]⟩
    · exact .inr (.inl ⟨_, _, e, by simp [requestAnswer, hb, ha, h1, h2], hR.failed s s' _ rest h⟩)
  cases a with
  | portInit =>
    rcases req .portInit .portInit with h | ⟨t, t', h1, h2, h3⟩ | h | h
    · exact .inl h
    · exact .inr (.inl ⟨_, t, t', h1, h2, h3⟩)
    · exact .inr (.inr (.inl h))
    · exact .inr (.inr (.inr h))
  | write b cause =>
    rcases req (.write b) cause with h | ⟨t, t', h1, h2, h3⟩ | h | h
    · exact .inl h
    · exact .inr (.inl ⟨_, t, t', h1, h2, h3⟩)
    · exact .inr (.inr (.inl h))
    · exact .inr (.inr (.inr h))
  | delay n =>
    rcases portDelay_cases n s with ⟨h1, e⟩ | ⟨h1, h2, e⟩ | ⟨h1, h2, e⟩
    · exact .inr (.inr (.inr ⟨_, e, by simp [act, portDelay, hb, h1]⟩))
    · exact .inr (.inr (.inl ⟨e, by simp [act, portDelay, hb, hd, h1, h2]⟩))
    · obtain ⟨k, hk⟩ := Nat.exists_eq_add_of_le' h2
      exact .inl ⟨e, by simp [act, portDelay, hb, hd, h1, hk, afterAction]⟩
  | bindPort | setStep | setRow | setCol | setIdx => exact .inl ⟨rfl, rfl⟩
  | raise cause => exact .inr (.inl ⟨cause, s, s', rfl, rfl, h⟩)

/-- Runs from related states end in the same way, in related states. -/
theorem run_related {R : State → State → Prop} (hR : Unseen R) (actions : List Action) {s s' : State} (h : R s s') :
    SameResult R (run actions s) (run actions s') := by
  induction actions generalizing s s' with
  | nil => exact .done h
  | cons a rest ih =>
    rcases hR.act_eq h a with ⟨e, e'⟩ | ⟨cause, t, t', e, e', ht⟩ | ⟨e, e'⟩ | ⟨r, e, e'⟩
    · simp only [run, e, e']; exact ih (hR.after s s' a h)
    · simp only [run, e, e']; exact .failed cause ht
    · simp only [run, e, e']; exact .waiting _ h
    · simp only [run, e, e']; exact .refused r

/-- Two states that differ only in what finishing an operation overwrites: STATUS, BUSY and the position. -/
def SameToFinish (s s' : State) : Prop :=
  s' = { s with status := s'.status, busy := s'.busy, pending := s'.pending }

theorem unseen_sameToFinish : Unseen SameToFinish where
  bound s s' h := by rw [h]
  answers s s' h := by rw [h]
  delays s s' h := by rw [h]
  after s s' a h := by rw [h]; cases a <;> rfl
  failed s s' e rest h := by rw [h]; rfl

/-- How an operation ends does not depend on the STATUS, BUSY and position that stood before it. -/
theorem finish_run_congr (actions : List Action) {s s' : State} (h : SameToFinish s s') :
    finish (run actions s) = finish (run actions s') := by
  generalize hx : run actions s = x
  generalize hy : run actions s' = y
  have hxy : SameResult SameToFinish x y := by rw [← hx, ← hy]; exact run_related unseen_sameToFinish actions h
  cases hxy with
  | done h => rw [h]; rfl
  | failed cause h => rw [h, finish_failed, finish_failed]; rfl
  | waiting rest h => rw [h]; rfl
  | refused r => rfl

/-! ### More answers later -/

theorem act_portContinues_next {a : Action} {s s' : State} (h : act a s = .next s') (more : List Bool) (d : Nat) :
    act a (portContinues more d s) = .next (portContinues more d s') := by
  cases a with
  | portInit =>
    rcases requestAnswer_cases .portInit .portInit s with ⟨_, e⟩ | ⟨_, _, e⟩ | ⟨rest, hb, ha, e⟩ | ⟨_, _, _, e⟩ <;>
      simp only [act, portInit, e, reduceCtorEq, ActResult.next.injEq] at h
    subst h; simp [act, portInit, requestAnswer, portContinues, hb, ha]
  | write b c =>
    rcases requestAnswer_cases (.write b) c s with ⟨_, e⟩ | ⟨_, _, e⟩ | ⟨rest, hb, ha, e⟩ | ⟨_, _, _, e⟩ <;>
      simp only [act, portWrite, e, reduceCtorEq, ActResult.next.injEq] at h
    subst h; simp [act, portWrite, requestAnswer, portContinues, hb, ha]
  | delay n =>
    rcases portDelay_cases n s with ⟨_, e⟩ | ⟨_, _, e⟩ | ⟨hb, hd, e⟩ <;>
      simp only [act, e, reduceCtorEq, ActResult.next.injEq] at h
    subst h
    obtain ⟨k, hk⟩ := Nat.exists_eq_add_of_le' hd
    simp [act, portDelay, portContinues, hb, hk, Nat.add_right_comm k 1 d]
  | bindPort | setStep | setRow | setCol | setIdx =>
    simp only [act, ActResult.next.injEq] at h
    subst h; rfl
  | raise c => simp [act] at h

theorem act_portContinues_fail {a : Action} {s s' : State} {cause : FailCause} (h : act a s = .fail cause s')
    (more : List Bool) (d : Nat) :
    act a (portContinues more d s) = .fail cause (portContinues more d s') := by
  cases a with
  | portInit =>
    rcases requestAnswer_cases .portInit .portInit s with ⟨_, e⟩ | ⟨_, _, e⟩ | ⟨_, _, _, e⟩ | ⟨rest, hb, ha, e⟩ <;>
      simp only [act, portInit, e, reduceCtorEq, ActResult.fail.injEq] at h
    obtain ⟨rfl, rfl⟩ := h; simp [act, portInit, requestAnswer, portContinues, hb, ha]
  | write b c =>
    rcases requestAnswer_cases (.write b) c s with ⟨_, e⟩ | ⟨_, _, e⟩ | ⟨_, _, _, e⟩ | ⟨rest, hb, ha, e⟩ <;>
      simp only [act, portWrite, e, reduceCtorEq, ActResult.fail.injEq] at h
    obtain ⟨rfl, rfl⟩ := h; simp [act, portWrite, requestAnswer, portContinues, hb, ha]
  | delay n =>
    rcases portDelay_cases n s with ⟨_, e⟩ | ⟨_, _, e⟩ | ⟨_, _, e⟩ <;> simp [act, e] at h
  | bindPort | setStep | setRow | setCol | setIdx => simp [act] at h
  | raise c => simp only [act, ActResult.fail.injEq] at h; obtain ⟨rfl, rfl⟩ := h; rfl

/-- A run that is done is done in the same way when the port is ready to answer more. -/
theorem run_portContinues_done {actions : List Action} {s s' : State} (h : run actions s = .done s')
    (more : List Bool) (d : Nat) : run actions (portContinues more d s) = .done (portContinues more d s') := by
  induction actions generalizing s with
  | nil => simp only [run_nil, RunResult.done.injEq] at h; rw [h]; rfl
  | cons a rest ih =>
    simp only [run] at h
    split at h
    · next s1 ha => simp only [run, act_portContinues_next ha]; exact ih h
    all_goals simp at h

/-! ### An operation -/

theorem perform_busy {actions : List Action} {s : State} (h : s.busy = true) :
    perform actions s = .refused .operationInProgress := by simp [perform, h]

theorem perform_idle {actions : List Action} {s : State} (h : s.busy = false) :
    perform actions s = finish (run actions s) := by simp [perform, h]

/-- An operation of a bound, idle LCD4 that raises nothing and that the port serves completes with OK. -/
theorem perform_of_serves {actions : List Action} {s : State} (hr : ∀ c, Action.raise c ∉ actions)
    (hs : Ready s) (hp : PortServes (answersNeeded actions) (delaysNeeded actions) s) :
    perform actions s = .next (deliver .ok (afterActions actions s)) := by
  rw [perform_idle hs.1, run_of_serves hr hs.2 hp, finish_done]

/-- Every next state of an idle LCD4's operation: it succeeded; or one action failed after the ones before it were
done; or it waits at one action. -/
theorem perform_next {actions : List Action} {s t : State} (h : perform actions s = .next t) :
    s.busy = false ∧
    ((run actions s = .done (afterActions actions s) ∧ t = deliver .ok (afterActions actions s)) ∨
     (∃ pre a post cause s', actions = pre ++ a :: post ∧ run pre s = .done (afterActions pre s) ∧
        act a (afterActions pre s) = .fail cause s' ∧ t = deliver .fail s') ∨
     (∃ pre a post, actions = pre ++ a :: post ∧ run pre s = .done (afterActions pre s) ∧
        act a (afterActions pre s) = .wait ∧ t = waitForPort (a :: post) (afterActions pre s))) := by
  cases hb : s.busy with
  | true => simp [perform, hb] at h
  | false =>
    refine ⟨rfl, ?_⟩
    rw [perform_idle hb] at h
    rcases run_cases actions s with e | ⟨pre, a, post, c, s', e1, e2, e3, e⟩ | ⟨pre, a, post, e1, e2, e3, e⟩ |
      ⟨pre, a, post, r, e1, e2, e3, e⟩ <;> rw [e] at h <;> simp at h
    · exact .inl ⟨e, h.symm⟩
    · exact .inr (.inl ⟨pre, a, post, c, s', e1, e2, e3, h.symm⟩)
    · exact .inr (.inr ⟨pre, a, post, e1, e2, e3, h.symm⟩)

end Sys2Proof.Machine
end

