-- ==== Sys2Proof/Laws/Encoder.lean ====
section
/-!
SUPPORT. What the transport layer and the encoder send: their frames in the PORT8 layout, their events, and that
they write no cell.
-/
namespace Sys2Proof.Machine

open Sys2Proof

/-! ### Frames (R81, R86) -/

theorem enMask_eq (p : Config.Params) : enMask p = enableBit p := by
  cases h : p.enPos <;> simp [enMask, enableBit, h, Config.EnPos.toNat]

theorem nibbleFrame_eq (p : Config.Params) (bl : Bit) (v4 : Nibble) (rs : Bit) :
    nibbleFrame p bl v4 rs = frameOf p v4 bl rs := by
  simp only [nibbleFrame, controlBits, frameOf]
  cases p.rsPos <;> (revert bl v4 rs; decide)

theorem highFrame_eq (p : Config.Params) (bl : Bit) (v8 : Byte) (rs : Bit) :
    highFrame p bl v8 rs = frameOf p (v8.extractLsb' 4 4) bl rs := by
  simp only [highFrame, controlBits, frameOf]
  cases p.rsPos <;> (revert bl v8 rs; decide +kernel)

theorem lowFrame_eq (p : Config.Params) (bl : Bit) (v8 : Byte) (rs : Bit) :
    lowFrame p bl v8 rs = frameOf p (v8.extractLsb' 0 4) bl rs := by
  simp only [lowFrame, controlBits, frameOf]
  cases p.rsPos <;> (revert bl v8 rs; decide +kernel)

/-- With the default RS_POS the frame is the PORT8 layout of R84 with EN = 0. -/
theorem frameOf_default {p : Config.Params} (h : p.rsPos = .zero) (d : Nibble) (bl rs : Bit) :
    frameOf p d bl rs = port8 d bl 0 rs := by simp [frameOf, h]

/-- The second write of a strobe pair still carries the nibble and, where the enable bit is another bit, the
register-select: the two can be read back from it. -/
theorem frameOf_clear_inj {p : Config.Params} (h : p.BitsDiffer) {d d' : Nibble} {bl rs rs' : Bit}
    (e : frameOf p d bl rs &&& ~~~ enableBit p = frameOf p d' bl rs' &&& ~~~ enableBit p) : d = d' ∧ rs = rs' := by
  revert d d' bl rs rs'
  simp only [Config.Params.BitsDiffer, frameOf, enableBit] at h ⊢
  cases hr : p.rsPos <;> cases he : p.enPos <;> simp only [hr, he, Config.RsPos.toNat, Config.EnPos.toNat] at h <;>
    first | exact absurd rfl h | decide +kernel

/-- Both writes of the strobe pair of a frame are port bytes of the encoder. -/
theorem byteFramed_frameOf (p : Config.Params) (d : Nibble) (bl rs : Bit) :
    byteFramed p bl (frameOf p d bl rs ||| enableBit p) = true ∧
    byteFramed p bl (frameOf p d bl rs &&& ~~~ enableBit p) = true := by
  revert d bl rs
  simp only [byteFramed, frameOf, enableBit, selectBit]
  cases p.rsPos <;> cases p.enPos <;> decide

/-! ### Lists of port requests -/

/-- A port request, which writes no cell. -/
def isRequest (a : Action) : Bool :=
  match a with
  | .portInit | .write _ _ | .delay _ => true
  | .bindPort | .setStep _ | .setRow _ | .setCol _ | .setIdx _ | .raise _ => false

/-- Port requests that all succeed change only the trace and the port's inputs. -/
theorem afterActions_requests {actions : List Action} (h : ∀ a ∈ actions, isRequest a = true) (s : State) :
    afterActions actions s = { s with
      trace := s.trace ++ successEvents actions, answers := s.answers.drop (answersNeeded actions),
      delayReturns := s.delayReturns - delaysNeeded actions } := by
  rw [← afterActions_trace, ← afterActions_answers, ← afterActions_delayReturns]
  induction actions generalizing s with
  | nil => rfl
  | cons a rest ih =>
    rw [afterActions_cons, ih fun b hb => h b (by simp [hb])]
    have ha := h a (by simp)
    cases a <;> simp_all [isRequest, afterAction]

theorem not_raise_of_requests {actions : List Action} (h : ∀ a ∈ actions, isRequest a = true) :
    ∀ c, Action.raise c ∉ actions := fun c hc => by simpa [isRequest] using h _ hc

/-- An operation made of port requests only, on a bound, idle LCD4 that the port serves: it completes with its events
and changes nothing else. -/
theorem perform_requests {actions : List Action} {s : State} (h : ∀ a ∈ actions, isRequest a = true)
    (hs : Ready s) (hp : PortServes (answersNeeded actions) (delaysNeeded actions) s) :
    perform actions s =
      .next (succeeded (successEvents actions) (answersNeeded actions) (delaysNeeded actions) s) := by
  rw [perform_of_serves (not_raise_of_requests h) hs hp, afterActions_requests h]; rfl

/-! ### SEND_BYTE, SEND_NIBBLE, SEND_MESSAGE -/

theorem requests_sendByte (p : Config.Params) (frame : Byte) :
    ∀ a ∈ sendByteActions p frame, isRequest a = true := by simp [sendByteActions, isRequest]

theorem requests_sendMessage (p : Config.Params) (bl : Bit) (v8 : Byte) (rs : Bit) :
    ∀ a ∈ sendMessageActions p bl v8 rs, isRequest a = true := by
  simp [sendMessageActions, sendByteActions, isRequest]

@[simp] theorem answersNeeded_sendByte (p : Config.Params) (frame : Byte) :
    answersNeeded (sendByteActions p frame) = 2 := rfl
@[simp] theorem delaysNeeded_sendByte (p : Config.Params) (frame : Byte) :
    delaysNeeded (sendByteActions p frame) = 2 := rfl
@[simp] theorem answersNeeded_sendNibble (p : Config.Params) (bl : Bit) (v4 : Nibble) (rs : Bit) :
    answersNeeded (sendNibbleActions p bl v4 rs) = 2 := rfl
@[simp] theorem delaysNeeded_sendNibble (p : Config.Params) (bl : Bit) (v4 : Nibble) (rs : Bit) :
    delaysNeeded (sendNibbleActions p bl v4 rs) = 2 := rfl
@[simp] theorem answersNeeded_sendMessage (p : Config.Params) (bl : Bit) (v8 : Byte) (rs : Bit) :
    answersNeeded (sendMessageActions p bl v8 rs) = 4 := rfl
@[simp] theorem delaysNeeded_sendMessage (p : Config.Params) (bl : Bit) (v8 : Byte) (rs : Bit) :
    delaysNeeded (sendMessageActions p bl v8 rs) = 4 := rfl
@[simp] theorem answersNeeded_sendCommand (p : Config.Params) (bl : Bit) (c : Byte) :
    answersNeeded (sendCommandActions p bl c) = 4 := rfl
@[simp] theorem delaysNeeded_sendCommand (p : Config.Params) (bl : Bit) (c : Byte) :
    delaysNeeded (sendCommandActions p bl c) = 4 := rfl
@[simp] theorem answersNeeded_sendData (p : Config.Params) (bl : Bit) (c : Byte) :
    answersNeeded (sendDataActions p bl c) = 4 := rfl
@[simp] theorem delaysNeeded_sendData (p : Config.Params) (bl : Bit) (c : Byte) :
    delaysNeeded (sendDataActions p bl c) = 4 := rfl

@[simp] theorem successEvents_sendByte (p : Config.Params) (frame : Byte) :
    successEvents (sendByteActions p frame) = frameEvents p frame := by
  simp [sendByteActions, frameEvents, actionEvents, enableSet, enableClear, enMask_eq, Config.tStrobe]

@[simp] theorem successEvents_sendNibble (p : Config.Params) (bl : Bit) (v4 : Nibble) (rs : Bit) :
    successEvents (sendNibbleActions p bl v4 rs) = nibbleEvents p bl v4 rs := by
  simp [sendNibbleActions, nibbleEvents, nibbleFrame_eq]

@[simp] theorem successEvents_sendMessage (p : Config.Params) (bl : Bit) (v8 : Byte) (rs : Bit) :
    successEvents (sendMessageActions p bl v8 rs) = messageEvents p bl v8 rs := by
  simp [sendMessageActions, messageEvents, nibbleEvents, highFrame_eq, lowFrame_eq]

@[simp] theorem successEvents_sendCommand (p : Config.Params) (bl : Bit) (c : Byte) :
    successEvents (sendCommandActions p bl c) = commandEvents p bl c := successEvents_sendMessage p bl c _

@[simp] theorem successEvents_sendData (p : Config.Params) (bl : Bit) (c : Byte) :
    successEvents (sendDataActions p bl c) = dataEvents p bl c := successEvents_sendMessage p bl c _

/-- A message that the port serves. -/
theorem perform_message {s : State} (v8 : Byte) (rs : Bit) (hs : Ready s) (hp : PortServes 4 4 s) :
    perform (sendMessageActions s.params s.bl v8 rs) s = .next (succeeded (messageEvents s.params s.bl v8 rs) 4 4 s) := by
  rw [perform_requests (requests_sendMessage _ _ _ _) hs hp, successEvents_sendMessage]; rfl

/-- The "set DDRAM address" command of an address that fits is 0x80 plus the address (R96 d). -/
theorem ddramCommand_eq {addr : Nat} (h : addr ≤ 0x7F) : ddramCommand addr = BitVec.ofNat 8 (0x80 + addr) := by
  have : ∀ a : Fin 128, ddramCommand a.val = BitVec.ofNat 8 (0x80 + a.val) := by decide
  exact this ⟨addr, by omega⟩

end Sys2Proof.Machine
end

