-- ==== Sys2Proof/Laws/Memory.lean ====
section
/-!
SUPPORT. The laws of BUF's memory: read after write, the canonical form, and what storing a text does.
-/
namespace Sys2Proof.Machine

open Sys2Proof

theorem Memory.wf_nil : Memory.wf [] := by simp [Memory.wf]

theorem Memory.inBuf_nil : Memory.inBuf [] := by simp [Memory.inBuf]

theorem Memory.read_eq_zero_of_lt {m : Memory} {a : Nat} (h : ∀ c ∈ m, a < c.1) : Memory.read m a = 0 := by
  induction m with
  | nil => rfl
  | cons c rest ih =>
    have hc : a < c.1 := h c (by simp)
    simp only [Memory.read, if_neg (show c.1 ≠ a by omega)]
    exact ih fun d hd => h d (by simp [hd])

theorem Memory.mem_write {m : Memory} {a : Nat} {b : Byte} {c : Host.Cell} (h : c ∈ Memory.write m a b) :
    c ∈ m ∨ (c = (a, b) ∧ b ≠ 0) := by
  induction m with
  | nil =>
    simp only [Memory.write] at h
    split at h
    · simp at h
    · next hb => exact .inr ⟨by simpa using h, hb⟩
  | cons d rest ih =>
    simp only [Memory.write] at h
    split at h
    · split at h
      · exact .inl h
      · next hb =>
        rcases List.mem_cons.mp h with rfl | h'
        · exact .inr ⟨rfl, hb⟩
        · exact .inl h'
    · split at h
      · split at h
        · exact .inl (by simp [h])
        · next hb =>
          rcases List.mem_cons.mp h with rfl | h'
          · exact .inr ⟨rfl, hb⟩
          · exact .inl (by simp [h'])
      · rcases List.mem_cons.mp h with rfl | h'
        · exact .inl (by simp)
        · rcases ih h' with h'' | h''
          · exact .inl (by simp [h''])
          · exact .inr h''

theorem Memory.write_wf {m : Memory} {a : Nat} {b : Byte} (h : Memory.wf m) : Memory.wf (Memory.write m a b) := by
  obtain ⟨hs, hz⟩ := h
  refine ⟨?_, ?_⟩
  · induction m with
    | nil => simp only [Memory.write]; split <;> simp
    | cons d rest ih =>
      have hd : ∀ e ∈ rest, d.1 < e.1 := (List.pairwise_cons.mp hs).1
      have hr := (List.pairwise_cons.mp hs).2
      simp only [Memory.write]
      split
      · next hlt =>
        split
        · exact hs
        · refine List.pairwise_cons.mpr ⟨fun e he => ?_, hs⟩
          rcases List.mem_cons.mp he with rfl | he
          · exact hlt
          · exact Nat.lt_trans hlt (hd e he)
      · split
        · next heq =>
          split
          · exact hr
          · exact List.pairwise_cons.mpr ⟨fun e he => heq ▸ hd e he, hr⟩
        · refine List.pairwise_cons.mpr ⟨fun e he => ?_, ih hr fun c hc => hz c (by simp [hc])⟩
          rcases Memory.mem_write he with he | ⟨rfl, _⟩
          · exact hd e he
          · show d.1 < a; omega
  · intro c hc
    rcases Memory.mem_write hc with hc | ⟨rfl, hb⟩
    · exact hz c hc
    · exact hb

theorem Memory.write_inBuf {m : Memory} {a : Nat} {b : Byte} (h : Memory.inBuf m) (ha : a < Config.bufCap) :
    Memory.inBuf (Memory.write m a b) := by
  intro c hc
  rcases Memory.mem_write hc with hc | ⟨rfl, _⟩
  · exact h c hc
  · exact ha

/-- Read after write, in a memory in canonical form. -/
theorem Memory.read_write {m : Memory} (h : m.Pairwise (fun c d => c.1 < d.1)) (a x : Nat) (b : Byte) :
    Memory.read (Memory.write m a b) x = if x = a then b else Memory.read m x := by
  induction m with
  | nil =>
    by_cases hx : x = a
    · subst hx
      by_cases hb : b = 0
      · simp only [Memory.write, Memory.read, if_pos, hb]
      · simp only [Memory.write, if_neg hb, Memory.read, if_pos]
    · by_cases hb : b = 0
      · simp only [Memory.write, if_pos hb, Memory.read, if_neg hx]
      · simp only [Memory.write, if_neg hb, Memory.read, if_neg (Ne.symm hx), if_neg hx]
  | cons d rest ih =>
    have hd : ∀ e ∈ rest, d.1 < e.1 := (List.pairwise_cons.mp h).1
    have ih := ih (List.pairwise_cons.mp h).2
    simp only [Memory.write]
    split
    · next hlt =>
      have habs : Memory.read (d :: rest) a = 0 := Memory.read_eq_zero_of_lt fun c hc => by
        rcases List.mem_cons.mp hc with rfl | hc
        · exact hlt
        · exact Nat.lt_trans hlt (hd c hc)
      split
      · next hb => split <;> simp_all
      · by_cases hx : x = a
        · simp [Memory.read, hx]
        · simp [Memory.read, hx, Ne.symm hx]
    · split
      · next heq =>
        subst heq
        have habs : Memory.read rest d.1 = 0 := Memory.read_eq_zero_of_lt hd
        split
        · next hb =>
          by_cases hx : x = d.1
          · subst hx; simp [habs, hb]
          · simp [Memory.read, hx, Ne.symm hx]
        · by_cases hx : x = d.1
          · simp [Memory.read, hx]
          · simp [Memory.read, hx, Ne.symm hx]
      · next hlt hne =>
        by_cases hx : x = d.1
        · have : x ≠ a := by omega
          simp [Memory.read, hx, Ne.symm hne]
        · simp [Memory.read, Ne.symm hx, ih]

theorem Memory.writeBytes_wf {m : Memory} (h : Memory.wf m) (a : Nat) (bytes : List Byte) :
    Memory.wf (Memory.writeBytes m a bytes) := by
  induction bytes generalizing m a with
  | nil => exact h
  | cons b rest ih => exact ih (Memory.write_wf h) (a + 1)

theorem Memory.writeBytes_inBuf {m : Memory} (h : Memory.inBuf m) (a : Nat) (bytes : List Byte)
    (hn : a + bytes.length ≤ Config.bufCap) : Memory.inBuf (Memory.writeBytes m a bytes) := by
  induction bytes generalizing m a with
  | nil => exact h
  | cons b rest ih =>
    simp only [List.length_cons] at hn
    exact ih (Memory.write_inBuf h (by omega)) (a + 1) (by omega)

/-- What a read gives after bytes were written at rising addresses. -/
theorem Memory.read_writeBytes {m : Memory} (h : Memory.wf m) (a x : Nat) (bytes : List Byte) :
    Memory.read (Memory.writeBytes m a bytes) x =
      if a ≤ x then bytes.getD (x - a) (Memory.read m x) else Memory.read m x := by
  induction bytes generalizing m a with
  | nil => simp [Memory.writeBytes]
  | cons b rest ih =>
    rw [Memory.writeBytes, ih (Memory.write_wf h), Memory.read_write h.1]
    by_cases hx : x = a
    · subst hx; simp
    · by_cases hle : a ≤ x
      · have h1 : a + 1 ≤ x := by omega
        have h2 : x - a = (x - (a + 1)) + 1 := by omega
        simp [hx, hle, h1, h2]
      · have h1 : ¬ a + 1 ≤ x := by omega
        simp [hx, hle, h1]

theorem storeText_wf (p : Config.Params) (text : List Byte) {m : Memory} (h : Memory.wf m) :
    Memory.wf (storeText p text m) := Memory.writeBytes_wf h _ _

theorem storeText_inBuf (p : Config.Params) (text : List Byte) {m : Memory} (h : Memory.inBuf m)
    (hn : text.length + 1 ≤ Config.bufCap) : Memory.inBuf (storeText p text m) :=
  Memory.writeBytes_inBuf h _ _ (by simpa using hn)

theorem Memory.read_storeText (p : Config.Params) (text : List Byte) {m : Memory} (h : Memory.wf m) (x : Nat) :
    Memory.read (storeText p text m) x = (text ++ [p.nul]).getD x (Memory.read m x) := by
  rw [storeText, Memory.read_writeBytes h]; simp

theorem Memory.getD_readBytes (m : Memory) (a n i : Nat) (hi : i < n) (d : Byte) :
    (Memory.readBytes m a n).getD i d = Memory.read m (a + i) := by
  induction n generalizing a i with
  | zero => omega
  | succ k ih =>
    cases i with
    | zero => simp [Memory.readBytes]
    | succ i =>
      have := ih (a + 1) i (by omega)
      simp only [Memory.readBytes, List.getD_cons_succ, this]
      congr 1; omega

theorem Memory.length_readBytes (m : Memory) (a n : Nat) : (Memory.readBytes m a n).length = n := by
  induction n generalizing a with
  | zero => rfl
  | succ k ih => simp [Memory.readBytes, ih]

/-- BUF read back after a text was stored in it: the text, NUL, and what stood there before. -/
theorem loadText_storeText (p : Config.Params) (text : List Byte) {m : Memory} (h : Memory.wf m)
    (hn : text.length + 1 ≤ Config.bufCap) :
    ∃ old, loadText (storeText p text m) = text ++ p.nul :: old := by
  refine ⟨(loadText (storeText p text m)).drop (text.length + 1), ?_⟩
  have hlen : (loadText (storeText p text m)).length = Config.bufCap := Memory.length_readBytes _ _ _
  rw [show text ++ p.nul :: (loadText (storeText p text m)).drop (text.length + 1)
      = (text ++ [p.nul]) ++ (loadText (storeText p text m)).drop (text.length + 1) by simp]
  conv_lhs => rw [← List.take_append_drop (text.length + 1) (loadText (storeText p text m))]
  congr 1
  apply List.ext_getElem
  · simp [hlen, hn]
  · intro i h1 h2
    simp only [List.length_append, List.length_cons, List.length_nil] at h2
    have hread := Memory.getD_readBytes (storeText p text m) 0 Config.bufCap i (by omega) 0
    rw [show Memory.readBytes (storeText p text m) 0 Config.bufCap = loadText (storeText p text m) from rfl,
      Memory.read_storeText p text h] at hread
    rw [List.getElem_take]
    rw [List.getD_eq_getElem _ _ (by omega), Nat.zero_add, List.getD_eq_getElem _ _ (by simpa using h2)] at hread
    exact hread

end Sys2Proof.Machine
end

