-- ==== Sys2Proof/Laws/Text.lean ====
section
/-!
SUPPORT. The character loop of PRINT_TEXT: the cells it leaves, how it goes on after a text, what it needs of the
port, and what it sends.
-/
namespace Sys2Proof.Machine

open Sys2Proof

/-- The cells ROW, COL and IDX of the character loop. -/
structure LoopCells where
  row : Bit
  col : BitVec 5
  idx : Nat
deriving DecidableEq, Repr

/-- The cells after the loop has processed a text (R186). -/
def loopEnd (p : Config.Params) (c : LoopCells) (chars : List Byte) : LoopCells :=
  match chars with
  | [] => c
  | ch :: rest =>
    if ch = p.nul then c
    else if ch = p.newline then loopEnd p ⟨c.row ^^^ 1, 0, c.idx + 1⟩ rest
    else if c.col + 1 = Config.cols then
      if c.row = 0 then loopEnd p ⟨1, 0, c.idx + 1⟩ rest else { c with col := c.col + 1 }
    else loopEnd p ⟨c.row, c.col + 1, c.idx + 1⟩ rest

/-- The loop from given cells. -/
abbrev loopFrom (p : Config.Params) (bl : Bit) (c : LoopCells) (chars : List Byte) : List Action :=
  textLoopActions p bl c.row c.col c.idx chars

/-- A state with given cells. -/
def withCells (c : LoopCells) (s : State) : State := { s with row := c.row, col := c.col, idx := c.idx }

theorem bit_eq_zero_or_one (b : Bit) : b = 0 ∨ b = 1 := by revert b; decide

theorem bit_ne_zero {b : Bit} (h : b ≠ 0) : b = 1 := (bit_eq_zero_or_one b).resolve_left h

theorem zero_lt_cols : (0 : BitVec 5) < 16 := by decide

theorem col_ne_of_lt {col : BitVec 5} (h : col < 16) : col ≠ 16 := by
  revert col; decide

theorem col_succ_lt {col : BitVec 5} (h : col < 16) (hc : col + 1 ≠ Config.cols) : col + 1 < 16 := by
  revert col; decide

theorem col_succ_eq {col : BitVec 5} : col + 1 = Config.cols ↔ col = 15 := by
  revert col; decide

/-- At the end of the loop COL is at most 16, and it is 16 only when row 1 was filled (R195). -/
theorem loopEnd_col (p : Config.Params) (c : LoopCells) (chars : List Byte) (h : c.col < 16) :
    (loopEnd p c chars).col < 16 ∨ ((loopEnd p c chars).col = 16 ∧ (loopEnd p c chars).row = 1) := by
  induction chars generalizing c with
  | nil => exact .inl h
  | cons ch rest ih =>
    simp only [loopEnd]
    split
    · exact .inl h
    · split
      · exact ih _ zero_lt_cols
      · split
        · next hc =>
          split
          · exact ih _ zero_lt_cols
          · next hr => exact .inr ⟨hc, bit_ne_zero hr⟩
        · next hc => exact ih _ (col_succ_lt h hc)

/-- The loop over two texts in a row, the first without NUL: it goes on from the cells of the first, unless that one
was truncated. -/
theorem loopEnd_append (p : Config.Params) (c : LoopCells) (u v : List Byte) (hu : p.nul ∉ u) (h : c.col < 16) :
    loopEnd p c (u ++ v) =
      if (loopEnd p c u).col = 16 then loopEnd p c u else loopEnd p (loopEnd p c u) v := by
  induction u generalizing c with
  | nil => exact (if_neg (col_ne_of_lt h)).symm
  | cons ch rest ih =>
    have hn : ch ≠ p.nul := fun e => hu (by simp [e])
    have hr : p.nul ∉ rest := fun e => hu (by simp [e])
    simp only [List.cons_append, loopEnd, if_neg hn]
    split
    · exact ih _ hr zero_lt_cols
    · split
      · next hc =>
        split
        · exact ih _ hr zero_lt_cols
        · exact (if_pos hc).symm
      · next hc => exact ih _ hr (col_succ_lt h hc)

theorem loopFrom_append (p : Config.Params) (bl : Bit) (c : LoopCells) (u v : List Byte) (hu : p.nul ∉ u)
    (h : c.col < 16) :
    loopFrom p bl c (u ++ v) = loopFrom p bl c u ++
      if (loopEnd p c u).col = 16 then [] else loopFrom p bl (loopEnd p c u) v := by
  induction u generalizing c with
  | nil => exact (if_neg (col_ne_of_lt h)).symm
  | cons ch rest ih =>
    have hn : ch ≠ p.nul := fun e => hu (by simp [e])
    have hr : p.nul ∉ rest := fun e => hu (by simp [e])
    simp only [loopFrom, List.cons_append, textLoopActions, loopEnd, if_neg hn] at ih ⊢
    split
    · simp only [ih ⟨c.row ^^^ 1, 0, c.idx + 1⟩ hr zero_lt_cols, List.cons_append, List.append_assoc]
    · split
      · next hc =>
        split
        · simp only [ih ⟨1, 0, c.idx + 1⟩ hr zero_lt_cols, List.cons_append, List.append_assoc]
        · rw [if_pos (show c.col + 1 = 16 from hc), List.append_nil]
      · next hc =>
        simp only [ih ⟨c.row, c.col + 1, c.idx + 1⟩ hr (col_succ_lt h hc), List.cons_append, List.append_assoc]

/-- NUL ends the loop, wherever it stands (R193). -/
theorem loopFrom_nul (p : Config.Params) (bl : Bit) (c : LoopCells) (u v : List Byte) :
    loopFrom p bl c (u ++ p.nul :: v) = loopFrom p bl c u := by
  induction u generalizing c with
  | nil => simp [loopFrom, textLoopActions]
  | cons ch rest ih =>
    simp only [loopFrom, List.cons_append, textLoopActions] at ih ⊢
    rw [ih ⟨c.row ^^^ 1, 0, c.idx + 1⟩, ih ⟨1, 0, c.idx + 1⟩, ih ⟨c.row, c.col + 1, c.idx + 1⟩]

/-- The loop depends only on the bytes before the first NUL (R51). -/
theorem loopFrom_textBytes (p : Config.Params) (bl : Bit) (c : LoopCells) (u : List Byte) :
    loopFrom p bl c (textBytes p u) = loopFrom p bl c u := by
  induction u generalizing c with
  | nil => rfl
  | cons ch rest ih =>
    by_cases h : ch = p.nul
    · simp [textBytes, h, textLoopActions]
    · simp only [textBytes, if_neg h, loopFrom, textLoopActions] at ih ⊢
      simp only [ih ⟨c.row ^^^ 1, 0, c.idx + 1⟩, ih ⟨1, 0, c.idx + 1⟩, ih ⟨c.row, c.col + 1, c.idx + 1⟩]

theorem loopEnd_textBytes (p : Config.Params) (c : LoopCells) (u : List Byte) :
    loopEnd p c (textBytes p u) = loopEnd p c u := by
  induction u generalizing c with
  | nil => rfl
  | cons ch rest ih =>
    by_cases h : ch = p.nul
    · simp [textBytes, h, loopEnd]
    · simp only [textBytes, if_neg h, loopEnd, ih]

theorem nul_notMem_textBytes (p : Config.Params) (u : List Byte) : p.nul ∉ textBytes p u := by
  induction u with
  | nil => simp [textBytes]
  | cons ch rest ih =>
    by_cases h : ch = p.nul
    · simp [textBytes, h]
    · simp [textBytes, if_neg h, ih, Ne.symm h]

theorem textBytes_of_notMem (p : Config.Params) {u : List Byte} (h : p.nul ∉ u) : textBytes p u = u := by
  induction u with
  | nil => rfl
  | cons ch rest ih =>
    have hn : ch ≠ p.nul := fun e => h (by simp [e])
    simp [textBytes, hn, ih fun e => h (by simp [e])]

/-- Unless the text is truncated, IDX counts its characters (R195). -/
theorem loopEnd_idx (p : Config.Params) (c : LoopCells) (u : List Byte) (hu : p.nul ∉ u) (h : c.col < 16)
    (hc : (loopEnd p c u).col ≠ 16) : (loopEnd p c u).idx = c.idx + u.length := by
  induction u generalizing c with
  | nil => rfl
  | cons ch rest ih =>
    have hn : ch ≠ p.nul := fun e => hu (by simp [e])
    have hr : p.nul ∉ rest := fun e => hu (by simp [e])
    simp only [loopEnd, if_neg hn, List.length_cons] at hc ⊢
    split at hc
    · next h1 => rw [if_pos h1, ih _ hr zero_lt_cols hc]; simp; omega
    · next h1 =>
      rw [if_neg h1]
      split at hc
      · next h2 =>
        rw [if_pos h2]
        split at hc
        · next h3 => rw [if_pos h3, ih _ hr zero_lt_cols hc]; simp; omega
        · exact absurd h2 hc
      · next h2 => rw [if_neg h2, ih _ hr (col_succ_lt h h2) hc]; simp; omega

/-! ### Running the loop -/

/-- The loop raises nothing. -/
theorem loopFrom_no_raise (p : Config.Params) (bl : Bit) (c : LoopCells) (u : List Byte) :
    ∀ cause, Action.raise cause ∉ loopFrom p bl c u := by
  intro cause
  induction u generalizing c with
  | nil => simp [loopFrom, textLoopActions]
  | cons ch rest ih =>
    simp only [loopFrom] at ih
    simp only [loopFrom, textLoopActions]
    split
    · simp
    · split
      · simp [setCursorActions, sendCommandActions, sendMessageActions, sendByteActions]
        exact ih ⟨c.row ^^^ 1, 0, c.idx + 1⟩
      · split
        · split
          · rw [wrapActions]
            split
            all_goals
              simp [printCharActions, sendDataActions, setCursorActions, sendCommandActions, sendMessageActions,
                sendByteActions]
              exact ih ⟨1, 0, c.idx + 1⟩
          · simp [printCharActions, sendDataActions, sendMessageActions, sendByteActions]
        · simp [printCharActions, sendDataActions, sendMessageActions, sendByteActions]
          exact ih ⟨c.row, c.col + 1, c.idx + 1⟩

/-- A message inside a longer list of actions. -/
theorem afterActions_sendMessage (p : Config.Params) (bl : Bit) (v8 : Byte) (rs : Bit) (s : State) :
    afterActions (sendMessageActions p bl v8 rs) s = { s with
      trace := s.trace ++ messageEvents p bl v8 rs, answers := s.answers.drop 4,
      delayReturns := s.delayReturns - 4 } := by
  rw [afterActions_requests (requests_sendMessage _ _ _ _), successEvents_sendMessage]; rfl

/-- The state a loop leaves: its cells, its events, and the port's inputs used up. -/
theorem afterActions_loopFrom (p : Config.Params) (bl : Bit) (c : LoopCells) (u : List Byte) (s : State) :
    afterActions (loopFrom p bl c u) (withCells c s) = withCells (loopEnd p c u) { s with
      trace := s.trace ++ successEvents (loopFrom p bl c u),
      answers := s.answers.drop (answersNeeded (loopFrom p bl c u)),
      delayReturns := s.delayReturns - delaysNeeded (loopFrom p bl c u) } := by
  have key : ∀ c s, afterActions (loopFrom p bl c u) (withCells c s) =
      withCells (loopEnd p c u) (afterActions (loopFrom p bl c u) (withCells c s)) ∧
      (afterActions (loopFrom p bl c u) (withCells c s)).portBound = s.portBound ∧
      (afterActions (loopFrom p bl c u) (withCells c s)).initStep = s.initStep := by
    induction u with
    | nil => intro c s; exact ⟨rfl, rfl, rfl⟩
    | cons ch rest ih =>
      intro c s
      simp only [loopFrom, textLoopActions, loopEnd] at ih ⊢
      split
      · exact ⟨rfl, rfl, rfl⟩
      · split
        · simp only [setCursorActions, sendCommandActions, List.cons_append, afterActions_cons,
            afterActions_append, afterActions_sendMessage, afterAction]
          exact ih ⟨c.row ^^^ 1, 0, c.idx + 1⟩ { s with trace := _, answers := _, delayReturns := _ }
        · simp only [printCharActions, sendDataActions, afterActions_cons, afterActions_append,
            afterActions_sendMessage, afterAction]
          split
          · split
            · rw [wrapActions]
              split
              · simp only [setCursorActions, sendCommandActions, List.cons_append, afterActions_cons,
                  afterActions_append, afterActions_sendMessage, afterAction]
                exact ih ⟨1, 0, c.idx + 1⟩ { s with trace := _, answers := _, delayReturns := _ }
              · simp only [List.cons_append, List.nil_append, afterActions_cons, afterAction]
                exact ih ⟨1, 0, c.idx + 1⟩ { s with trace := _, answers := _, delayReturns := _ }
            · exact ⟨rfl, rfl, rfl⟩
          · simp only [afterActions_cons, afterAction]
            exact ih ⟨c.row, c.col + 1, c.idx + 1⟩ { s with trace := _, answers := _, delayReturns := _ }
  obtain ⟨hcells, hb, hi⟩ := key c s
  rw [hcells]
  have hf := afterActions_frame (loopFrom p bl c u) (withCells c s)
  simp only [afterActions_trace, afterActions_answers, afterActions_delayReturns, hb, hi] at hf
  rw [hf]; rfl

/-- The loop needs at most two messages for every character. -/
theorem needs_loopFrom (p : Config.Params) (bl : Bit) (c : LoopCells) (u : List Byte) :
    answersNeeded (loopFrom p bl c u) ≤ 8 * u.length ∧ delaysNeeded (loopFrom p bl c u) ≤ 8 * u.length := by
  induction u generalizing c with
  | nil => simp [loopFrom, textLoopActions]
  | cons ch rest ih =>
    simp only [loopFrom] at ih
    have h1 := ih ⟨c.row ^^^ 1, 0, c.idx + 1⟩
    have h2 := ih ⟨1, 0, c.idx + 1⟩
    have h3 := ih ⟨c.row, c.col + 1, c.idx + 1⟩
    simp only at h1 h2 h3
    simp only [loopFrom, textLoopActions, List.length_cons]
    split
    · simp
    · split
      · simp only [setCursorActions, List.cons_append, answersNeeded_cons, answersNeeded_append,
          answersNeeded_sendCommand, delaysNeeded_cons, delaysNeeded_append, delaysNeeded_sendCommand,
          actionAnswers, actionDelays]
        omega
      · split
        · split
          · rw [wrapActions]
            split <;> simp only [printCharActions, setCursorActions, List.cons_append, List.nil_append,
              answersNeeded_cons, answersNeeded_append, answersNeeded_sendCommand, answersNeeded_sendData,
              delaysNeeded_cons, delaysNeeded_append, delaysNeeded_sendCommand, delaysNeeded_sendData,
              actionAnswers, actionDelays] <;> omega
          · simp only [printCharActions, answersNeeded_cons, answersNeeded_append, answersNeeded_sendData,
              delaysNeeded_cons, delaysNeeded_append, delaysNeeded_sendData, answersNeeded_nil, delaysNeeded_nil,
              actionAnswers, actionDelays]
            omega
        · simp only [printCharActions, answersNeeded_cons, answersNeeded_append, answersNeeded_sendData,
            delaysNeeded_cons, delaysNeeded_append, delaysNeeded_sendData, actionAnswers, actionDelays]
          omega

/-! ### PRINT_TEXT -/

/-- The cells at the start of the loop. -/
def loopStart : LoopCells := ⟨0, 0, 0⟩

/-- PRINT_TEXT of a text is its preamble and then its loop. -/
theorem printTextActions_some (p : Config.Params) (bl : Bit) (u : List Byte) :
    printTextActions p bl (some u) =
      (clearActions p bl ++ setCursorActions p bl 0 0 ++ [.setRow 0, .setCol 0, .setIdx 0])
        ++ loopFrom p bl loopStart u := rfl

theorem printTextActions_no_raise (p : Config.Params) (bl : Bit) (u : List Byte) :
    ∀ cause, Action.raise cause ∉ printTextActions p bl (some u) := by
  intro cause
  rw [printTextActions_some]
  simp [clearActions, setCursorActions, sendCommandActions, sendMessageActions, sendByteActions,
    loopFrom_no_raise p bl loopStart u cause]

/-- The events of the preamble (R188). -/
def preambleEvents (p : Config.Params) (bl : Bit) : List PortEvent :=
  commandEvents p bl p.cmdClearDisplay ++ commandEvents p bl 0x80

/-- The state a PRINT_TEXT leaves that succeeds. -/
theorem afterActions_printText (p : Config.Params) (bl : Bit) (u : List Byte) (s : State) :
    afterActions (printTextActions p bl (some u)) s = withCells (loopEnd p loopStart u) { s with
      trace := s.trace ++ preambleEvents p bl ++ successEvents (loopFrom p bl loopStart u),
      answers := s.answers.drop (8 + answersNeeded (loopFrom p bl loopStart u)),
      delayReturns := s.delayReturns - (8 + delaysNeeded (loopFrom p bl loopStart u)) } := by
  rw [printTextActions_some, afterActions_append]
  have h : afterActions (clearActions p bl ++ setCursorActions p bl 0 0 ++ [.setRow 0, .setCol 0, .setIdx 0]) s =
      withCells loopStart { s with
        trace := s.trace ++ preambleEvents p bl, answers := s.answers.drop 8,
        delayReturns := s.delayReturns - 8 } := by
    simp only [clearActions, setCursorActions, sendCommandActions, afterActions_append, afterActions_sendMessage,
      afterActions_cons, afterActions_nil, afterAction, List.drop_drop, List.append_assoc, Nat.sub_sub]
    rfl
  rw [h, afterActions_loopFrom]
  simp [List.drop_drop, Nat.sub_sub]

end Sys2Proof.Machine
end

