-- ==== Sys2Proof/Laws/Formatted.lean ====
section
/-!
SUPPORT. PRINT_FORMATTED: rendering one piece of a template at a time, and that printing BUF is printing the text
stored in it.
-/
namespace Sys2Proof.Machine

open Sys2Proof

/-! ### RENDER -/

/-- A character that is neither `%` nor NUL is copied. -/
theorem render_literal (p : Config.Params) {c : Byte} (h : c ≠ 0x25 ∧ c ≠ p.nul) (rest : List Byte)
    (parts : List Int) : render p (c :: rest) parts = (render p rest parts).map (c :: ·) := by
  have hn : ¬ c = percentChar := h.1
  cases rest with
  | nil => simp only [render, h.2, hn, or_self, if_false]
  | cons d rest => rw [render, if_neg h.2, if_neg hn]

/-- Characters that are neither `%` nor NUL are copied. -/
theorem render_literals (p : Config.Params) (a rest : List Byte) (parts : List Int)
    (h : ∀ ch ∈ a, ch ≠ 0x25 ∧ ch ≠ p.nul) : render p (a ++ rest) parts = (render p rest parts).map (a ++ ·) := by
  induction a with
  | nil => simp; cases render p rest parts <;> rfl
  | cons c r ih =>
    rw [List.cons_append, render_literal p (h c (by simp)), ih fun x hx => h x (by simp [hx])]
    cases render p rest parts <;> rfl

/-- `%d` takes the next integer. -/
theorem render_decimal (p : Config.Params) (h1 : p.nul ≠ 0x25) (h2 : p.nul ≠ 0x64) (rest : List Byte) (i : Int)
    (parts : List Int) :
    render p (0x25 :: 0x64 :: rest) (i :: parts) = (render p rest parts).map (decimalInt i ++ ·) := by
  rw [render, if_neg h1.symm, if_pos (show (0x25 : Byte) = percentChar from rfl), if_neg h2.symm,
    if_neg (show ¬ (0x64 : Byte) = percentChar by decide), if_pos ⟨rfl, by simp⟩]
  rfl

/-- `%%` is one `%`. -/
theorem render_percent (p : Config.Params) (hn : p.nul ≠ 0x25) (rest : List Byte) (parts : List Int) :
    render p (0x25 :: 0x25 :: rest) parts = (render p rest parts).map (0x25 :: ·) := by
  rw [render, if_neg hn.symm, if_pos (show (0x25 : Byte) = percentChar from rfl), if_neg hn.symm,
    if_pos (show (0x25 : Byte) = percentChar from rfl)]
  rfl

/-- A text with every `%` doubled is copied. -/
theorem render_escaped (p : Config.Params) (a rest : List Byte) (parts : List Int) (h : p.nul ∉ escaped a)
    (h2 : p.nul ≠ 0x25) : render p (escaped a ++ rest) parts = (render p rest parts).map (a ++ ·) := by
  induction a with
  | nil => simp [escaped]; cases render p rest parts <;> rfl
  | cons c r ih =>
    by_cases hc : c = 0x25
    · subst hc
      have e : escaped (0x25 :: r) = 0x25 :: 0x25 :: escaped r := rfl
      rw [e] at h ⊢
      rw [List.cons_append, List.cons_append, render_percent p h2, ih (fun hx => h (by simp [hx]))]
      cases render p rest parts <;> rfl
    · have e : escaped (c :: r) = c :: escaped r := by rw [escaped, List.flatMap_cons, if_neg hc]; rfl
      rw [e] at h ⊢
      rw [List.cons_append, render_literal p ⟨hc, fun hx => h (by simp [hx])⟩, ih (fun hx => h (by simp [hx]))]
      cases render p rest parts <;> rfl

theorem map_error {α β ε : Type} (f : α → β) (x : Except ε α) (r : ε) : x.map f = .error r ↔ x = .error r := by
  cases x <;> simp [Except.map]

/-- RENDER has one reason to refuse. -/
theorem render_error {p : Config.Params} {template : List Byte} {parts : List Int} {r : Refusal}
    (h : render p template parts = .error r) : r = .badTemplate := by
  fun_induction render p template parts <;> simp_all [map_error]

/-- RENDER refuses exactly a template with a NUL, with a `%` sequence outside the grammar, or with another number of
`%d` than there are integers (R223). -/
theorem render_refused_iff (p : Config.Params) (template : List Byte) (parts : List Int) :
    render p template parts = .error .badTemplate ↔ p.nul ∈ template ∨ placeholders template ≠ some parts.length := by
  fun_induction render p template parts with
  | case1 => simp [placeholders]
  | case2 parts h => 
    cases parts <;> simp_all [placeholders]
  | case3 parts c h =>
    rcases h with h | h <;> simp [placeholders, h, percentChar]
  | case4 parts c h ih =>
    rw [not_or] at h
    simp only [placeholders] at ih
    simp only [map_error, ih, placeholders, List.mem_singleton, Ne.symm h.1, List.not_mem_nil, if_neg (show ¬ c = 0x25 from h.2)]
  | case5 | case6 => simp
  | case7 parts rest h _ ih =>
    have h : ¬ p.nul = 37#8 := Ne.symm h
    simp [map_error, ih, placeholders, percentChar, h]
  | case8 parts d rest h1 h2 h3 h4 ih =>
    obtain ⟨rfl, h3⟩ := h3
    obtain ⟨i, r, rfl⟩ := List.exists_cons_of_ne_nil h3
    have h1 : ¬ p.nul = 100#8 := Ne.symm h1
    have h4 : ¬ p.nul = 37#8 := Ne.symm h4
    rw [List.tail_cons] at ih ⊢
    simp [map_error, ih, placeholders, percentChar, decimalChar, h1, h4]
  | case9 parts d rest h1 h2 h3 =>
    by_cases hd : d = 0x64
    · cases parts with
      | nil => subst hd; simp [placeholders, percentChar]
      | cons i r => exact absurd ⟨hd, by simp⟩ h3
    · have h2 : ¬ d = 0x25 := h2
      simp only [placeholders, percentChar, h2, hd, if_true, if_false]; simp
  | case10 parts c d rest h1 h2 ih =>
    simp only [map_error, ih, placeholders, if_neg (show ¬ c = 0x25 from h2)]
    simp [Ne.symm h1]

/-! ### BUF -/

/-- A text that is accepted fits in BUF with its terminator (R224). -/
theorem renderForBuf_length {p : Config.Params} {template : Option (List Byte)} {ipart fpart : Int}
    {text : List Byte} (h : renderForBuf p template ipart fpart = .ok text) : text.length + 1 ≤ Config.bufCap := by
  simp only [renderForBuf] at h
  split at h
  · simp at h
  · split at h
    · simp at h
    · split at h
      · simp at h
      · cases h; omega

theorem textBytes_append_nul (p : Config.Params) (u v : List Byte) :
    textBytes p (u ++ p.nul :: v) = textBytes p u := by
  induction u with
  | nil => simp [textBytes]
  | cons a r ih => simp [textBytes, ih]

/-- PRINT_TEXT does the same for texts with the same bytes before the first NUL (R51). -/
theorem printTextActions_congr (p : Config.Params) (bl : Bit) {u v : List Byte} (h : textBytes p u = textBytes p v) :
    printTextActions p bl (some u) = printTextActions p bl (some v) := by
  rw [printTextActions_some, printTextActions_some, ← loopFrom_textBytes p bl loopStart u, h, loopFrom_textBytes]

/-- Printing BUF is printing the text stored in it (R225). -/
theorem printTextActions_buf (p : Config.Params) (bl : Bit) (text : List Byte) {m : Memory} (h : Memory.wf m)
    (hl : text.length + 1 ≤ Config.bufCap) :
    printTextActions p bl (some (loadText (storeText p text m))) = printTextActions p bl (some text) := by
  obtain ⟨junk, e⟩ := loadText_storeText p text h hl
  rw [e]
  exact printTextActions_congr p bl (textBytes_append_nul p text junk)

end Sys2Proof.Machine
end

