-- ==== Sys2Proof/Laws/Frame.lean ====
section
/-!
SUPPORT. What a run leaves unchanged: any view of the state that its actions do not write, PORT_BOUND once it is 1,
and the trace so far. And which part of a list of actions made a given event.
-/
namespace Sys2Proof.Machine

open Sys2Proof

/-! ### Views of the state -/

/-- A view of the state that shows neither what finishing an operation writes nor what a failing request writes. -/
structure Blind {α : Type} (f : State → α) : Prop where
  finishing : ∀ (s : State) st b p, f { s with status := st, busy := b, pending := p } = f s
  failing : ∀ (s : State) e rest, f { s with answers := rest, trace := s.trace ++ [e] } = f s

theorem afterActions_keeps {α : Type} {f : State → α} {actions : List Action}
    (h : ∀ a ∈ actions, ∀ s, f (afterAction a s) = f s) (s : State) : f (afterActions actions s) = f s := by
  induction actions generalizing s with
  | nil => rfl
  | cons a rest ih => rw [afterActions_cons, ih fun b hb => h b (by simp [hb]), h a (by simp)]

/-- What no action of a run writes is the same however the operation ends. -/
theorem finish_keeps {α : Type} {f : State → α} (hf : Blind f) {actions : List Action} {s t : State}
    (h : ∀ a ∈ actions, ∀ s, f (afterAction a s) = f s) (hp : finish (run actions s) = .next t) : f t = f s := by
  rcases run_cases actions s with e | ⟨pre, a, post, c, s', e1, e2, e3, e⟩ | ⟨pre, a, post, e1, e2, e3, e⟩ |
      ⟨pre, a, post, r, e1, e2, e3, e⟩ <;> rw [e] at hp <;> simp at hp
  · rw [← hp, deliver, hf.finishing, afterActions_keeps h]
  · have hpre := afterActions_keeps (f := f) (actions := pre) (fun b hb => h b (by simp [e1, hb])) s
    rw [← hp, deliver, hf.finishing]
    rcases act_fail e3 with ⟨rfl, rfl⟩ | ⟨ev, rest, _, _, rfl⟩
    · exact hpre
    · rw [hf.failing, hpre]
  · have hpre := afterActions_keeps (f := f) (actions := pre) (fun b hb => h b (by simp [e1, hb])) s
    rw [← hp, waitForPort, hf.finishing, hpre]

theorem perform_keeps {α : Type} {f : State → α} (hf : Blind f) {actions : List Action} {s t : State}
    (h : ∀ a ∈ actions, ∀ s, f (afterAction a s) = f s) (hp : perform actions s = .next t) : f t = f s := by
  rw [perform_idle (perform_next hp).1] at hp
  exact finish_keeps hf h hp

/-- A run only adds to the trace. -/
theorem finish_trace {actions : List Action} {s t : State} (hp : finish (run actions s) = .next t) :
    s.trace <+: t.trace := by
  rcases run_cases actions s with e | ⟨pre, a, post, c, s', e1, e2, e3, e⟩ | ⟨pre, a, post, e1, e2, e3, e⟩ |
      ⟨pre, a, post, r, e1, e2, e3, e⟩ <;> rw [e] at hp <;> simp at hp
  · rw [← hp]; simp
  · rw [← hp]
    rcases act_fail e3 with ⟨rfl, rfl⟩ | ⟨ev, rest, _, _, rfl⟩ <;> simp [List.append_assoc]
  · rw [← hp]; simp

/-- A run leaves a port injected. -/
theorem finish_portBound {actions : List Action} {s t : State} (hp : finish (run actions s) = .next t)
    (hb : s.portBound = true) : t.portBound = true := by
  rcases run_cases actions s with e | ⟨pre, a, post, c, s', e1, e2, e3, e⟩ | ⟨pre, a, post, e1, e2, e3, e⟩ |
      ⟨pre, a, post, r, e1, e2, e3, e⟩ <;> rw [e] at hp <;> simp at hp
  · rw [← hp]; simp [afterActions_portBound hb]
  · rw [← hp]
    rcases act_fail e3 with ⟨rfl, rfl⟩ | ⟨ev, rest, _, _, rfl⟩ <;> simp [afterActions_portBound hb]
  · rw [← hp]; simp [afterActions_portBound hb]

/-- An operation that ended with OK did all its actions. -/
theorem perform_ok {actions : List Action} {s t : State} (h : perform actions s = .next t) (hs : t.status = some .ok) :
    s.busy = false ∧ t = deliver .ok (afterActions actions s) ∧ run actions s = .done (afterActions actions s) := by
  obtain ⟨hb, h'⟩ := perform_next h
  rcases h' with ⟨h', rfl⟩ | ⟨pre, a, post, c, s', e1, e2, e3, rfl⟩ | ⟨pre, a, post, e1, e2, e3, rfl⟩
  · exact ⟨hb, rfl, h'⟩
  · simp at hs
  · simp at hs

/-- Finished runs of the same actions from related states end in related states, or are refused alike. -/
theorem finish_related {R : State → State → Prop} (hR : Unseen R)
    (hfin : ∀ s s' st b p, R s s' →
      R { s with status := st, busy := b, pending := p } { s' with status := st, busy := b, pending := p })
    (actions : List Action) {s s' : State} (h : R s s') :
    (∀ t, finish (run actions s) = .next t → ∃ t', finish (run actions s') = .next t' ∧ R t t') ∧
    (∀ r, finish (run actions s) = .refused r → finish (run actions s') = .refused r) := by
  have hrel := run_related hR actions h
  cases hx : run actions s <;> cases hy : run actions s' <;> rw [hx, hy] at hrel <;> cases hrel
  · next h => exact ⟨fun t ht => ⟨_, rfl, by simp at ht; rw [← ht]; exact hfin _ _ _ _ _ h⟩, by simp⟩
  · next h => exact ⟨fun t ht => ⟨_, by simp; rfl, by simp at ht; rw [← ht]; exact hfin _ _ _ _ _ h⟩, by simp⟩
  · next h => exact ⟨fun t ht => ⟨_, rfl, by simp at ht; rw [← ht]; exact hfin _ _ _ _ _ h⟩, by simp⟩
  · exact ⟨by simp, fun r h => h⟩

/-! ### What the port is asked for -/

theorem PortServes_mono {n d n' d' : Nat} {s : State} (h : PortServes n d s) (hn : n' ≤ n) (hd : d' ≤ d) :
    PortServes n' d' s :=
  ⟨hn.trans h.1, fun r hr => h.2.1 r (List.mem_of_mem_take (by rw [List.take_take, Nat.min_eq_left hn]; exact hr)),
    hd.trans h.2.2⟩

/-- A port that serves a first part, and then a second part after it, serves both. -/
theorem PortServes_add {n d n' d' : Nat} {s t : State} (h : PortServes n d s) (ha : t.answers = s.answers.drop n)
    (hd : t.delayReturns = s.delayReturns - d) (h' : PortServes n' d' t) : PortServes (n + n') (d + d') s := by
  obtain ⟨h1, h2, h3⟩ := h
  obtain ⟨k1, k2, k3⟩ := h'
  rw [ha] at k1 k2; rw [hd] at k3; rw [List.length_drop] at k1
  refine ⟨by omega, ?_, by omega⟩
  intro r hr
  rw [List.take_add] at hr
  rcases List.mem_append.1 hr with hr | hr
  · exact h2 r hr
  · exact k2 r hr

/-- The action that made an event of a run that succeeds, and the actions before it. -/
theorem successEvents_split {actions : List Action} {before after : List PortEvent} {e : PortEvent}
    (h : successEvents actions = before ++ e :: after) :
    ∃ pre a post, actions = pre ++ a :: post ∧ successEvents pre = before ∧ actionEvents a = [e] := by
  induction actions generalizing before with
  | nil => simp at h
  | cons a rest ih =>
    have single : actionEvents a = [] ∨ ∃ x, actionEvents a = [x] := by cases a <;> simp [actionEvents]
    rcases single with ha | ⟨x, ha⟩
    · rw [successEvents_cons, ha, List.nil_append] at h
      obtain ⟨pre, b, post, rfl, h1, h2⟩ := ih h
      exact ⟨a :: pre, b, post, rfl, by simp [ha, h1], h2⟩
    · rw [successEvents_cons, ha] at h
      cases before with
      | nil => simp at h; exact ⟨[], a, rest, rfl, rfl, by rw [ha, h.1]⟩
      | cons y ys =>
        simp at h
        obtain ⟨rfl, h⟩ := h
        obtain ⟨pre, b, post, rfl, h1, h2⟩ := ih h
        exact ⟨a :: pre, b, post, rfl, by simp [ha, h1], h2⟩

/-- No event of a run that succeeds is a failed one. -/
theorem successEvents_not_failed (actions : List Action) : ∀ e ∈ successEvents actions, eventFailed e = false := by
  induction actions with
  | nil => simp
  | cons a rest ih =>
    intro e he
    rw [successEvents_cons, List.mem_append] at he
    rcases he with he | he
    · cases a <;> simp [actionEvents] at he <;> subst he <;> rfl
    · exact ih e he

theorem delaysNeeded_eq (actions : List Action) : delaysNeeded actions = (delaysOf (successEvents actions)).length := by
  induction actions with
  | nil => rfl
  | cons a rest ih => cases a <;> simp_all [delaysOf, actionDelays, actionEvents]; omega

/-- The answers a list of actions takes are those of its writes and of its `portInit` requests. -/
theorem answersNeeded_eq (actions : List Action) (h : ∀ r, PortEvent.portInit r ∉ successEvents actions) :
    answersNeeded actions = (writesOf (successEvents actions)).length := by
  induction actions with
  | nil => rfl
  | cons a rest ih =>
    have := ih fun r hr => h r (by simp [hr])
    cases a with
    | portInit => exact absurd (by simp [actionEvents]) (h true)
    | write b c =>
      simp only [answersNeeded_cons, successEvents_cons, actionAnswers, actionEvents, this, writesOf,
        List.cons_append, List.nil_append, List.filterMap_cons, List.length_cons]
      omega
    | _ => simp_all [writesOf, actionAnswers, actionEvents]

end Sys2Proof.Machine
end

