-- ==== Sys2Proof/Laws/Exec.lean ====
section
/-!
SUPPORT. Everything an instruction and a step can do, said once: the list of actions of each instruction, and the
three ways a step goes.
-/
namespace Sys2Proof.Machine

open Sys2Proof

/-- The actions of an instruction and what BUF holds when they start, or why it is refused. -/
def operation (i : Instr) (s : State) : Except Refusal (List Action × Memory) :=
  match i with
  | .init => .ok (initActions s.params s.bl, s.buf)
  | .clear => .ok (clearActions s.params s.bl, s.buf)
  | .setCursor row column =>
    if ddramAddr row column > Config.maxDdramAddr then .error .addressOverflow
    else .ok (setCursorActions s.params s.bl row column, s.buf)
  | .printText v => .ok (printTextActions s.params s.bl (textOperand v s.text), s.buf)
  | .printFormatted =>
    match split s.params s.num with
    | .error r => .error r
    | .ok parts =>
      match renderForBuf s.params s.fmt parts.1 parts.2 with
      | .error r => .error r
      | .ok text =>
        .ok (printTextActions s.params s.bl (some (loadText (storeText s.params text s.buf))),
          storeText s.params text s.buf)
  | .printChar character => .ok (printCharActions s.params s.bl character, s.buf)
  | .sendByte frame => .ok (sendByteActions s.params frame, s.buf)
  | .sendNibble v4 rs => .ok (sendNibbleActions s.params s.bl v4 rs, s.buf)
  | .sendMessage v8 rs => .ok (sendMessageActions s.params s.bl v8 rs, s.buf)
  | .cmdClearDisplay => .ok (sendCommandActions s.params s.bl s.params.cmdClearDisplay, s.buf)
  | .cmdReturnHome => .ok (sendCommandActions s.params s.bl s.params.cmdReturnHome, s.buf)
  | .cmdEntryModeInc => .ok (sendCommandActions s.params s.bl s.params.cmdEntryModeInc, s.buf)
  | .cmdDisplayOff => .ok (sendCommandActions s.params s.bl s.params.cmdDisplayOff, s.buf)
  | .cmdDisplayOn => .ok (sendCommandActions s.params s.bl s.params.cmdDisplayOn, s.buf)
  | .cmdFunctionSet4Bit => .ok (sendCommandActions s.params s.bl s.params.cmdFunctionSet4Bit, s.buf)
  | .setDdramAddr address => .ok (sendCommandActions s.params s.bl (ddramCommand address.toNat), s.buf)

/-- Everything `exec` can do. -/
theorem exec_eq (i : Instr) (s : State) :
    exec i s =
      if s.busy then .refused .operationInProgress
      else
        match operation i s with
        | .error r => .refused r
        | .ok (actions, buf) => finish (run actions { s with buf := buf }) := by
  by_cases hb : s.busy = true
  · rw [if_pos hb]
    cases i <;> simp [exec, execInit, execClear, execSetCursor, execPrintText, execPrintFormatted, execPrintChar,
      execSendByte, execSendNibble, execSendMessage, execCmdClearDisplay, execCmdReturnHome, execCmdEntryModeInc,
      execCmdDisplayOff, execCmdDisplayOn, execCmdFunctionSet4Bit, execSetDdramAddr, perform, hb]
  · rw [if_neg hb]
    have hb : s.busy = false := by simpa using hb
    cases i with
    | setCursor row column =>
      simp only [exec, execSetCursor, operation]
      rw [if_neg (by simp [hb])]
      split
      · rfl
      · exact perform_idle hb
    | printFormatted =>
      simp only [exec, execPrintFormatted, operation, hb, printFormattedInt, printBuf]
      simp only [Bool.false_eq_true, if_false]
      cases split s.params s.num with
      | error r => rfl
      | ok parts =>
        dsimp only
        cases renderForBuf s.params s.fmt parts.1 parts.2 with
        | error r => rfl
        | ok text => exact perform_idle rfl
    | _ => exact perform_idle hb

/-- Everything known of an instruction that gives a next state. -/
theorem exec_next {i : Instr} {s t : State} (h : exec i s = .next t) :
    s.busy = false ∧ ∃ actions buf, operation i s = .ok (actions, buf) ∧
      finish (run actions { s with buf := buf }) = .next t := by
  rw [exec_eq] at h
  split at h
  · simp at h
  · next hb =>
    refine ⟨by simpa using hb, ?_⟩
    split at h
    · simp at h
    · next actions buf e => exact ⟨actions, buf, e, h⟩

/-- The only instruction that raises a failure of its own is PRINT_TEXT of the null reference (R244). -/
theorem operation_raise {i : Instr} {s : State} {actions : List Action} {buf : Memory}
    (h : operation i s = .ok (actions, buf)) :
    (∀ c, Action.raise c ∉ actions) ∨ (i = .printText 0 ∧ actions = [.raise .nullText]) := by
  cases i with
  | init =>
    simp only [operation, Except.ok.injEq, Prod.mk.injEq] at h
    obtain ⟨rfl, -⟩ := h
    left; intro c
    simp [initActions, initCommandActions, initCommands, sendCommandActions, sendMessageActions, sendNibbleActions,
      sendByteActions]
  | printText v =>
    simp only [operation, Except.ok.injEq, Prod.mk.injEq] at h
    obtain ⟨rfl, -⟩ := h
    rcases bit_eq_zero_or_one v with rfl | rfl
    · exact .inr ⟨rfl, rfl⟩
    · exact .inl (printTextActions_no_raise _ _ _)
  | printFormatted =>
    simp only [operation] at h
    split at h
    · simp at h
    · split at h
      · simp at h
      · simp only [Except.ok.injEq, Prod.mk.injEq] at h
        obtain ⟨rfl, -⟩ := h
        exact .inl (printTextActions_no_raise _ _ _)
  | setCursor row column =>
    simp only [operation] at h
    split at h
    · simp at h
    · simp only [Except.ok.injEq, Prod.mk.injEq] at h
      obtain ⟨rfl, -⟩ := h
      exact .inl (not_raise_of_requests (requests_sendMessage _ _ _ _))
  | sendByte frame =>
    simp only [operation, Except.ok.injEq, Prod.mk.injEq] at h
    obtain ⟨rfl, -⟩ := h
    exact .inl (not_raise_of_requests (requests_sendByte _ _))
  | sendNibble v4 rs =>
    simp only [operation, Except.ok.injEq, Prod.mk.injEq] at h
    obtain ⟨rfl, -⟩ := h
    exact .inl (not_raise_of_requests (requests_sendByte _ _))
  | _ =>
    simp only [operation, Except.ok.injEq, Prod.mk.injEq] at h
    obtain ⟨rfl, -⟩ := h
    exact .inl (not_raise_of_requests (requests_sendMessage _ _ _ _))

/-- An operation that starts keeps BUF canonical and inside its 32 bytes. -/
theorem operation_buf {i : Instr} {s : State} {actions : List Action} {buf : Memory}
    (h : operation i s = .ok (actions, buf)) (hw : Memory.wf s.buf) (hi : Memory.inBuf s.buf) :
    Memory.wf buf ∧ Memory.inBuf buf := by
  cases i with
  | printFormatted =>
    simp only [operation] at h
    split at h
    · simp at h
    · split at h
      · simp at h
      · next text ht =>
        simp only [Except.ok.injEq, Prod.mk.injEq] at h
        obtain ⟨-, rfl⟩ := h
        exact ⟨storeText_wf _ _ hw, storeText_inBuf _ _ hi (renderForBuf_length ht)⟩
  | setCursor row column =>
    simp only [operation] at h
    split at h
    · simp at h
    · simp only [Except.ok.injEq, Prod.mk.injEq] at h
      obtain ⟨-, rfl⟩ := h; exact ⟨hw, hi⟩
  | _ =>
    simp only [operation, Except.ok.injEq, Prod.mk.injEq] at h
    obtain ⟨-, rfl⟩ := h; exact ⟨hw, hi⟩

/-- Everything a step that gives a next state can be: going on with the operation in progress, waiting for the host,
or running the request at the front of the queue. -/
theorem step_next {s t : State} (h : step s = .next t) :
    (s.busy = true ∧ finish (run s.pending s) = .next t) ∨ (s.busy = false ∧ s.queue = [] ∧ t = s) ∨
    (∃ q rest i, s.busy = false ∧ s.queue = q :: rest ∧ decode (requestEncoding q) = .ok i ∧
      exec i (acceptRequest q rest s) = .next t) := by
  simp only [step] at h
  split at h
  · next hb => exact .inl ⟨hb, h⟩
  · next hb =>
    split at h
    · next hq => simp at h; exact .inr (.inl ⟨by simpa using hb, hq, h.symm⟩)
    · next q rest hq =>
      simp only [runRequest] at h
      split at h
      · simp at h
      · next i hi => exact .inr (.inr ⟨q, rest, i, by simpa using hb, hq, hi, h⟩)

end Sys2Proof.Machine
end

