-- ==== Sys2Proof/Laws/Init.lean ====
section
/-!
SUPPORT. INIT: after its first action it makes port requests and advances STEP, and what it sends when it succeeds.
-/
namespace Sys2Proof.Machine

open Sys2Proof

/-- INIT after its first action, PORT_BOUND <- 1. -/
def initTail (p : Config.Params) (bl : Bit) : List Action := (initActions p bl).tail

theorem initActions_eq (p : Config.Params) (bl : Bit) : initActions p bl = .bindPort :: initTail p bl := rfl

theorem run_init (p : Config.Params) (bl : Bit) (s : State) :
    run (initActions p bl) s = run (initTail p bl) { s with portBound := true } := rfl

/-- A port request or an advance of STEP. -/
def isInitAction (a : Action) : Bool :=
  match a with
  | .portInit | .write _ _ | .delay _ | .setStep _ => true
  | .bindPort | .setRow _ | .setCol _ | .setIdx _ | .raise _ => false

theorem initTail_isInitAction (p : Config.Params) (bl : Bit) : ∀ a ∈ initTail p bl, isInitAction a = true := by
  simp [initTail, initActions, initCommandActions, initCommands, sendCommandActions, sendMessageActions,
    sendNibbleActions, sendByteActions, isInitAction]

theorem initActions_no_raise (p : Config.Params) (bl : Bit) : ∀ c, Action.raise c ∉ initActions p bl := by
  intro c hc
  rw [initActions_eq] at hc
  simp only [List.mem_cons, reduceCtorEq, false_or] at hc
  simpa [isInitAction] using initTail_isInitAction _ _ _ hc

/-- The events of an INIT that succeeds (R163). -/
theorem successEvents_init (p : Config.Params) (bl : Bit) : successEvents (initActions p bl) = initEvents p bl := by
  simp [initActions, initEvents, initCommandActions, initCommands, actionEvents, Config.tPowerOn, Config.tCmd,
    Config.tBoot1, Config.tBoot2, Config.bootNibble, Config.fourBitNibble]

theorem answersNeeded_initTail (p : Config.Params) (bl : Bit) : answersNeeded (initTail p bl) = 33 := by
  simp [initTail, initActions, initCommandActions, initCommands, actionAnswers]

theorem delaysNeeded_initTail (p : Config.Params) (bl : Bit) : delaysNeeded (initTail p bl) = 41 := by
  simp [initTail, initActions, initCommandActions, initCommands, actionDelays]

/-- STEP is past the last step at the end (log 9). -/
theorem initStep_afterActions_init (p : Config.Params) (bl : Bit) (s : State) :
    (afterActions (initTail p bl) s).initStep = 13 := by
  obtain ⟨pre, hpre⟩ : ∃ pre, initTail p bl = pre ++ [.setStep 13] := by
    refine ⟨(initTail p bl).dropLast, ?_⟩
    simp [initTail, initActions, initCommandActions, initCommands, sendCommandActions, sendMessageActions,
      sendNibbleActions, sendByteActions]
  rw [hpre, afterActions_append]; rfl

/-- The events of INIT start with `portInit` and have no other one. -/
theorem initEvents_head (p : Config.Params) (bl : Bit) :
    ∃ events, initEvents p bl = .portInit true :: events ∧ ∀ r, PortEvent.portInit r ∉ events :=
  ⟨(initEvents p bl).tail, by simp [initEvents], by
    intro r; simp [initEvents, nibbleEvents, frameEvents, commandEvents, messageEvents]⟩

end Sys2Proof.Machine
end

