-- ==== Sys2Proof/Laws/Number.lean ====
section
/-!
SUPPORT. SPLIT and the decimal digits: which numbers SPLIT accepts, that rounding gives a nearest number of the
precision, and what the two parts of a magnitude are.
-/
namespace Sys2Proof.Machine

open Sys2Proof

/-! ### Decimal digits (R223) -/

/-- The digits written before `tail` are decimal digit characters that stand for the number, without a leading zero. -/
theorem digitsOnto_spec (fuel n : Nat) (tail : List Byte) (h : n < fuel) : ∃ ds, digitsOnto fuel n tail = ds ++ tail ∧
    (∀ d ∈ ds, 0x30 ≤ d.toNat ∧ d.toNat ≤ 0x39) ∧ (0 < n → ds.head? ≠ some 0x30) ∧ ds ≠ [] ∧ decimalValue ds = n := by
  induction fuel generalizing n tail with
  | zero => omega
  | succ k ih =>
    have hd : ∀ d < 10, (digitChar d).toNat = 0x30 + d := by decide
    simp only [digitsOnto]
    split
    · next h10 => 
      refine ⟨[digitChar n], rfl, by simp [hd n h10]; omega, ?_, by simp, by simp [decimalValue, hd n h10]⟩
      intro hp; simp; intro e; have := congrArg BitVec.toNat e; rw [hd n h10] at this; simp at this; omega
    · next h10 => 
      obtain ⟨ds, e, h1, h2, h3, h4⟩ := ih (n/10) (digitChar (n % 10) :: tail) (by omega)
      refine ⟨ds ++ [digitChar (n % 10)], by simp [e], ?_, ?_, by simp, ?_⟩
      · intro d hm
        rcases List.mem_append.1 hm with hm | hm
        · exact h1 d hm
        · simp at hm; subst hm; rw [hd _ (by omega)]; omega
      · intro _
        obtain ⟨x, xs, rfl⟩ := List.exists_cons_of_ne_nil h3
        exact h2 (by omega)
      · simp only [decimalValue, List.foldl_append] at h4 ⊢
        rw [h4]; simp [hd (n % 10) (by omega)]; omega

/-! ### Which numbers are accepted (R221) -/

theorem fitsSigned_iff {w : Nat} {i : Int} : fitsSigned w i = true ↔ ¬ (i < -2 ^ (w - 1) ∨ 2 ^ (w - 1) ≤ i) := by
  simp [fitsSigned]

/-- A width of 0 bits is treated as a width of 1 bit (log 10). -/
theorem fitsSigned_zero : fitsSigned 0 = fitsSigned 1 := rfl

theorem split_ok_iff {p : Config.Params} {num : BitVec 64} {parts : Int × Int} :
    split p num = .ok parts ↔
      splitNumber p.floatFormat num = some parts ∧ fitsSigned p.intWidth parts.1 = true := by
  simp only [split]
  cases splitNumber p.floatFormat num with
  | none => simp
  | some q => simp only; split <;> simp <;> aesop

/-! ### Rounding (R222) -/

theorem bitLength_spec {n : Nat} (h : n ≠ 0) : 2 ^ (bitLength n - 1) ≤ n ∧ n < 2 ^ bitLength n := by
  simp only [bitLength, if_neg h, Nat.add_sub_cancel]
  exact ⟨Nat.log2_self_le h, Nat.lt_log2_self⟩

/-- Rounding keeps a number that fits the precision, and takes any other to the nearer of its two neighbours with that
many bits. -/
theorem roundToPrecision_cases (precision n : Nat) (hp : 0 < precision) :
    (n < 2 ^ precision ∧ roundToPrecision precision n = n) ∨
    (∃ e k : Nat, 0 < e ∧ 2 ^ (precision - 1) ≤ k ∧ k < 2 ^ precision ∧ k * 2 ^ e ≤ n ∧ n < (k + 1) * 2 ^ e ∧
      ((roundToPrecision precision n = k * 2 ^ e ∧ 2 * (n - k * 2 ^ e) ≤ 2 ^ e) ∨
       (roundToPrecision precision n = (k + 1) * 2 ^ e ∧ 2 ^ e ≤ 2 * (n - k * 2 ^ e)))) := by
  by_cases h0 : n = 0
  · subst h0; left; exact ⟨by positivity, by simp [roundToPrecision, bitLength]⟩
  obtain ⟨hlo, hhi⟩ := bitLength_spec h0
  simp only [roundToPrecision]
  by_cases he : bitLength n - precision = 0
  · left
    exact ⟨lt_of_lt_of_le hhi (Nat.pow_le_pow_right (by norm_num) (by omega)), by rw [if_pos he]⟩
  · right
    have hb : bitLength n = precision + (bitLength n - precision) := by omega
    obtain ⟨e, hee⟩ : ∃ e, e = bitLength n - precision := ⟨_, rfl⟩
    rw [← hee] at he hb ⊢
    have he0 : 0 < e := Nat.pos_of_ne_zero he
    have hpos : 0 < 2 ^ e := by positivity
    have hdm := Nat.div_add_mod n (2 ^ e)
    have hml := Nat.mod_lt n hpos
    have hhalf : 2 ^ e = 2 * 2 ^ (e - 1) := by rw [← Nat.pow_succ', show (e - 1).succ = e by omega]
    refine ⟨e, n / 2 ^ e, by omega, ?_, ?_, Nat.div_mul_le_self _ _, ?_, ?_⟩
    · rw [Nat.le_div_iff_mul_le hpos]
      refine le_trans ?_ hlo
      rw [hb, ← Nat.pow_add]; exact Nat.pow_le_pow_right (by norm_num) (by omega)
    · rw [Nat.div_lt_iff_lt_mul hpos, ← Nat.pow_add, ← hb]; exact hhi
    · rw [Nat.mul_comm, Nat.mul_add, Nat.mul_one]; omega
    · rw [if_neg he]
      have : n - n / 2 ^ e * 2 ^ e = n % 2 ^ e := by rw [Nat.mul_comm]; omega
      rw [this]
      split
      · next h => right; exact ⟨rfl, by omega⟩
      · next h => left; exact ⟨rfl, by omega⟩

/-- Rounding gives a nearest number of the precision. -/
theorem roundToPrecision_nearest (precision n : Nat) (hp : 0 < precision) :
    Nearest precision n (roundToPrecision precision n : Nat) := by
  rcases roundToPrecision_cases precision n hp with ⟨h, e⟩ | ⟨e, k, he, hk1, hk2, hl, hh, hr⟩
  · rw [e]
    refine ⟨⟨n, 0, ?_, by simp⟩, fun y _ => by simp⟩
    rw [abs_of_nonneg (by positivity)]; exact_mod_cast h
  · have two : (0:ℚ) < 2 ^ e := by positivity
    have hlq : (k:ℚ) * 2 ^ e ≤ n := by exact_mod_cast hl
    have hhq : (n:ℚ) < (k+1) * 2 ^ e := by exact_mod_cast hh
    have hd : |((roundToPrecision precision n : Nat) : ℚ) - n| ≤ n - k * 2 ^ e ∧
        |((roundToPrecision precision n : Nat) : ℚ) - n| ≤ (k+1) * 2 ^ e - n := by
      rcases hr with ⟨hr, hx⟩ | ⟨hr, hx⟩ <;> rw [hr]
      · have hxq : 2 * ((n:ℚ) - k * 2 ^ e) ≤ 2 ^ e := by
          have : 2 * n ≤ 2 ^ e + 2 * (k * 2 ^ e) := by omega
          have : (2:ℚ) * n ≤ 2 ^ e + 2 * (k * 2 ^ e) := by exact_mod_cast this
          linarith
        push_cast
        rw [abs_of_nonpos (by linarith)]
        constructor <;> linarith
      · have hxq : (2:ℚ) ^ e ≤ 2 * ((n:ℚ) - k * 2 ^ e) := by
          have : 2 ^ e + 2 * (k * 2 ^ e) ≤ 2 * n := by omega
          have : (2:ℚ) ^ e + 2 * (k * 2 ^ e) ≤ 2 * n := by exact_mod_cast this
          linarith
        push_cast
        rw [abs_of_nonneg (by linarith)]
        constructor <;> linarith
    refine ⟨?_, ?_⟩
    · rcases hr with ⟨hr, -⟩ | ⟨hr, -⟩ <;> rw [hr]
      · refine ⟨k, e, ?_, by push_cast; rfl⟩
        rw [abs_of_nonneg (by positivity)]; exact_mod_cast hk2
      · by_cases hk : k + 1 = 2 ^ precision
        · refine ⟨2 ^ (precision - 1), e + 1, ?_, ?_⟩
          · rw [abs_of_nonneg (by positivity)]
            exact pow_lt_pow_right₀ (by norm_num) (by omega)
          · rw [hk]; push_cast
            rw [zpow_add_one₀ (by norm_num), zpow_natCast, mul_comm ((2:ℚ)^e) 2, ← mul_assoc, ← pow_succ]
            congr 2; omega
        · refine ⟨k + 1, e, ?_, by push_cast; rfl⟩
          rw [abs_of_nonneg (by positivity)]
          have : k + 1 < 2 ^ precision := by omega
          exact_mod_cast this
    · rintro y ⟨m, j, hm, rfl⟩
      by_cases hj : (e : ℤ) ≤ j
      · -- a multiple of 2^e
        obtain ⟨d, hd'⟩ := Int.le.dest hj
        have hy : (m:ℚ) * 2 ^ j = ((m * 2 ^ d : ℤ) : ℚ) * 2 ^ e := by
          rw [← hd', zpow_add₀ (by norm_num), zpow_natCast, zpow_natCast]; push_cast; ring
        rw [hy]
        generalize m * 2 ^ d = t
        rcases le_or_gt t k with h | h
        · have : (t:ℚ) ≤ k := by exact_mod_cast h
          have : (t:ℚ) * 2 ^ e ≤ k * 2 ^ e := by gcongr
          rw [abs_of_nonpos (a := (t:ℚ) * 2 ^ e - n) (by linarith)]
          linarith [hd.1]
        · have : (k:ℚ) + 1 ≤ t := by exact_mod_cast h
          have : ((k:ℚ)+1) * 2 ^ e ≤ t * 2 ^ e := by gcongr
          rw [abs_of_nonneg (a := (t:ℚ) * 2 ^ e - n) (by linarith)]
          linarith [hd.2]
      · have h1 : (m:ℚ) * 2 ^ j ≤ 2 ^ precision * 2 ^ ((e:ℤ) - 1) := by
          have hm' : (m:ℚ) ≤ 2 ^ precision := by
            have := (le_abs_self m).trans hm.le
            exact_mod_cast this
          have hj' : (2:ℚ) ^ j ≤ 2 ^ ((e:ℤ) - 1) := zpow_le_zpow_right₀ (by norm_num) (by omega)
          exact mul_le_mul hm' hj' (by positivity) (by positivity)
        have h2 : (2:ℚ) ^ precision * 2 ^ ((e:ℤ) - 1) = 2 ^ (precision - 1) * 2 ^ e := by
          rw [zpow_sub_one₀ (by norm_num), zpow_natCast]
          obtain ⟨q, rfl⟩ : ∃ q, precision = q + 1 := ⟨precision - 1, by omega⟩
          rw [Nat.add_sub_cancel, pow_succ]; field_simp
        have h3 : (2:ℚ) ^ (precision - 1) * 2 ^ e ≤ k * 2 ^ e := by
          have : ((2 ^ (precision - 1) : ℕ) : ℚ) ≤ k := by exact_mod_cast hk1
          push_cast at this; gcongr
        rw [abs_of_nonpos (a := (m:ℚ) * 2 ^ j - n) (by linarith)]
        linarith [hd.1]

theorem Representable.scale {prec : Nat} {q : ℚ} (j : ℤ) (h : Representable prec q) : Representable prec (q * 2 ^ j) := by
  obtain ⟨m, k, hm, rfl⟩ := h
  exact ⟨m, k + j, hm, by rw [zpow_add₀ (by norm_num)]; ring⟩

theorem Nearest.scale {prec : Nat} {q x : ℚ} (j : ℤ) (h : Nearest prec q x) : Nearest prec (q * 2 ^ j) (x * 2 ^ j) := by
  refine ⟨h.1.scale j, fun y hy => ?_⟩
  have := h.2 _ (hy.scale (-j))
  have hpos : (0:ℚ) < 2 ^ j := by positivity
  rw [← sub_mul, abs_mul, abs_of_pos hpos]
  have e : y - q * 2 ^ j = (y * 2 ^ (-j) - q) * 2 ^ j := by
    rw [sub_mul, mul_assoc, ← zpow_add₀ (by norm_num)]; simp
  rw [e, abs_mul, abs_of_pos hpos]
  gcongr

theorem Representable.neg {prec : Nat} {q : ℚ} (h : Representable prec q) : Representable prec (-q) := by
  obtain ⟨m, k, hm, rfl⟩ := h
  exact ⟨-m, k, by simpa using hm, by push_cast; ring⟩

theorem Nearest.neg {prec : Nat} {q x : ℚ} (h : Nearest prec q x) : Nearest prec (-q) (-x) := by
  refine ⟨h.1.neg, fun y hy => ?_⟩
  have := h.2 _ hy.neg
  rw [show -x - -q = -(x - q) by ring, abs_neg]
  rwa [show -y - q = -(y - -q) by ring, abs_neg] at this

/-- A fraction below 1, times 100 and rounded, stays below 100 (R222). -/
theorem roundToPrecision_fraction_lt (prec f k : Nat) (hp : 8 ≤ prec) (hf : f < 2 ^ k) (hf2 : f < 2 ^ prec) :
    roundToPrecision prec (f * 100) < 100 * 2 ^ k := by
  have h := roundToPrecision_nearest prec (f * 100) (by omega)
  by_contra hc
  have hc : 100 * 2 ^ k ≤ roundToPrecision prec (f * 100) := by omega
  have hcq : (100:ℚ) * 2 ^ k ≤ (roundToPrecision prec (f * 100) : Nat) := by exact_mod_cast hc
  have hy : Representable prec ((2 ^ prec * 100 / 128 - 1 : ℚ) * 2 ^ ((k:ℤ) + 7 - prec)) := by
    obtain ⟨q, rfl⟩ : ∃ q, prec = q + 7 := ⟨prec - 7, by omega⟩
    refine ⟨2 ^ q * 100 - 1, _, ?_, by push_cast; congr 1; rw [pow_add]; ring⟩
    have : (1:ℤ) ≤ 2 ^ q := by have := Nat.one_le_two_pow (n := q); exact_mod_cast this
    rw [abs_of_nonneg (by linarith), pow_add]; linarith
  have h2 := h.2 _ hy
  have e : ((2 ^ prec * 100 / 128 - 1 : ℚ) * 2 ^ ((k:ℤ) + 7 - prec)) = 100 * 2 ^ k - 2 ^ ((k:ℤ) + 7 - prec) := by
    rw [zpow_sub₀ (by norm_num), zpow_add₀ (by norm_num), zpow_natCast, zpow_natCast]
    field_simp; ring
  rw [e] at h2
  set u : ℚ := 2 ^ ((k:ℤ) + 7 - prec) with hu
  have hupos : 0 < u := by positivity
  have hfq : ((f * 100 : Nat) : ℚ) = f * 100 := by push_cast; rfl
  rw [hfq] at h2
  have hf1 : (f:ℚ) + 1 ≤ 2 ^ k := by exact_mod_cast hf
  rw [abs_of_nonneg (by linarith)] at h2
  by_cases hk : k ≤ prec
  · have hu' : u ≤ 128 := by
      rw [hu, show (128:ℚ) = 2 ^ (7:ℤ) by norm_num]
      exact zpow_le_zpow_right₀ (by norm_num) (by omega)
    rcases abs_cases (100 * 2 ^ k - u - (f:ℚ) * 100) with h3 | h3 <;> rw [h3.1] at h2 <;> linarith
  · have h4 : (f:ℚ) ≤ 2 ^ k / 2 := by
      have : (f:ℚ) < 2 ^ prec := by exact_mod_cast hf2
      have h5 : (2:ℚ) ^ prec ≤ 2 ^ (k - 1) := pow_le_pow_right₀ (by norm_num) (by omega)
      have h6 : (2:ℚ) ^ k = 2 ^ (k-1) * 2 := by rw [← pow_succ]; congr 1; omega
      linarith
    have hu' : u ≤ 2 ^ k / 2 := by
      have : (2:ℚ) ^ k / 2 = 2 ^ ((k:ℤ) - 1) := by rw [zpow_sub_one₀ (by norm_num), zpow_natCast]; ring
      rw [this, hu]
      exact zpow_le_zpow_right₀ (by norm_num) (by omega)
    have : (1:ℚ) ≤ 2 ^ k := by exact_mod_cast Nat.one_le_two_pow
    rcases abs_cases (100 * 2 ^ k - u - (f:ℚ) * 100) with h3 | h3 <;> rw [h3.1] at h2 <;> linarith

/-- The integer part of a quotient by a power of two. -/
theorem floor_div_pow (n k : Nat) : ⌊(n:ℚ) / 2 ^ k⌋ = ((n / 2 ^ k : Nat) : ℤ) := by
  have := Rat.floor_intCast_div_natCast (n:ℤ) (2^k)
  push_cast at this ⊢; exact this

/-- What the two parts of a magnitude are (R221, R222). -/
theorem splitMagnitude_spec (prec sig : Nat) (exp : ℤ) (hp : 8 ≤ prec) (hs : sig < 2 ^ prec) :
    ∃ x : ℚ, 0 ≤ x ∧ Nearest prec (((sig:ℚ) * 2 ^ exp - (splitMagnitude prec sig exp).1) * 100) x ∧
      ((splitMagnitude prec sig exp).1 : ℤ) = ⌊(sig:ℚ) * 2 ^ exp⌋ ∧ ((splitMagnitude prec sig exp).2 : ℤ) = ⌊x⌋ ∧ (splitMagnitude prec sig exp).2 ≤ 99 := by
  simp only [splitMagnitude]
  by_cases h : 0 ≤ exp ∨ sig = 0
  · rw [if_pos h]
    have e : (sig:ℚ) * 2 ^ exp = ((sig * 2 ^ exp.toNat : Nat) : ℚ) := by
      rcases h with h | rfl
      · push_cast; rw [← zpow_natCast, Int.toNat_of_nonneg h]
      · simp
    refine ⟨0, le_rfl, ?_, ?_, by simp, by simp⟩
    · rw [e, sub_self, zero_mul]
      exact ⟨⟨0, 0, by simp, by simp⟩, fun y _ => by simp⟩
    · rw [e, Int.floor_natCast]
  · rw [if_neg h]
    have hexp : exp = -((-exp).toNat : ℤ) := by omega
    generalize (-exp).toNat = k at *
    subst hexp
    have hs2 : (0:ℚ) < 2 ^ k := by positivity
    have hsn : 0 < 2 ^ k := by positivity
    have hz : (2:ℚ) ^ (-(k:ℤ)) = 1 / 2 ^ k := by rw [zpow_neg, zpow_natCast]; ring
    have hdm : (sig:ℚ) = (sig / 2 ^ k : Nat) * 2 ^ k + (sig % 2 ^ k : Nat) := by
      have := Nat.div_add_mod sig (2 ^ k); rw [Nat.mul_comm] at this; exact_mod_cast this.symm
    have hfl : (sig % 2 ^ k) < 2 ^ k := Nat.mod_lt _ hsn
    refine ⟨(roundToPrecision prec (sig % 2 ^ k * 100) : Nat) * 2 ^ (-(k:ℤ)), by positivity, ?_, ?_, ?_, ?_⟩
    · have := (roundToPrecision_nearest prec (sig % 2 ^ k * 100) (by omega)).scale (-(k:ℤ))
      convert this using 1
      simp only [hz]
      conv_lhs => rw [hdm]
      push_cast; field_simp; ring
    · rw [hz, mul_one_div]; exact (floor_div_pow sig k).symm
    · rw [hz, mul_one_div]; exact (floor_div_pow _ k).symm
    · have := roundToPrecision_fraction_lt prec (sig % 2 ^ k) k hp hfl (lt_of_le_of_lt (Nat.mod_le _ _) hs)
      have := (Nat.div_lt_iff_lt_mul hsn).2 this
      omega

end Sys2Proof.Machine
end

