-- ==== Sys2Proof/Laws/PerInstr.lean ====
section
/-!
SUPPORT. One lemma per instruction: its encoded form has the length and the fixed bits of its row of the opcode table.
-/
namespace Sys2Proof.Laws

open Sys2Proof

/-- The length in bits of an encoded form, and its bits as the opcode table numbers them. -/
def TableRow.word : Encoding → Nat × Nat
  | .cmd24 w => (24, w.toNat)
  | .inner (.bytePair w) => (16, w.toNat)
  | .inner (.nibblePair w) => (16, w.toNat)
  | .inner (.message w) => (32, w.toNat)
  | .inner (.command w) => (8, w.toNat)

/-- The length in bits that the opcode table gives a row, and the row's fixed fields (hi, lo, value). -/
def TableRow.row : Instr → Nat × List (Nat × Nat × Nat)
  | .init => (24, [(23, 0, 0)])
  | .clear => (24, [(23, 0, 65536)])
  | .setCursor _ _ => (24, [(23, 16, 2)])
  | .printText _ => (24, [(23, 1, 98304)])
  | .printFormatted => (24, [(23, 0, 262144)])
  | .printChar _ => (24, [(23, 8, 1280)])
  | .sendByte _ => (16, [(10, 10, 1), (2, 2, 0)])
  | .sendNibble _ _ => (16, [(10, 9, 2), (2, 1, 0)])
  | .sendMessage _ _ => (32, [(26, 25, 2), (18, 17, 0), (10, 9, 2), (2, 1, 0)])
  | .cmdClearDisplay => (8, [(7, 0, 1)])
  | .cmdReturnHome => (8, [(7, 0, 2)])
  | .cmdEntryModeInc => (8, [(7, 0, 6)])
  | .cmdDisplayOff => (8, [(7, 0, 8)])
  | .cmdDisplayOn => (8, [(7, 0, 12)])
  | .cmdFunctionSet4Bit => (8, [(7, 0, 40)])
  | .setDdramAddr _ => (8, [(7, 7, 1)])

/-- The encoded form of an instruction has the length and the fixed fields of its row. -/
def TableRow.Statement (i : Instr) : Prop :=
  (TableRow.word (encode i)).1 = (TableRow.row i).1 ∧
  ∀ f ∈ (TableRow.row i).2, (TableRow.word (encode i)).2 / 2 ^ f.2.1 % 2 ^ (f.1 - f.2.1 + 1) = f.2.2

theorem TableRow.init : TableRow.Statement .init := ⟨rfl, by decide⟩
theorem TableRow.clear : TableRow.Statement .clear := ⟨rfl, by decide⟩
theorem TableRow.setCursor (row column : Byte) : TableRow.Statement (.setCursor row column) := by
  refine ⟨rfl, ?_⟩
  have hr := row.isLt
  have hc := column.isLt
  have e : (0x02#8 ++ row ++ column).toNat = 131072 + row.toNat * 256 + column.toNat := by
    simp only [BitVec.toNat_append, BitVec.toNat_ofNat, Nat.shiftLeft_eq]
    rw [Nat.mul_comm (2 % 2 ^ 8) (2 ^ 8), ← Nat.two_pow_add_eq_or_of_lt hr, Nat.mul_comm _ (2 ^ 8),
      ← Nat.two_pow_add_eq_or_of_lt hc]
    omega
  simp only [TableRow.row, TableRow.word, encode, e, List.mem_cons, List.not_mem_nil, or_false, forall_eq]
  omega
theorem TableRow.printText (v : Bit) : TableRow.Statement (.printText v) := by
  revert v; unfold TableRow.Statement; decide
theorem TableRow.printFormatted : TableRow.Statement .printFormatted := ⟨rfl, by decide⟩
theorem TableRow.printChar (character : Byte) : TableRow.Statement (.printChar character) := by
  revert character; unfold TableRow.Statement; decide
theorem TableRow.sendByte (frame : Byte) : TableRow.Statement (.sendByte frame) := by
  revert frame; unfold TableRow.Statement; decide
theorem TableRow.sendNibble (v4 : Nibble) (rs : Bit) : TableRow.Statement (.sendNibble v4 rs) := by
  revert v4 rs; unfold TableRow.Statement; decide
theorem TableRow.sendMessage (v8 : Byte) (rs : Bit) : TableRow.Statement (.sendMessage v8 rs) := by
  revert v8 rs; unfold TableRow.Statement; decide +kernel
theorem TableRow.cmdClearDisplay : TableRow.Statement .cmdClearDisplay := ⟨rfl, by decide⟩
theorem TableRow.cmdReturnHome : TableRow.Statement .cmdReturnHome := ⟨rfl, by decide⟩
theorem TableRow.cmdEntryModeInc : TableRow.Statement .cmdEntryModeInc := ⟨rfl, by decide⟩
theorem TableRow.cmdDisplayOff : TableRow.Statement .cmdDisplayOff := ⟨rfl, by decide⟩
theorem TableRow.cmdDisplayOn : TableRow.Statement .cmdDisplayOn := ⟨rfl, by decide⟩
theorem TableRow.cmdFunctionSet4Bit : TableRow.Statement .cmdFunctionSet4Bit := ⟨rfl, by decide⟩
theorem TableRow.setDdramAddr (address : BitVec 7) : TableRow.Statement (.setDdramAddr address) := by
  revert address; unfold TableRow.Statement; decide

end Sys2Proof.Laws
end

