-- ==== Sys2Proof/Laws/PrintText.lean ====
section
/-!
SUPPORT. PRINT_TEXT as a whole: what a text that is printed needs of the port and leaves, which actions it is made
of, and how printing goes on after a text.
-/
namespace Sys2Proof.Machine

open Sys2Proof

theorem exec_printText_one (s : State) :
    exec (.printText 1) s = perform (printTextActions s.params s.bl (some s.text)) s := rfl

theorem needs_printText (p : Config.Params) (bl : Bit) (u : List Byte) :
    answersNeeded (printTextActions p bl (some u)) = 8 + answersNeeded (loopFrom p bl loopStart u) ∧
    delaysNeeded (printTextActions p bl (some u)) = 8 + delaysNeeded (loopFrom p bl loopStart u) := by
  rw [printTextActions_some]
  simp [clearActions, setCursorActions, actionAnswers, actionDelays]
  omega

/-- The state after the text `u` has been printed. -/
def printed (u : List Byte) (s : State) : State :=
  deliver .ok (withCells (loopEnd s.params loopStart u) { s with
    text := u
    trace := s.trace ++ preambleEvents s.params s.bl ++ successEvents (loopFrom s.params s.bl loopStart u)
    answers := s.answers.drop (8 + answersNeeded (loopFrom s.params s.bl loopStart u))
    delayReturns := s.delayReturns - (8 + delaysNeeded (loopFrom s.params s.bl loopStart u)) })

/-- The port serves the printing of the text `u`. -/
abbrev PortPrints (u : List Byte) (s : State) : Prop :=
  PortServes (8 + answersNeeded (loopFrom s.params s.bl loopStart u))
    (8 + delaysNeeded (loopFrom s.params s.bl loopStart u)) s

theorem perform_printText {s : State} {u : List Byte} (hs : Ready s) (hp : PortPrints u s) :
    exec (.printText 1) { s with text := u } = .next (printed u s) := by
  have hs' : Ready { s with text := u } := hs
  have hp' : PortServes (answersNeeded (printTextActions s.params s.bl (some u)))
      (delaysNeeded (printTextActions s.params s.bl (some u))) { s with text := u } := by
    rw [(needs_printText _ _ _).1, (needs_printText _ _ _).2]; exact hp
  rw [exec_printText_one]
  exact (perform_of_serves (printTextActions_no_raise _ _ _) hs' hp').trans (by rw [afterActions_printText]; rfl)

/-- A text is printed exactly when the port serves it. -/
theorem printsTo_iff {s t : State} {u : List Byte} (hs : Ready s) :
    PrintsTo s u t ↔ PortPrints u s ∧ t = printed u s := by
  constructor
  · rintro ⟨h, hok⟩
    rw [exec_printText_one] at h
    obtain ⟨_, rfl, hr⟩ := perform_ok h hok
    have hserves := (run_done hr).2
    rw [(needs_printText _ _ _).1, (needs_printText _ _ _).2] at hserves
    exact ⟨hserves, by rw [afterActions_printText]; rfl⟩
  · rintro ⟨hp, rfl⟩
    exact ⟨perform_printText hs hp, rfl⟩

/-- A text is printed only by an idle LCD4 with a port. -/
theorem ready_of_printsTo {s t : State} {u : List Byte} (h : PrintsTo s u t) : Ready s := by
  obtain ⟨h, hok⟩ := h
  obtain ⟨hb, ht, hr⟩ := perform_ok h hok
  refine ⟨hb, ?_⟩
  by_contra hc
  have hc : s.portBound = false := by simpa using hc
  change run (printTextActions s.params s.bl (some u)) { s with text := u } = _ at hr
  simp only [printTextActions, clearActions, sendCommandActions, sendMessageActions, sendByteActions, List.cons_append,
    List.nil_append, run, act, portWrite, requestAnswer, hc] at hr
  simp at hr

/-! ### Which actions it is made of -/

/-- A write, a delay, a write of ROW, COL or IDX, or a raise. -/
def isTextAction (a : Action) : Bool :=
  match a with
  | .write _ _ | .delay _ | .setRow _ | .setCol _ | .setIdx _ | .raise _ => true
  | .bindPort | .portInit | .setStep _ => false

theorem loopFrom_isTextAction (p : Config.Params) (bl : Bit) (c : LoopCells) (u : List Byte) :
    ∀ a ∈ loopFrom p bl c u, isTextAction a = true := by
  induction u generalizing c with
  | nil => simp [loopFrom, textLoopActions]
  | cons ch rest ih =>
    simp only [loopFrom] at ih
    simp only [loopFrom, textLoopActions]
    have h1 := ih ⟨c.row ^^^ 1, 0, c.idx + 1⟩
    have h2 := ih ⟨1, 0, c.idx + 1⟩
    have h3 := ih ⟨c.row, c.col + 1, c.idx + 1⟩
    simp only at h1 h2 h3
    split
    · simp
    · split
      · simpa [setCursorActions, sendCommandActions, sendMessageActions, sendByteActions, isTextAction] using h1
      · split
        · split
          · rw [wrapActions]
            split
            all_goals
              simpa [printCharActions, sendDataActions, setCursorActions, sendCommandActions, sendMessageActions,
                sendByteActions, isTextAction] using h2
          · simp [printCharActions, sendDataActions, sendMessageActions, sendByteActions, isTextAction]
        · simpa [printCharActions, sendDataActions, sendMessageActions, sendByteActions, isTextAction] using h3

theorem printTextActions_isTextAction (p : Config.Params) (bl : Bit) (text : Option (List Byte)) :
    ∀ a ∈ printTextActions p bl text, isTextAction a = true := by
  cases text with
  | none => simp [printTextActions, isTextAction]
  | some u =>
    intro a ha
    rw [printTextActions_some, List.mem_append] at ha
    rcases ha with ha | ha
    · revert a
      simp [clearActions, setCursorActions, sendCommandActions, sendMessageActions, sendByteActions, isTextAction]
    · exact loopFrom_isTextAction _ _ _ _ a ha

/-! ### What it sends -/

theorem loopEnd_idx_le (p : Config.Params) (c : LoopCells) (u : List Byte) : c.idx ≤ (loopEnd p c u).idx := by
  induction u generalizing c with
  | nil => exact le_rfl
  | cons ch rest ih =>
    simp only [loopEnd]
    have h1 := ih ⟨c.row ^^^ 1, 0, c.idx + 1⟩
    have h2 := ih ⟨1, 0, c.idx + 1⟩
    have h3 := ih ⟨c.row, c.col + 1, c.idx + 1⟩
    split
    · exact le_rfl
    · split
      · simp only at h1; omega
      · split
        · split
          · simp only at h2; omega
          · exact le_rfl
        · simp only at h3; omega

/-- How many characters have been processed when the loop ends with these cells. -/
def loopCount (e : LoopCells) : Nat := if e.col = 16 then e.idx + 1 else e.idx

theorem loopCount_ge (p : Config.Params) (c : LoopCells) (u : List Byte) : c.idx ≤ loopCount (loopEnd p c u) := by
  have := loopEnd_idx_le p c u; simp only [loopCount]; split <;> omega

/-- COL as a number. -/
theorem col_toNat : ∀ col : BitVec 5, col < 16 →
    ((col + 1 = Config.cols) ↔ col.toNat + 1 = 16) ∧ (col + 1 ≠ Config.cols → (col + 1).toNat = col.toNat + 1) := by
  decide

/-- The loop sends whole messages: the characters it processes that are no newline as data, and a cursor command for
every newline and every wrap (R196, R197). -/
theorem loopFrom_messages (p : Config.Params) (bl : Bit) (c : LoopCells) (u : List Byte) (hu : p.nul ∉ u)
    (hc : c.col < 16) :
    ∃ messages : List (Bool × Byte),
      successEvents (loopFrom p bl c u) =
        messages.flatMap (fun m => if m.1 then dataEvents p bl m.2 else commandEvents p bl m.2) ∧
      (messages.filter (·.1)).map (·.2) =
        (u.take (loopCount (loopEnd p c u) - c.idx)).filter (· ≠ p.newline) ∧
      (∀ m ∈ messages, m.1 = true → Ordinary p m.2) ∧
      (∀ m ∈ messages, m.1 = false → m.2 = 0x80 ∨ m.2 = 0xC0) ∧
      messages.length =
        ((u.take (loopCount (loopEnd p c u) - c.idx)).filter (· ≠ p.newline)).length
        + (u.take (loopCount (loopEnd p c u) - c.idx)).count p.newline
        + (if p.wrapRepositions then wraps p c.row c.col.toNat (u.take (loopCount (loopEnd p c u) - c.idx)) else 0) := by
  induction u generalizing c with
  | nil => exact ⟨[], by simp [loopFrom, textLoopActions, wraps]⟩
  | cons ch rest ih =>
    have hrow : ∀ r : Bit, ddramCommand (ddramAddr (rowOperand r) 0) = 0x80 ∨ ddramCommand (ddramAddr (rowOperand r) 0) = 0xC0 := by decide
    have hn : ¬ ch = p.nul := fun e => hu (by simp [e])
    have hr : p.nul ∉ rest := fun e => hu (by simp [e])
    have step : ∀ k i, i + 1 ≤ k → (ch :: rest).take (k - i) = ch :: rest.take (k - (i+1)) := by
      intro k i h; rw [show k - i = (k - (i+1)) + 1 by omega]; rfl
    obtain ⟨hcol, hcol'⟩ := col_toNat c.col hc
    simp only [loopFrom, textLoopActions, loopEnd] at ih ⊢
    by_cases h2 : ch = p.newline
    · obtain ⟨ms, e, m1, m2, m3, m4⟩ := ih ⟨c.row ^^^ 1, 0, c.idx + 1⟩ hr zero_lt_cols
      have hk := loopCount_ge p ⟨c.row ^^^ 1, 0, c.idx + 1⟩ rest
      simp only at e m1 m4 hk
      simp only [if_neg hn, if_pos h2, step _ _ hk]
      refine ⟨(false, ddramCommand (ddramAddr (rowOperand (c.row ^^^ 1)) 0)) :: ms, ?_, ?_, ?_, ?_, ?_⟩
      · simp [setCursorActions, actionEvents, ← e]
      · simpa [h2] using m1
      · simpa using m2
      · intro m hm
        rcases List.mem_cons.1 hm with rfl | hm
        · intro _; exact hrow _
        · exact m3 m hm
      · simp [h2, wraps, m4]; omega
    · by_cases h3 : c.col + 1 = Config.cols
      · have h3' := hcol.1 h3
        by_cases h4 : c.row = 0
        · obtain ⟨ms, e, m1, m2, m3, m4⟩ := ih ⟨1, 0, c.idx + 1⟩ hr zero_lt_cols
          have hk := loopCount_ge p ⟨1, 0, c.idx + 1⟩ rest
          simp only at e m1 m4 hk
          simp only [if_neg hn, if_neg h2, if_pos h3, if_pos h4, step _ _ hk]
          by_cases hw : p.wrapRepositions
          · refine ⟨(true, ch) :: (false, 0xC0) :: ms, ?_, ?_, ?_, ?_, ?_⟩
            · have hw : ddramCommand (ddramAddr 1 0) = 0xC0 := by decide
              simp [printCharActions, wrapActions, setCursorActions, actionEvents, ← e, *]
              rfl
            · simpa [h2] using m1
            · intro m hm
              rcases List.mem_cons.1 hm with rfl | hm
              · intro _; exact ⟨hn, h2⟩
              · rcases List.mem_cons.1 hm with rfl | hm
                · simp
                · exact m2 m hm
            · intro m hm
              rcases List.mem_cons.1 hm with rfl | hm
              · simp
              · rcases List.mem_cons.1 hm with rfl | hm
                · simp
                · exact m3 m hm
            · simp [hw] at m4
              simp [h2, wraps, m4, hw, h3', h4]; omega
          · refine ⟨(true, ch) :: ms, ?_, ?_, ?_, ?_, ?_⟩
            · simp [printCharActions, wrapActions, actionEvents, ← e, hw]
            · simpa [h2] using m1
            · intro m hm
              rcases List.mem_cons.1 hm with rfl | hm
              · intro _; exact ⟨hn, h2⟩
              · exact m2 m hm
            · intro m hm
              rcases List.mem_cons.1 hm with rfl | hm
              · simp
              · exact m3 m hm
            · simp [hw] at m4
              simp [h2, m4, hw]; omega
        · simp only [if_neg hn, if_neg h2, if_pos h3, if_neg h4]
          have hk : loopCount { c with col := c.col + 1 } - c.idx = 1 := by
            simp only [loopCount]; rw [if_pos (show c.col + 1 = 16 from h3)]; omega
          rw [hk]
          refine ⟨[(true, ch)], ?_, ?_, ?_, ?_, ?_⟩
          · simp [printCharActions, actionEvents]
          · simp [h2]
          · simp; exact ⟨hn, h2⟩
          · simp
          · simp [h2, wraps, h3']; intro _; exact h4
      · have h3' : ¬ c.col.toNat + 1 = 16 := fun h => h3 (hcol.2 h)
        obtain ⟨ms, e, m1, m2, m3, m4⟩ := ih ⟨c.row, c.col + 1, c.idx + 1⟩ hr (col_succ_lt hc h3)
        have hk := loopCount_ge p ⟨c.row, c.col + 1, c.idx + 1⟩ rest
        simp only at e m1 m4 hk
        simp only [if_neg hn, if_neg h2, if_neg h3, step _ _ hk]
        refine ⟨(true, ch) :: ms, ?_, ?_, ?_, ?_, ?_⟩
        · simp [printCharActions, actionEvents]
          exact e
        · simpa [h2] using m1
        · intro m hm
          rcases List.mem_cons.1 hm with rfl | hm
          · intro _; exact ⟨hn, h2⟩
          · exact m2 m hm
        · intro m hm
          rcases List.mem_cons.1 hm with rfl | hm
          · simp
          · exact m3 m hm
        · rw [hcol' h3] at m4
          simp [h2, wraps, m4, h3']; omega

/-! ### Going on after a text -/

/-- ROW, COL and IDX of a state. -/
def cellsOf (t : State) : LoopCells := ⟨t.row, t.col, t.idx⟩

/-- Printing a longer text, after a first part without NUL that is not truncated: the loop goes on from the cells the
first part leaves. -/
theorem printText_extend {s t : State} {u v : List Byte} (hs : Ready s) (hu : s.params.nul ∉ u) (h : PrintsTo s u t)
    (hc : t.col ≠ 16)
    (hp : PortServes (answersNeeded (loopFrom s.params s.bl (cellsOf t) v))
      (delaysNeeded (loopFrom s.params s.bl (cellsOf t) v)) t) :
    exec (.printText 1) { s with text := u ++ v } = .next (deliver .ok (withCells (loopEnd s.params (cellsOf t) v)
      { t with
        text := u ++ v
        trace := t.trace ++ successEvents (loopFrom s.params s.bl (cellsOf t) v)
        answers := t.answers.drop (answersNeeded (loopFrom s.params s.bl (cellsOf t) v))
        delayReturns := t.delayReturns - delaysNeeded (loopFrom s.params s.bl (cellsOf t) v) })) := by
  obtain ⟨hp1, ht⟩ := (printsTo_iff hs).1 h
  have hcells : cellsOf t = loopEnd s.params loopStart u := by rw [ht]; rfl
  have hcol : (loopEnd s.params loopStart u).col ≠ 16 := by rw [← hcells]; exact hc
  have hl : loopFrom s.params s.bl loopStart (u ++ v) =
      loopFrom s.params s.bl loopStart u ++ loopFrom s.params s.bl (cellsOf t) v := by
    rw [loopFrom_append _ _ _ _ _ hu zero_lt_cols, if_neg hcol, hcells]
  have he : loopEnd s.params loopStart (u ++ v) = loopEnd s.params (cellsOf t) v := by
    rw [loopEnd_append _ _ _ _ hu zero_lt_cols, if_neg hcol, hcells]
  rw [perform_printText hs (by
    simp only [PortPrints, hl, answersNeeded_append, delaysNeeded_append, ← Nat.add_assoc]
    exact PortServes_add hp1 (by rw [ht]; rfl) (by rw [ht]; rfl) hp)]
  rw [printed]
  simp only [hl, he, Host.Outcome.next.injEq]
  rw [ht]
  simp only [printed, withCells, deliver, successEvents_append, answersNeeded_append, delaysNeeded_append, cellsOf,
    List.drop_drop, Nat.sub_sub, List.append_assoc, Nat.add_assoc]

end Sys2Proof.Machine
end

