-- ==== Sys2Proof/Tests/Slice0.lean ====
section
/-!
SUPPORT. The model's own tests. Expected values are the spec's: words from the tables of R84, R87 and R91, traces from
the vectors of 95_test_vectors.md (named V-… and S… there). Then one witness for every statement with hypotheses.
-/
namespace Sys2Proof.Tests

open Sys2Proof Sys2Proof.Machine

/-! ### Helpers -/

/-- An idle LCD4 with a port that answers `answers` and returns from `delays` delays. -/
def withPort (answers : List Bool) (delays : Nat) : State :=
  { State.reset with portBound := true, answers := answers, delayReturns := delays }

/-- The same with a port that says yes `n` times. -/
def served (n : Nat) : State := withPort (List.replicate n true) n

/-- STATUS and the bytes written by an outcome. -/
def writes (o : Host.Outcome State Fault Refusal) : Option (Option Status × List Byte) :=
  (nextOf o).map fun t => (t.status, writesOf t.trace)

/-- STATUS and the trace of an outcome. -/
def events (o : Host.Outcome State Fault Refusal) : Option (Option Status × List PortEvent) :=
  (nextOf o).map fun t => (t.status, t.trace)

/-- A host operation in the queue of a served LCD4. -/
def queued (word : BitVec 24) : State := { served 8 with queue := [.host ⟨word, [], none, 0⟩] }

/-- The next state of an outcome that has one. -/
def after (o : Host.Outcome State Fault Refusal) : State := (nextOf o).getD State.reset

/-- An operation that waits: CLEAR whose port returns from its first write only. -/
def waiting : State := after (exec .clear (withPort [true] 0))

/-! ### WellFormed: one check, and an ill-formed term it refuses -/

theorem test_frame_with_enable_bit_is_ill_formed : (Instr.sendByte 0x3C).WellFormed = false := by decide
theorem test_frame_without_enable_bit_is_well_formed : (Instr.sendByte 0x38).WellFormed = true := by decide

/-! ### Decoding: every row's word written out from its pattern (R84, R87, R91) -/

theorem test_decode_init : decodeTableWord 24 0b000000000000000000000000 = some .init := by decide
theorem test_decode_clear : decodeTableWord 24 0b000000010000000000000000 = some .clear := by decide
theorem test_decode_setCursor : decodeTableWord 24 0b000000100000000100000101 = some (.setCursor 1 5) := by decide
theorem test_decode_printText : decodeTableWord 24 0b000000110000000000000001 = some (.printText 1) := by decide
theorem test_decode_printText_null : decodeTableWord 24 0b000000110000000000000000 = some (.printText 0) := by decide
theorem test_decode_printFormatted : decodeTableWord 24 0b000001000000000000000000 = some .printFormatted := by decide
theorem test_decode_printChar : decodeTableWord 24 0b000001010000000001001000 = some (.printChar 0x48) := by decide
theorem test_decode_sendByte : decodeTableWord 16 0b0011111000111010 = some (.sendByte 0x3A) := by decide
theorem test_decode_sendByte_alone :
    decode (.inner (.bytePair 0b0011110000111000)) = .ok (.sendByte 0x38) := by rfl
theorem test_decode_sendNibble : decodeTableWord 16 0b0011110000111000 = some (.sendNibble 0x3 0) := by decide
theorem test_decode_sendNibble_data : decodeTableWord 16 0b1111110111111001 = some (.sendNibble 0xF 1) := by decide
theorem test_decode_sendMessage :
    decodeTableWord 32 0b11001100110010000101110001011000 = some (.sendMessage 0xC5 0) := by decide
theorem test_decode_sendMessage_data :
    decodeTableWord 32 0b01001101010010010001110100011001 = some (.sendMessage 0x41 1) := by decide
theorem test_decode_cmdClearDisplay : decodeTableWord 8 0b00000001 = some .cmdClearDisplay := by decide
theorem test_decode_cmdReturnHome : decodeTableWord 8 0b00000010 = some .cmdReturnHome := by decide
theorem test_decode_cmdEntryModeInc : decodeTableWord 8 0b00000110 = some .cmdEntryModeInc := by decide
theorem test_decode_cmdDisplayOff : decodeTableWord 8 0b00001000 = some .cmdDisplayOff := by decide
theorem test_decode_cmdDisplayOn : decodeTableWord 8 0b00001100 = some .cmdDisplayOn := by decide
theorem test_decode_cmdFunctionSet4Bit : decodeTableWord 8 0b00101000 = some .cmdFunctionSet4Bit := by decide
theorem test_decode_setDdramAddr : decodeTableWord 8 0b11000101 = some (.setDdramAddr 0x45) := by decide

/-- Two port bytes that are no strobe pair, two frames with different register-selects, and an unused command. -/
theorem test_decode_rejects :
    decodeInner (.bytePair 0x3838) = .error .notStrobePair ∧ decodeInner (.nibblePair 0x3E3A) = .error .notStrobePair ∧
    decodeInner (.message 0x3C380D09) = .error .mixedControlBits ∧
    decodeInner (.command 0x04) = .error .unknownCommand := ⟨rfl, rfl, rfl, rfl⟩

/-- Fetching a table word and running it is one step (log 3): after INIT, a PUTC 'A'. -/
theorem test_withFetchWord :
    writes (step ((served 4).withFetchWord 24 0x050041)) = some (some .ok, [0x4D, 0x49, 0x1D, 0x19]) := by decide

/-! ### Instructions -/

/-- V-T5. -/
theorem test_sendByte_any_frame : events (exec (.sendByte 0xFF) (served 2)) =
    some (some .ok, [.write 0xFF true, .delay 1, .write 0xFB true, .delay 1]) := by decide
/-- V-T7: EN_POS = 1. -/
theorem test_sendByte_enPos_one :
    writes (exec (.sendByte 0x38) { served 2 with params := { Config.Params.default with enPos := .one } }) =
    some (some .ok, [0x3A, 0x38]) := by decide
/-- V-E4. -/
theorem test_sendNibble : writes (exec (.sendNibble 0xF 1) (served 2)) = some (some .ok, [0xFD, 0xF9]) := by decide
/-- V-E3: BL = 0. -/
theorem test_sendNibble_backlight_off :
    writes (exec (.sendNibble 0x3 0) { served 2 with bl := 0 }) = some (some .ok, [0x34, 0x30]) := by decide
/-- R140 by hand, with RS_POS = 1: the frame is 1111 1 0 1 0. -/
theorem test_sendNibble_rsPos_one :
    writes (exec (.sendNibble 0xF 1) { served 2 with params := { Config.Params.default with rsPos := .one } }) =
    some (some .ok, [0xFE, 0xFA]) := by decide
/-- R144 by hand, with RS_POS = 2 and EN_POS = 1: the frames are 0100 1 1 0 0 and 0001 1 1 0 0. -/
theorem test_sendMessage_rsPos_two :
    writes (exec (.sendMessage 0x41 1) { served 4 with params := { Config.Params.default with rsPos := .two, enPos := .one } }) =
    some (some .ok, [0x4E, 0x4C, 0x1E, 0x1C]) := by decide
/-- V-E19. -/
theorem test_sendMessage :
    writes (exec (.sendMessage 0x5A 1) (served 4)) = some (some .ok, [0x5D, 0x59, 0xAD, 0xA9]) := by decide
/-- V-E11: write 3 false. -/
theorem test_sendMessage_third_write_fails :
    events (exec (.sendMessage 0xC5 0) (withPort [true, true, false] 8)) = some (some .fail,
      [.write 0xCC true, .delay 1, .write 0xC8 true, .delay 1, .write 0x5C false]) := by decide
/-- V-X1. -/
theorem test_clear : events (exec .clear (served 4)) = some (some .ok, [.write 0x0C true, .delay 1,
    .write 0x08 true, .delay 1, .write 0x1C true, .delay 1, .write 0x18 true, .delay 1]) := by decide
/-- V-X4 and V-X10. -/
theorem test_setCursor : writes (exec (.setCursor 1 5) (served 4)) = some (some .ok, [0xCC, 0xC8, 0x5C, 0x58]) ∧
    writes (exec (.setCursor 1 63) (served 4)) = some (some .ok, [0xFC, 0xF8, 0xFC, 0xF8]) := by decide
/-- V-X7 and V-X11. -/
theorem test_setCursor_alias_and_overflow :
    writes (exec (.setCursor 2 3) (served 4)) = some (some .ok, [0x8C, 0x88, 0x3C, 0x38]) ∧
    refusalOf (exec (.setCursor 1 64) (served 4)) = some .addressOverflow := by decide
/-- V-X11b. -/
theorem test_printChar : writes (exec (.printChar 0x0A) (served 4)) = some (some .ok, [0x0D, 0x09, 0xAD, 0xA9]) := by
  decide
/-- R87, R148. -/
theorem test_cmdClearDisplay :
    writes (exec .cmdClearDisplay (served 4)) = some (some .ok, [0x0C, 0x08, 0x1C, 0x18]) := by decide
theorem test_cmdReturnHome :
    writes (exec .cmdReturnHome (served 4)) = some (some .ok, [0x0C, 0x08, 0x2C, 0x28]) := by decide
theorem test_cmdEntryModeInc :
    writes (exec .cmdEntryModeInc (served 4)) = some (some .ok, [0x0C, 0x08, 0x6C, 0x68]) := by decide
theorem test_cmdDisplayOff :
    writes (exec .cmdDisplayOff (served 4)) = some (some .ok, [0x0C, 0x08, 0x8C, 0x88]) := by decide
theorem test_cmdDisplayOn :
    writes (exec .cmdDisplayOn (served 4)) = some (some .ok, [0x0C, 0x08, 0xCC, 0xC8]) := by decide
theorem test_cmdFunctionSet4Bit :
    writes (exec .cmdFunctionSet4Bit (served 4)) = some (some .ok, [0x2C, 0x28, 0x8C, 0x88]) := by decide
theorem test_setDdramAddr :
    writes (exec (.setDdramAddr 0x45) (served 4)) = some (some .ok, [0xCC, 0xC8, 0x5C, 0x58]) := by decide

/-- V-I10: INIT with BL = 0. -/
theorem test_init_backlight_off : writes (exec .init { served 41 with bl := 0, portBound := false }) = some (some .ok,
    [0x34, 0x30, 0x34, 0x30, 0x34, 0x30, 0x24, 0x20, 0x24, 0x20, 0x84, 0x80, 0x04, 0x00, 0x84, 0x80, 0x04, 0x00, 0x24,
     0x20, 0x04, 0x00, 0x64, 0x60, 0x04, 0x00, 0xC4, 0xC0, 0x04, 0x00, 0x14, 0x10]) := by decide +kernel
/-- V-I7: write 5 false. -/
theorem test_init_fifth_write_fails :
    events (exec .init (withPort [true, true, true, true, true, false] 41)) = some (some .fail,
      [.portInit true, .delay 20, .write 0x3C true, .delay 1, .write 0x38 true, .delay 1, .delay 10,
       .write 0x3C true, .delay 1, .write 0x38 true, .delay 1, .delay 1, .write 0x3C false]) := by decide +kernel

/-- S3, R198: PRINT "AB\nC". -/
theorem test_printText_newline : writes (exec (.printText 1) { served 24 with text := [0x41, 0x42, 0x0A, 0x43] }) =
    some (some .ok, [0x0C, 0x08, 0x1C, 0x18, 0x8C, 0x88, 0x0C, 0x08, 0x4D, 0x49, 0x1D, 0x19, 0x4D, 0x49, 0x2D, 0x29,
      0xCC, 0xC8, 0x0C, 0x08, 0x4D, 0x49, 0x3D, 0x39]) := by decide +kernel
/-- P3: 36 characters; 140 writes, ROW = 1, COL = 16, IDX = 31. -/
theorem test_printText_overflow :
    (nextOf (exec (.printText 1) { served 160 with text := (List.range 36).map fun n => BitVec.ofNat 8 (0x30 + n) })).map
      (fun t => ((writesOf t.trace).length, t.row, t.col, t.idx, t.status)) = some (140, 1, 16, 31, some .ok) := by
  decide +kernel

/-! ### SPLIT and RENDER (R222, R227 and the vectors V-F) -/

/-- V-F1, V-F4, V-F5, V-F8, V-F10 in binary64. -/
theorem test_split_binary64 :
    splitNumber .binary64 0x400921f9f01b866e = some (3, 14) ∧
    splitNumber .binary64 0xc006000000000000 = some (-2, -75) ∧
    splitNumber .binary64 0xbfe0000000000000 = some (0, -50) ∧
    splitNumber .binary64 0x4008666666666666 = some (3, 4) ∧
    splitNumber .binary64 0x4029ff7ced916873 = some (12, 99) := by
  decide +kernel
/-- The same in binary32. -/
theorem test_split_binary32 :
    splitNumber .binary32 0x40490fd0 = some (3, 14) ∧
    splitNumber .binary32 0xc0300000 = some (-2, -75) ∧
    splitNumber .binary32 0xbf000000 = some (0, -50) ∧
    splitNumber .binary32 0x40433333 = some (3, 4) ∧
    splitNumber .binary32 0x414ffbe7 = some (12, 99) := by
  decide +kernel
/-- R222: 0.29 and 1.29 differ between the two formats. -/
theorem test_split_depends_on_format :
    splitNumber .binary64 0x3fd28f5c28f5c28f = some (0, 28) ∧ splitNumber .binary64 0x3ff4a3d70a3d70a4 = some (1, 29) ∧
    splitNumber .binary32 0x3e947ae1 = some (0, 29) ∧ splitNumber .binary32 0x3fa51eb8 = some (1, 28) := by decide +kernel
/-- V-F16: a NaN and 1e30 are refused, 2147483647.0 is accepted. -/
theorem test_split_domain :
    split Config.Params.default 0x7FF8000000000000 = .error .numberNotFinite ∧
    split Config.Params.default 0x46293e5939a08cea = .error .integerPartTooWide ∧
    split Config.Params.default 0x41dfffffffc00000 = .ok (2147483647, 0) := by
  refine ⟨rfl, ?_, ?_⟩ <;> rfl
/-- V-F1, V-F4, V-F6, V-F11. -/
theorem test_render :
    render Config.Params.default [0x25, 0x64, 0x2E, 0x25, 0x64] [3, 14] = .ok [0x33, 0x2E, 0x31, 0x34] ∧
    render Config.Params.default [0x25, 0x64, 0x2E, 0x25, 0x64] [-2, -75] = .ok [0x2D, 0x32, 0x2E, 0x2D, 0x37, 0x35] ∧
    render Config.Params.default [0x25, 0x64, 0x2E, 0x25, 0x64] [7, 0] = .ok [0x37, 0x2E, 0x30] ∧
    render Config.Params.default [0x25, 0x64, 0x25, 0x25, 0x2F, 0x25, 0x64] [2, 50] =
      .ok [0x32, 0x25, 0x2F, 0x35, 0x30] := by refine ⟨rfl, rfl, rfl, rfl⟩
/-- V-F15: one placeholder, `%02d`, `%s`, and a lone `%`; and R223 with NUL configured to be `d` (log 13). -/
theorem test_render_refuses :
    render Config.Params.default [0x25, 0x64] [2, 50] = .error .badTemplate ∧
    render Config.Params.default [0x25, 0x30, 0x32, 0x64, 0x2E, 0x25, 0x64] [2, 50] = .error .badTemplate ∧
    render Config.Params.default [0x25, 0x73] [2, 50] = .error .badTemplate ∧
    render Config.Params.default [0x25] [2, 50] = .error .badTemplate ∧
    render { Config.Params.default with nul := 0x64 } [0x25, 0x64, 0x2E, 0x25, 0x64] [3, 14] = .error .badTemplate := by
  refine ⟨rfl, rfl, rfl, rfl, rfl⟩

/-- The number 3.14159 in binary64. -/
def pi5 : BitVec 64 := 0x400921f9f01b866e
/-- The template `%d.%d`. -/
def twoParts : List Byte := [0x25, 0x64, 0x2E, 0x25, 0x64]
/-- LCD4 with the operands of S7. -/
def formatted (n : Nat) : State := { served n with fmt := some twoParts, num := pi5 }

/-- S7. -/
theorem test_printFormatted : writes (exec .printFormatted (formatted 24)) = some (some .ok,
    [0x0C, 0x08, 0x1C, 0x18, 0x8C, 0x88, 0x0C, 0x08, 0x3D, 0x39, 0x3D, 0x39, 0x2D, 0x29, 0xED, 0xE9, 0x3D, 0x39, 0x1D,
     0x19, 0x3D, 0x39, 0x4D, 0x49]) := by decide +kernel
/-- V-F13 and V-F14: 31 characters are accepted, 32 are refused. -/
theorem test_printFormatted_capacity :
    ((nextOf (exec .printFormatted { served 160 with
      fmt := some (List.replicate 28 0x41 ++ [0x25, 0x64, 0x25, 0x64]), num := 0x4004000000000000 })).map
      fun t => (writesOf t.trace).length) = some (4 * 34) ∧
    refusalOf (exec .printFormatted { served 160 with
      fmt := some (List.replicate 29 0x41 ++ [0x25, 0x64, 0x25, 0x64]), num := 0x4004000000000000 }) =
      some .bufferOverflow := by decide +kernel

/-! ### Witnesses: for every statement with hypotheses, operands and a state that meet them -/

theorem witness_StepRunsTheDecodedHostOperation :
    (queued 0x020105).busy = false ∧ (queued 0x020105).queue = .host ⟨0x020105, [], none, 0⟩ :: [] ∧
    decodeCmd24 0x020105 = .ok (.setCursor 1 5) ∧ (Instr.setCursor 1 5).WellFormed = true := ⟨rfl, rfl, rfl, rfl⟩
theorem witness_StepRunsTheDecodedInnerRequest :
    ({ served 8 with queue := [.inner (.command 0x28)] } : State).busy = false ∧
    ({ served 8 with queue := [.inner (.command 0x28)] } : State).queue = .inner (.command 0x28) :: [] ∧
    decodeInner (.command 0x28) = .ok .cmdFunctionSet4Bit ∧ Instr.cmdFunctionSet4Bit.WellFormed = true :=
  ⟨rfl, rfl, rfl, rfl⟩
/-- A step that goes on with the operation in progress when the port returns from one delay and a write. -/
theorem witness_RequestsAreNotServedWhileBusy :
    waiting.busy = true ∧ (nextOf (step { waiting with answers := [true], delayReturns := 1 })).isSome = true := by decide
theorem witness_StartingWhileBusyIsRefused : waiting.busy = true := by decide
/-- A word at the edge of each disjunct, beside an accepted one (R93); and a queue whose head is rejected. -/
theorem witness_ReservedCommandWordsAreRefused :
    decodeCmd24 0x060000 = .error .reservedOpcode ∧ decodeCmd24 0xFF0000 = .error .reservedOpcode ∧
    decodeCmd24 0x050000 = .ok (.printChar 0) ∧ decodeCmd24 0x05FFFF = .error .mustBeZero ∧
    decodeCmd24 0x050100 = .error .mustBeZero ∧ decodeCmd24 0x0500FF = .ok (.printChar 0xFF) ∧
    decodeCmd24 0x000001 = .error .mustBeZero ∧ decodeCmd24 0x010001 = .error .mustBeZero ∧
    decodeCmd24 0x048000 = .error .mustBeZero ∧ decodeCmd24 0x030001 = .ok (.printText 1) ∧
    decodeCmd24 0x030002 = .error .mustBeZero ∧ decodeCmd24 0x02FFFF = .ok (.setCursor 0xFF 0xFF) ∧
    (queued 0x010001).busy = false ∧ (queued 0x010001).queue = .host ⟨0x010001, [], none, 0⟩ :: [] :=
  ⟨rfl, rfl, rfl, rfl, rfl, rfl, rfl, rfl, rfl, rfl, rfl, rfl, rfl, rfl⟩
theorem witness_DecodingAnEncodedInstructionGivesItBack : (Instr.sendByte 0xFB).WellFormed = true := by decide
theorem witness_EncodingADecodedCommandWordGivesItBack : decodeCmd24 0x02FF80 = .ok (.setCursor 0xFF 0x80) := rfl

/-- One state for each of the four clauses. -/
theorem witness_SendByteFollowsItsPseudocode :
    (State.reset.busy = false ∧ State.reset.portBound = false) ∧
    ((withPort [false] 0).portBound = true ∧ (withPort [false] 0).answers = false :: []) ∧
    ((withPort [true, false] 1).portBound = true ∧ (withPort [true, false] 1).answers = true :: false :: [] ∧
      (withPort [true, false] 1).delayReturns = 0 + 1) ∧
    ((served 2).portBound = true ∧ PortServes 2 2 (served 2)) := by decide
theorem witness_SendNibbleCompletes : Ready (served 2) ∧ PortServes 2 2 (served 2) := by decide
/-- A high frame that fails, and one that succeeds. -/
theorem witness_SendMessageIsHighThenLowFrame :
    ((nextOf (exec (.sendByte (port8 0xC 1 0 0)) (withPort [true, false] 4))).map State.status = some (some .fail)) ∧
    ((nextOf (exec (.sendByte (port8 0xC 1 0 0)) (served 4))).map State.status = some (some .ok)) := by decide
theorem witness_SendMessageCompletes : Ready (served 4) ∧ PortServes 4 4 (served 4) := by decide
/-- The first and the last write. -/
theorem witness_SendMessageFailsAtTheFirstFalseWrite :
    (Ready (withPort [false] 0) ∧ (withPort [false] 0).answers = List.replicate 0 true ++ false :: [] ∧
      0 ≤ (withPort [false] 0).delayReturns ∧
      (writesOf (messageEvents Config.Params.default 1 0xC5 0))[0]? = some 0xCC) ∧
    (Ready (withPort [true, true, true, false] 3) ∧
      (withPort [true, true, true, false] 3).answers = List.replicate 3 true ++ false :: [] ∧
      3 ≤ (withPort [true, true, true, false] 3).delayReturns ∧
      (writesOf (messageEvents Config.Params.default 1 0xC5 0))[3]? = some 0x58) := by decide
theorem witness_MessageTraceDeterminesValueAndSelect :
    (served 4).params.BitsDiffer ∧
    exec (.sendMessage 0x41 1) (served 4) = .next (after (exec (.sendMessage 0x41 1) (served 4))) ∧
    (after (exec (.sendMessage 0x41 1) (served 4))).status = some .ok := ⟨by decide, rfl, rfl⟩

theorem witness_ClearSendsTheClearDisplayMessage : Ready (served 4) ∧ PortServes 4 4 (served 4) := by decide
/-- The largest accepted columns of row 1 and of another row. -/
theorem witness_SetCursorSendsTheDdramAddress :
    Ready (served 4) ∧ PortServes 4 4 (served 4) ∧
    (if (1 : Byte) = 1 then 0x40 else 0) + (63 : Byte).toNat ≤ 0x7F ∧
    (if (255 : Byte) = 1 then 0x40 else 0) + (127 : Byte).toNat ≤ 0x7F := by decide
theorem witness_RowsOtherThanOneAliasToRowZero :
    (2 : Byte) ≠ 1 ∧ (0 : Byte) ≠ 1 ∧ Ready (served 4) ∧ PortServes 4 4 (served 4) := by decide
/-- Both sides of both limits. -/
theorem witness_SetCursorOverflowIsRefused :
    (served 4).busy = false ∧
    refusalOf (exec (.setCursor 1 63) (served 4)) = none ∧
    refusalOf (exec (.setCursor 1 64) (served 4)) = some .addressOverflow ∧
    refusalOf (exec (.setCursor 0 127) (served 4)) = none ∧
    refusalOf (exec (.setCursor 0 128) (served 4)) = some .addressOverflow := by decide
theorem witness_PrintCharSendsTheCharacterAsData : Ready (served 4) ∧ PortServes 4 4 (served 4) := by decide
theorem witness_DisplayCommandsSendTheirBytes : Ready (served 4) ∧ PortServes 4 4 (served 4) := by decide
/-- A message that succeeds, one that fails and one that waits. -/
theorem witness_OneMessageOperationsWriteNoCell :
    Instr.clear ≠ .init ∧ (∀ v, Instr.clear ≠ .printText v) ∧ Instr.clear ≠ .printFormatted ∧
    (nextOf (exec .clear (served 4))).isSome = true ∧ (nextOf (exec .clear (withPort [false] 0))).isSome = true ∧
    (nextOf (exec .clear (withPort [] 0))).isSome = true := by decide

theorem witness_InitEmitsItsFixedSequence :
    ({ served 41 with portBound := false } : State).busy = false ∧ PortServes 33 41 { served 41 with portBound := false } := by
  decide
theorem witness_InitWritesTheDefaultBytes :
    (served 41).params = Config.Params.default ∧ (served 41).bl = 1 ∧
    (nextOf (exec .init (served 41))).map State.status = some (some .ok) := by decide +kernel
theorem witness_InitCountsHoldForAllParameters :
    (nextOf (exec .init { served 41 with params := { Config.Params.default with enPos := .one } })).map State.status =
      some (some .ok) := by decide +kernel
/-- The failing `portInit`; the first write; and the last of the 32. -/
theorem witness_InitFailureEndsTheSequence :
    ((withPort [false] 0).busy = false ∧ (withPort [false] 0).answers = false :: []) ∧
    (∃ after, initEvents Config.Params.default 1 = [.portInit true, .delay 20] ++ .write 0x3C true :: after) ∧
    (withPort [true, false] 1).answers =
      true :: List.replicate (writesOf [.portInit true, .delay 20]).length true ++ false :: [] ∧
    (delaysOf [.portInit true, .delay 20]).length ≤ (withPort [true, false] 1).delayReturns ∧
    (initEvents Config.Params.default 1 =
      (initEvents Config.Params.default 1).take 72 ++ .write 0x18 true :: [.delay 1]) ∧
    (writesOf ((initEvents Config.Params.default 1).take 72)).length = 31 := by
  refine ⟨by decide, ⟨_, rfl⟩, by decide, by decide, by decide, by decide⟩
/-- An INIT that succeeds, one that fails, one that waits. -/
theorem witness_InitBindsThePortAndKeepsTheRest :
    (nextOf (exec .init (served 41))).isSome = true ∧ (nextOf (exec .init (withPort [false] 0))).isSome = true ∧
    (nextOf (exec .init State.reset)).isSome = true := by decide +kernel
theorem witness_OperationsBeforeInitAreRefused :
    State.reset.busy = false ∧ State.reset.portBound = false ∧ Instr.clear ≠ .init ∧ Instr.clear ≠ .printText 0 ∧
    Instr.printText 1 ≠ .printText 0 := by decide

theorem witness_NullTextFailsWithoutPortEvent : State.reset.busy = false := rfl
theorem witness_PrintTextCompletes :
    Ready { served 16 with text := [0x41] } ∧
    PortServes (8 + 8 * [(0x41 : Byte)].length) (8 + 8 * [(0x41 : Byte)].length) { served 16 with text := [0x41] } := by
  decide
theorem witness_PrintTextWritesRowColIdxOnly :
    (nextOf (exec (.printText 1) (served 8))).isSome = true ∧ (nextOf (exec (.printText 0) (served 0))).isSome = true ∧
    (nextOf (exec (.printText 1) (withPort [true] 0))).isSome = true := by decide
theorem witness_PrintTextStartsWithClearAndHome :
    Ready (served 8) ∧ PortServes 8 8 (served 8) ∧ (served 8).text = [] ∧
    (nextOf (exec (.printText 1) (served 8))).isSome = true := by decide

/-- Some ordinary characters: `A`, `B`, and so on. -/
def letters (n : Nat) : List Byte := (List.range n).map fun i => BitVec.ofNat 8 (0x41 + i)

theorem ready_served (n : Nat) : Ready (served n) := ⟨rfl, rfl⟩

/-- Texts of 0, 1, 15, 31 and 32 letters are printed; they leave (ROW, COL) at (0, 0), (0, 1), (0, 15), (1, 15) and
(1, 16), and the port goes on serving. -/
theorem letters_printed : ∀ n ∈ [0, 1, 15, 31, 32],
    PortPrints (letters n) (served 160) ∧ PortServes 8 8 (printed (letters n) (served 160)) ∧
    Config.Params.default.nul ∉ letters n ∧ (∀ ch ∈ letters n, Ordinary Config.Params.default ch) := by
  decide +kernel
theorem letters_cells :
    [0, 1, 15, 31, 32].map (fun n => ((printed (letters n) (served 160)).row, (printed (letters n) (served 160)).col)) =
      [(0, 0), (0, 1), (0, 15), (1, 15), (1, 16)] := by decide +kernel
theorem printsTo_letters {n : Nat} (h : PortPrints (letters n) (served 160)) :
    PrintsTo (served 160) (letters n) (printed (letters n) (served 160)) :=
  (printsTo_iff (ready_served 160)).2 ⟨h, rfl⟩

theorem witness_NewlineTogglesTheRow :
    Ready (served 160) ∧ (served 160).params.nul ∉ letters 1 ∧ (served 160).params.newline ≠ (served 160).params.nul ∧
    PrintsTo (served 160) (letters 1) (printed (letters 1) (served 160)) ∧
    (printed (letters 1) (served 160)).col ≠ 16 ∧ PortServes 4 4 (printed (letters 1) (served 160)) :=
  ⟨ready_served 160, by decide, by decide, printsTo_letters (letters_printed 1 (by decide)).1, by decide +kernel,
    PortServes_mono (letters_printed 1 (by decide)).2.1 (by decide) (by decide)⟩
theorem witness_OrdinaryCharacterIsPrintedAndCounted :
    Ready (served 160) ∧ (served 160).params.nul ∉ letters 1 ∧ Ordinary (served 160).params 0x42 ∧
    PrintsTo (served 160) (letters 1) (printed (letters 1) (served 160)) ∧
    (printed (letters 1) (served 160)).col < 15 ∧ PortServes 4 4 (printed (letters 1) (served 160)) :=
  ⟨ready_served 160, by decide, by decide, printsTo_letters (letters_printed 1 (by decide)).1, by decide +kernel,
    PortServes_mono (letters_printed 1 (by decide)).2.1 (by decide) (by decide)⟩
theorem witness_FullRowZeroWrapsToRowOne :
    Ready (served 160) ∧ (served 160).params.nul ∉ letters 15 ∧ Ordinary (served 160).params 0x42 ∧
    PrintsTo (served 160) (letters 15) (printed (letters 15) (served 160)) ∧
    (printed (letters 15) (served 160)).col = 15 ∧ (printed (letters 15) (served 160)).row = 0 ∧
    PortServes 8 8 (printed (letters 15) (served 160)) :=
  ⟨ready_served 160, (letters_printed 15 (by decide)).2.2.1, by decide,
    printsTo_letters (letters_printed 15 (by decide)).1, by decide +kernel, by decide +kernel,
    (letters_printed 15 (by decide)).2.1⟩
/-- The character that fills row 1, and a text after it. -/
theorem witness_FullRowOneTruncatesSilently :
    (Ready (served 160) ∧ (served 160).params.nul ∉ letters 31 ∧ Ordinary (served 160).params 0x42 ∧
      PrintsTo (served 160) (letters 31) (printed (letters 31) (served 160)) ∧
      (printed (letters 31) (served 160)).col = 15 ∧ (printed (letters 31) (served 160)).row = 1 ∧
      PortServes 4 4 (printed (letters 31) (served 160))) ∧
    ((served 160).params.nul ∉ letters 32 ∧
      PrintsTo (served 160) (letters 32) (printed (letters 32) (served 160)) ∧
      (printed (letters 32) (served 160)).col = 16) :=
  ⟨⟨ready_served 160, (letters_printed 31 (by decide)).2.2.1, by decide,
    printsTo_letters (letters_printed 31 (by decide)).1, by decide +kernel, by decide +kernel,
    PortServes_mono (letters_printed 31 (by decide)).2.1 (by decide) (by decide)⟩,
    (letters_printed 32 (by decide)).2.2.1, printsTo_letters (letters_printed 32 (by decide)).1, by decide +kernel⟩
theorem witness_NulEndsTheText :
    Ready (served 160) ∧ PrintsTo (served 160) (letters 1) (printed (letters 1) (served 160)) :=
  ⟨ready_served 160, printsTo_letters (letters_printed 1 (by decide)).1⟩
/-- A text with a NUL inside that is printed, and one that is refused because no port is injected. -/
theorem witness_TextAfterNulIsNeverRead :
    (nextOf (exec (.printText 1) { served 16 with text := textBytes Config.Params.default [0x41, 0, 0x42] })).isSome = true ∧
    refusalOf (exec (.printText 1) { State.reset with text := textBytes Config.Params.default [0x41, 0, 0x42] }) =
      some .portNotBound := by decide
/-- A text that fills both rows, with the wrap's message and without it. -/
theorem witness_TextWithoutNewlineFillsTwoRows :
    (∀ ch ∈ letters 32, Ordinary (served 160).params ch) ∧
    PrintsTo (served 160) (letters 32) (printed (letters 32) (served 160)) ∧
    (nextOf (exec (.printText 1) { served 160 with
      params := { Config.Params.default with wrapRepositions := false }, text := letters 32 })).map State.status =
      some (some .ok) :=
  ⟨(letters_printed 32 (by decide)).2.2.2, printsTo_letters (letters_printed 32 (by decide)).1, by decide +kernel⟩
/-- A truncated text and one that is not. -/
theorem witness_PrintTextCountersStayInRange :
    PrintsTo (served 160) (letters 32) (printed (letters 32) (served 160)) ∧
    (printed (letters 32) (served 160)).col = 16 ∧
    PrintsTo (served 160) (letters 15) (printed (letters 15) (served 160)) ∧
    (printed (letters 15) (served 160)).col ≠ 16 :=
  ⟨printsTo_letters (letters_printed 32 (by decide)).1, by decide +kernel,
    printsTo_letters (letters_printed 15 (by decide)).1, by decide +kernel⟩
theorem witness_PrintTextSendsWholeMessagesOfItsText :
    PrintsTo (served 160) (letters 32) (printed (letters 32) (served 160)) :=
  printsTo_letters (letters_printed 32 (by decide)).1

theorem split_pi5 : split Config.Params.default pi5 = .ok (3, 14) := by rfl
theorem render_pi5 : render Config.Params.default twoParts [3, 14] = .ok [0x33, 0x2E, 0x31, 0x34] := by rfl
theorem witness_PrintFormattedIsPrintTextOfTheRenderedText :
    Memory.wf (formatted 40).buf ∧ (formatted 40).busy = false ∧ (formatted 40).fmt = some twoParts ∧
    split (formatted 40).params (formatted 40).num = .ok (3, 14) ∧
    render (formatted 40).params twoParts [3, 14] = .ok [0x33, 0x2E, 0x31, 0x34] ∧
    [(0x33 : Byte), 0x2E, 0x31, 0x34].length ≤ 31 ∧
    (nextOf (exec (.printText 1) { formatted 40 with text := [0x33, 0x2E, 0x31, 0x34] })).isSome = true ∧
    refusalOf (exec (.printText 1) { formatted 40 with portBound := false, text := [0x33, 0x2E, 0x31, 0x34] }) =
      some .portNotBound :=
  ⟨by decide, rfl, rfl, split_pi5, render_pi5, by decide, by decide +kernel, by decide +kernel⟩
theorem witness_PrintFormattedWritesBufRowColIdxOnly :
    Memory.wf (formatted 40).buf ∧ (nextOf (exec .printFormatted (formatted 40))).isSome = true ∧
    (nextOf (exec .printFormatted (formatted 0))).isSome = true := by decide +kernel
theorem witness_PrintFormattedCompletesAndStoresItsText :
    Memory.wf (formatted 40).buf ∧ Ready (formatted 40) ∧ (formatted 40).fmt = some twoParts ∧
    split (formatted 40).params (formatted 40).num = .ok (3, 14) ∧
    render (formatted 40).params twoParts [3, 14] = .ok [0x33, 0x2E, 0x31, 0x34] ∧
    [(0x33 : Byte), 0x2E, 0x31, 0x34].length ≤ 31 ∧ PortServes (8 + 8 * 4) (8 + 8 * 4) (formatted 40) :=
  ⟨by decide, by decide, rfl, split_pi5, render_pi5, by decide, by decide +kernel⟩
/-- An infinity in both formats; 1e30; a null template; two bad templates; and one that renders to 32 bytes. -/
theorem witness_PrintFormattedRefusesUndefinedOperands :
    (served 4).busy = false ∧ (served 4).params.floatFormat = .binary64 ∧
    (0x7F800000 : BitVec 64).extractLsb' 23 8 = 0xFF ∧ (0x7FF0000000000000 : BitVec 64).extractLsb' 52 11 = 0x7FF ∧
    splitNumber .binary64 0x41E0000000000000 = some (2147483648, 0) ∧
    (2 ^ ((served 4).params.intWidth - 1) : Int) ≤ 2147483648 ∧
    split (served 4).params pi5 = .ok (3, 14) ∧ (served 4).fmt = none ∧
    placeholders [0x25, 0x64] ≠ some 2 ∧ (served 4).params.nul ∈ twoParts ++ [0x00] ∧
    render (served 4).params (List.replicate 29 0x41 ++ [0x25, 0x64, 0x25, 0x64]) [3, 14] =
      .ok (List.replicate 29 0x41 ++ [0x33, 0x31, 0x34]) ∧
    31 < (List.replicate 29 (0x41 : Byte) ++ [0x33, 0x31, 0x34]).length :=
  ⟨rfl, rfl, rfl, rfl, by decide +kernel, by decide, split_pi5, rfl, by decide, by decide, rfl, by decide⟩
/-- `T%%%d.%d`. -/
theorem witness_RenderPlacesTheTwoIntegersInOrder :
    Config.Params.default.nul ∉ escaped [0x54, 0x25] ++ [0x25, 0x64] ++ escaped [0x2E] ++ [0x25, 0x64] ++ escaped [] := by
  decide
/-- A negative number; and two that differ in their number of digits. -/
theorem witness_DecimalDigitsStandForTheNumber :
    decimalInt (-75) = [0x2D, 0x37, 0x35] ∧ 0 < 10 ∧ decimalNat 10 = [0x31, 0x30] ∧ decimalNat 9 = [0x39] := by decide
/-- The largest numbers below 1, −0.5, the largest finite numbers, and the smallest subnormal ones. -/
theorem witness_SplitFractionHasTwoDigitsAndTheSign :
    splitNumber .binary32 0x3F7FFFFF = some (0, 99) ∧ splitNumber .binary64 0x3FEFFFFFFFFFFFFF = some (0, 99) ∧
    splitNumber .binary32 0xBF000000 = some (0, -50) ∧ splitNumber .binary64 0xBFE0000000000000 = some (0, -50) ∧
    (0x7F7FFFFF : BitVec 64).extractLsb' 23 8 ≠ 0xFF ∧ (0x7FEFFFFFFFFFFFFF : BitVec 64).extractLsb' 52 11 ≠ 0x7FF ∧
    splitNumber .binary32 1 = some (0, 0) ∧ splitNumber .binary64 1 = some (0, 0) := by
  decide +kernel

/-- A write that fails, the null text, and an operation that succeeds. -/
theorem witness_FailureIsTheLastEventOfTheTrace :
    (nextOf (exec .clear (withPort [true, false] 4))).map State.status = some (some .fail) ∧
    (nextOf (exec (.printText 0) (served 4))).map State.status = some (some .fail) ∧
    (nextOf (exec .clear (served 4))).map State.status = some (some .ok) := by decide
theorem witness_NoOperandButNullTextProducesFail :
    (∀ r ∈ (served 4).answers, r = true) ∧
    (nextOf (exec (.printText 0) (served 4))).map State.status = some (some .fail) := by decide
/-- A SET_CURSOR whose address is just too large, and every reason to refuse a PRINT_FORMATTED. -/
theorem witness_BoundOperationsAreRefusedForOperandsOnly :
    Ready (served 4) ∧ refusalOf (exec (.setCursor 1 64) (served 4)) = some .addressOverflow ∧
    refusalOf (exec .printFormatted (served 4)) = some .nullTemplate ∧
    refusalOf (exec .printFormatted { served 4 with num := 0x7FF8000000000000 }) = some .numberNotFinite ∧
    refusalOf (exec .printFormatted { served 4 with num := 0x41E0000000000000 }) = some .integerPartTooWide ∧
    refusalOf (exec .printFormatted { served 4 with fmt := some [0x25, 0x64] }) = some .badTemplate ∧
    refusalOf (exec .printFormatted { served 4 with
      fmt := some (List.replicate 30 0x41 ++ [0x25, 0x64, 0x25, 0x64]) }) = some .bufferOverflow := by decide +kernel
theorem witness_WaitingForThePortChangesNothing :
    exec .clear (withPort [true] 0) = .next waiting ∧ waiting.busy = true := ⟨rfl, rfl⟩
theorem witness_ResumedOperationEndsAsUninterrupted :
    exec .clear (withPort [true] 0) = .next waiting ∧ waiting.busy = true := ⟨rfl, rfl⟩
/-- Two states with different local cells; an operation that gives a next state, and one that is refused. -/
theorem witness_LocalCellsDoNotInfluenceOperations :
    Memory.wf (served 4).buf ∧ Memory.wf [(3, (0x41 : Byte))] ∧
    SameOutsideLocals (served 4) { served 4 with row := 1, col := 7, idx := 9, initStep := 2, buf := [(3, 0x41)] } ∧
    (nextOf (exec .clear (served 4))).isSome = true ∧
    refusalOf (exec (.setCursor 1 64) (served 4)) = some .addressOverflow :=
  ⟨by decide, by decide, rfl, by decide, by decide⟩

/-- The invariant holds of a state that waits, and a step from it gives a next state. -/
theorem witness_EveryStepKeepsTheInvariant :
    Inv waiting ∧ (nextOf (step { waiting with delayReturns := 1 })).isSome = true :=
  ⟨⟨by decide, by decide, by decide, by decide, by decide, by decide, by decide, by decide⟩, by decide⟩
theorem witness_BacklightAndParametersNeverChange :
    (nextOf (step (queued 0x010000))).isSome = true ∧ (queued 0x010000).portBound = true := by decide
/-- A state in which a framed byte has been written and others are waiting to be. -/
theorem witness_EveryPortByteIsFramed :
    Framed waiting ∧ (nextOf (step { waiting with delayReturns := 1 })).isSome = true := by
  refine ⟨⟨?_, ?_, ?_⟩, by decide⟩
  · intro b r h
    have h : PortEvent.write b r ∈ [PortEvent.write 0x0C true] := h
    simp only [List.mem_singleton, PortEvent.write.injEq] at h
    rw [h.1]; decide
  · intro b c h
    have h : Action.write b c ∈ [.delay 1, .write 0x08 .writeDis, .delay 1, .write 0x1C .writeEn, .delay 1,
      .write 0x18 .writeDis, .delay 1] := h
    simp only [List.mem_cons, List.not_mem_nil, reduceCtorEq, false_or, or_false, Action.write.injEq] at h
    rcases h with ⟨rfl, -⟩ | ⟨rfl, -⟩ | ⟨rfl, -⟩ <;> decide
  · intro w h
    exact absurd h (by simp [waiting, withPort, after, nextOf, exec, execClear, perform, State.reset, run, act,
      clearActions, sendCommandActions, sendMessageActions, sendByteActions, portWrite, requestAnswer, portDelay, finish,
      waitForPort])

end Sys2Proof.Tests
end

