-- ==== Sys2Proof/Proofs/Operations.lean ====
section
/-!
SUPPORT. Facts that the statements of 10_state.md share: the three shapes an operation's list of actions has, why an
operation is refused, and what a run from a bound or an unbound port can be refused for.
-/
namespace Sys2Proof.Machine

open Sys2Proof

/-! ### The shapes of an operation -/

/-- An operation has the actions of INIT, those of PRINT_TEXT (which PRINT_FORMATTED runs on BUF: R225), or one frame
with port requests after it. -/
theorem operation_shape {i : Instr} {s : State} {actions : List Action} {buf : Memory}
    (h : operation i s = .ok (actions, buf)) :
    (i = .init ∧ actions = initActions s.params s.bl) ∨
    (∃ text, actions = printTextActions s.params s.bl text ∧ (text = none → i = .printText 0)) ∨
    (∃ frame rest, actions = sendByteActions s.params frame ++ rest ∧ ∀ a ∈ rest, isRequest a = true) := by
  cases i with
  | init =>
    cases h
    exact .inl ⟨rfl, rfl⟩
  | printText v =>
    cases h
    refine .inr (.inl ⟨_, rfl, fun hnone => ?_⟩)
    rcases bit_eq_zero_or_one v with rfl | rfl
    · rfl
    · simp [textOperand] at hnone
  | printFormatted =>
    simp only [operation] at h
    split at h
    · cases h
    · split at h
      · cases h
      · cases h
        exact .inr (.inl ⟨some _, rfl, by simp⟩)
  | setCursor row column =>
    simp only [operation] at h
    split at h
    · cases h
    · cases h
      exact .inr (.inr ⟨_, sendByteActions _ _, rfl, requests_sendByte _ _⟩)
  | sendByte frame | sendNibble v4 rs =>
    cases h
    exact .inr (.inr ⟨_, [], (List.append_nil _).symm, by simp⟩)
  | _ =>
    cases h
    exact .inr (.inr ⟨_, sendByteActions _ _, rfl, requests_sendByte _ _⟩)

/-- PRINT_TEXT of a text starts with the first frame of its clear-display message. -/
theorem printTextActions_some_starts (p : Config.Params) (bl : Bit) (u : List Byte) :
    ∃ frame rest, printTextActions p bl (some u) = sendByteActions p frame ++ rest :=
  ⟨_, _, by
    simp only [printTextActions, clearActions, sendCommandActions, sendMessageActions, List.append_assoc]
    rfl⟩

/-- Whatever is neither INIT nor PRINT_TEXT of the null reference sends a frame first. -/
theorem operation_starts_with_frame {i : Instr} {s : State} {actions : List Action} {buf : Memory}
    (h : operation i s = .ok (actions, buf)) (hinit : i ≠ .init) (hnull : i ≠ .printText 0) :
    ∃ frame rest, actions = sendByteActions s.params frame ++ rest := by
  rcases operation_shape h with ⟨hi, -⟩ | ⟨text, rfl, hnone⟩ | ⟨frame, rest, rfl, -⟩
  · exact absurd hi hinit
  · cases text with
    | none => exact absurd (hnone rfl) hnull
    | some u => exact printTextActions_some_starts _ _ u
  · exact ⟨frame, rest, rfl⟩

/-! ### Refusals -/

/-- A frame is refused while PORT_BOUND = 0, before anything is sent (R22). -/
theorem run_frame_unbound {s : State} (hb : s.portBound = false) (p : Config.Params) (frame : Byte)
    (rest : List Action) : run (sendByteActions p frame ++ rest) s = .refused .portNotBound := by
  simp [sendByteActions, run, act, portWrite, requestAnswer, hb]

/-- Once a port has been injected, no list of actions is refused (R22, R34). -/
theorem finish_run_not_refused {s : State} (hb : s.portBound = true) (actions : List Action) (r : Refusal) :
    finish (run actions s) ≠ .refused r := by
  rcases run_cases actions s with e | ⟨_, _, _, _, _, _, _, _, e⟩ | ⟨_, _, _, _, _, _, e⟩ |
    ⟨pre, a, post, r', _, _, hrefuse, _⟩
  · simp [e]
  · simp [e]
  · simp [e]
  · have hunbound := (act_refuse hrefuse).1
    simp [afterActions_portBound hb] at hunbound

/-- The two reasons SPLIT has to refuse a number (R221). -/
theorem split_error {p : Config.Params} {num : BitVec 64} {r : Refusal} (h : split p num = .error r) :
    (r = .numberNotFinite ∧ splitNumber p.floatFormat num = none) ∨
    (r = .integerPartTooWide ∧ ∃ parts, splitNumber p.floatFormat num = some parts ∧
      (parts.1 < -2 ^ (p.intWidth - 1) ∨ 2 ^ (p.intWidth - 1) ≤ parts.1)) := by
  simp only [split] at h
  split at h
  · next hnone =>
    cases h
    exact .inl ⟨rfl, hnone⟩
  · next parts hsome =>
    split at h
    · cases h
    · next hfits =>
      cases h
      exact .inr ⟨rfl, parts, hsome, not_not.1 fun hin => hfits (fitsSigned_iff.2 hin)⟩

/-- The three reasons a template is refused: it is null, outside the grammar, or renders to too long a text (R223,
R224, R226). -/
theorem renderForBuf_error {p : Config.Params} {template : Option (List Byte)} {ipart fpart : Int} {r : Refusal}
    (h : renderForBuf p template ipart fpart = .error r) :
    (r = .nullTemplate ∧ template = none) ∨
    ∃ chars, template = some chars ∧
      ((r = .badTemplate ∧ (p.nul ∈ chars ∨ placeholders chars ≠ some 2)) ∨
       (r = .bufferOverflow ∧ ∃ rendered, render p chars [ipart, fpart] = .ok rendered ∧ 31 < rendered.length)) := by
  cases template with
  | none =>
    cases h
    exact .inl ⟨rfl, rfl⟩
  | some chars =>
    simp only [renderForBuf] at h
    split at h
    · next r' hr =>
      cases h
      obtain rfl := render_error hr
      exact .inr ⟨chars, rfl, .inl ⟨rfl, (render_refused_iff p chars [ipart, fpart]).1 hr⟩⟩
    · next rendered hok =>
      split at h
      · next hlong =>
        cases h
        exact .inr ⟨chars, rfl, .inr ⟨rfl, rendered, hok, Nat.lt_of_succ_lt_succ hlong⟩⟩
      · cases h

/-- An operation is refused before it starts for its operands only: those of PRINT_FORMATTED, or the address of
SET_CURSOR (R184, R253). -/
theorem operation_error {i : Instr} {s : State} {r : Refusal} (h : operation i s = .error r) :
    (i = .printFormatted ∧ OutsideDomain s r) ∨
    (∃ row column, i = .setCursor row column ∧ r = .addressOverflow ∧
      0x7F < (if row = 1 then 0x40 else 0) + column.toNat) := by
  cases i with
  | setCursor row column =>
    simp only [operation] at h
    split at h
    · next haddr =>
      cases h
      exact .inr ⟨row, column, rfl, rfl, haddr⟩
    · cases h
  | printFormatted =>
    refine .inl ⟨rfl, ?_⟩
    simp only [operation] at h
    split at h
    · next r' hsplit =>
      cases h
      rcases split_error hsplit with hfinite | hwide
      · exact .inl hfinite
      · exact .inr (.inl hwide)
    · next parts hsplit =>
      split at h
      · next r' hrender =>
        cases h
        exact .inr (.inr ⟨parts, hsplit, renderForBuf_error hrender⟩)
      · cases h
  | _ => cases h

end Sys2Proof.Machine
end

