-- ==== Sys2Proof/Proofs/Invariant.lean ====
section
/-!
SUPPORT. The invariant of LCD4's cells: every action of every operation writes only values its cell can hold, and a
run of such actions ends in a state of the invariant.
-/
namespace Sys2Proof.Machine

open Sys2Proof

/-! ### Actions in range -/

theorem actionInRange_of_isRequest {a : Action} (h : isRequest a = true) : actionInRange a = true := by
  cases a with
  | setCol | setStep => simp [isRequest] at h
  | _ => rfl

theorem sendByte_inRange (p : Config.Params) (frame : Byte) :
    ∀ a ∈ sendByteActions p frame, actionInRange a = true :=
  fun a ha => actionInRange_of_isRequest (requests_sendByte p frame a ha)

theorem sendMessage_inRange (p : Config.Params) (bl : Bit) (v8 : Byte) (rs : Bit) :
    ∀ a ∈ sendMessageActions p bl v8 rs, actionInRange a = true :=
  fun a ha => actionInRange_of_isRequest (requests_sendMessage p bl v8 rs a ha)

/-- INIT advances STEP to 13 at most (R27; log 9). -/
theorem initActions_inRange (p : Config.Params) (bl : Bit) : ∀ a ∈ initActions p bl, actionInRange a = true := by
  simp [initActions, initCommandActions, initCommands, sendCommandActions, sendMessageActions, sendNibbleActions,
    sendByteActions, actionInRange]

theorem col_succ_le {col : BitVec 5} (h : col < 16) : col + 1 ≤ Config.cols := by
  revert col; decide

theorem wrapActions_inRange (p : Config.Params) (bl : Bit) : ∀ a ∈ wrapActions p bl, actionInRange a = true := by
  have hmessage : ∀ a ∈ setCursorActions p bl 1 0, actionInRange a = true := sendMessage_inRange _ _ _ _
  rw [wrapActions]
  simp only [List.forall_mem_cons]
  refine ⟨rfl, rfl, ?_⟩
  split
  · exact hmessage
  · simp

/-- The character loop counts COL to 16 at most (R24, R195). -/
theorem loopFrom_inRange (p : Config.Params) (bl : Bit) (c : LoopCells) (u : List Byte) (hc : c.col < 16) :
    ∀ a ∈ loopFrom p bl c u, actionInRange a = true := by
  induction u generalizing c with
  | nil => simp [loopFrom, textLoopActions]
  | cons ch rest ih =>
    have hcursor : ∀ row, ∀ a ∈ setCursorActions p bl row 0, actionInRange a = true :=
      fun _ => sendMessage_inRange _ _ _ _
    have hdata : ∀ a ∈ printCharActions p bl ch, actionInRange a = true := sendMessage_inRange _ _ _ _
    have hcol : actionInRange (.setCol (c.col + 1)) = true := decide_eq_true (col_succ_le hc)
    simp only [loopFrom, textLoopActions]
    split
    · simp
    · split
      · simp only [List.forall_mem_cons, List.forall_mem_append, List.cons_append]
        exact ⟨rfl, rfl, hcursor _, rfl, ih ⟨c.row ^^^ 1, 0, c.idx + 1⟩ zero_lt_cols⟩
      · simp only [List.forall_mem_cons, List.forall_mem_append]
        refine ⟨hdata, hcol, ?_⟩
        split
        · split
          · simp only [List.forall_mem_cons, List.forall_mem_append]
            exact ⟨wrapActions_inRange p bl, rfl, ih ⟨1, 0, c.idx + 1⟩ zero_lt_cols⟩
          · simp
        · next hfull =>
          simp only [List.forall_mem_cons]
          exact ⟨rfl, ih ⟨c.row, c.col + 1, c.idx + 1⟩ (col_succ_lt hc hfull)⟩

theorem printTextActions_inRange (p : Config.Params) (bl : Bit) (text : Option (List Byte)) :
    ∀ a ∈ printTextActions p bl text, actionInRange a = true := by
  cases text with
  | none => simp [printTextActions, actionInRange]
  | some u =>
    simp only [printTextActions_some, List.forall_mem_append, List.forall_mem_cons]
    exact ⟨⟨⟨sendMessage_inRange _ _ _ _, sendMessage_inRange _ _ _ _⟩, rfl, rfl, rfl, by simp⟩,
      loopFrom_inRange p bl loopStart u zero_lt_cols⟩

theorem operation_inRange {i : Instr} {s : State} {actions : List Action} {buf : Memory}
    (h : operation i s = .ok (actions, buf)) : ∀ a ∈ actions, actionInRange a = true := by
  rcases operation_shape h with ⟨-, rfl⟩ | ⟨text, rfl, -⟩ | ⟨frame, rest, rfl, hrest⟩
  · exact initActions_inRange _ _
  · exact printTextActions_inRange _ _ text
  · exact List.forall_mem_append.2 ⟨sendByte_inRange _ frame, fun a ha => actionInRange_of_isRequest (hrest a ha)⟩

/-! ### States in range -/

/-- The part of `Inv` that speaks of the parameters, BUF, COL and STEP only: it holds in the middle of an operation,
too. -/
structure CellsInRange (s : State) : Prop where
  bitsDiffer : s.params.BitsDiffer
  buf_wf : Memory.wf s.buf
  buf_inBuf : Memory.inBuf s.buf
  col_le : s.col ≤ Config.cols
  step_le : s.initStep ≤ 13

theorem Inv.cellsInRange {s : State} (h : Inv s) : CellsInRange s :=
  ⟨h.bitsDiffer, h.buf_wf, h.buf_inBuf, h.col_le, h.step_le⟩

theorem CellsInRange.acceptRequest {s : State} (h : CellsInRange s) (q : Request) (rest : List Request) :
    CellsInRange (acceptRequest q rest s) := by
  cases q <;> exact ⟨h.bitsDiffer, h.buf_wf, h.buf_inBuf, h.col_le, h.step_le⟩

theorem CellsInRange.afterAction {s : State} (h : CellsInRange s) {a : Action} (ha : actionInRange a = true) :
    CellsInRange (afterAction a s) := by
  obtain ⟨hbits, hwf, hin, hcol, hstep⟩ := h
  cases a with
  | setCol c => exact ⟨hbits, hwf, hin, of_decide_eq_true ha, hstep⟩
  | setStep n => exact ⟨hbits, hwf, hin, hcol, of_decide_eq_true ha⟩
  | _ => exact ⟨hbits, hwf, hin, hcol, hstep⟩

theorem CellsInRange.afterActions {actions : List Action} {s : State} (h : CellsInRange s)
    (hactions : ∀ a ∈ actions, actionInRange a = true) : CellsInRange (afterActions actions s) := by
  induction actions generalizing s with
  | nil => exact h
  | cons a rest ih =>
    obtain ⟨ha, hrest⟩ := List.forall_mem_cons.1 hactions
    exact ih (h.afterAction ha) hrest

theorem CellsInRange.act_fail {s s' : State} (h : CellsInRange s) {a : Action} {cause : FailCause}
    (hfail : act a s = .fail cause s') : CellsInRange s' := by
  rcases Machine.act_fail hfail with ⟨-, rfl⟩ | ⟨_, _, _, _, rfl⟩
  · exact h
  · exact ⟨h.bitsDiffer, h.buf_wf, h.buf_inBuf, h.col_le, h.step_le⟩

/-- A delivered STATUS leaves LCD4 idle with nothing pending (R33). -/
theorem CellsInRange.inv_deliver {s : State} (h : CellsInRange s) (st : Status) : Inv (deliver st s) where
  bitsDiffer := h.bitsDiffer
  buf_wf := h.buf_wf
  buf_inBuf := h.buf_inBuf
  col_le := h.col_le
  step_le := h.step_le
  idle _ := rfl
  waiting hbusy := by simp at hbusy
  pending_inRange := by simp

/-- A waiting LCD4 has a port and has delivered no STATUS (R22, R259). -/
theorem CellsInRange.inv_waitForPort {s : State} (h : CellsInRange s) {rest : List Action}
    (hbound : s.portBound = true) (hrest : ∀ a ∈ rest, actionInRange a = true) : Inv (waitForPort rest s) where
  bitsDiffer := h.bitsDiffer
  buf_wf := h.buf_wf
  buf_inBuf := h.buf_inBuf
  col_le := h.col_le
  step_le := h.step_le
  idle hbusy := by simp at hbusy
  waiting _ := ⟨rfl, hbound⟩
  pending_inRange := hrest

/-- However a run of actions in range ends, it ends in a state of the invariant. -/
theorem inv_of_finish_run {actions : List Action} {s t : State} (h : CellsInRange s)
    (hactions : ∀ a ∈ actions, actionInRange a = true) (hrun : finish (run actions s) = .next t) : Inv t := by
  rcases run_cases actions s with e | ⟨pre, a, post, cause, s', rfl, -, hfail, e⟩ | ⟨pre, a, post, rfl, -, hwait, e⟩ |
    ⟨_, _, _, _, _, _, _, e⟩
  · simp only [e, finish_done, Host.Outcome.next.injEq] at hrun
    exact hrun ▸ (h.afterActions hactions).inv_deliver .ok
  · simp only [e, finish_failed, Host.Outcome.next.injEq] at hrun
    have hpre := h.afterActions (List.forall_mem_append.1 hactions).1
    exact hrun ▸ (hpre.act_fail hfail).inv_deliver .fail
  · simp only [e, finish_waiting, Host.Outcome.next.injEq] at hrun
    obtain ⟨hpre, hrest⟩ := List.forall_mem_append.1 hactions
    exact hrun ▸ (h.afterActions hpre).inv_waitForPort (act_wait hwait).1 hrest
  · simp [e] at hrun

theorem inv_of_exec {i : Instr} {s t : State} (h : CellsInRange s) (hexec : exec i s = .next t) : Inv t := by
  obtain ⟨-, actions, buf, hop, hrun⟩ := exec_next hexec
  obtain ⟨hwf, hin⟩ := operation_buf hop h.buf_wf h.buf_inBuf
  have hstart : CellsInRange { s with buf := buf } := ⟨h.bitsDiffer, hwf, hin, h.col_le, h.step_le⟩
  exact inv_of_finish_run hstart (operation_inRange hop) hrun

/-- Settles O58: going on with an operation, waiting for the host, and running a request each keep the invariant. -/
theorem everyStepKeepsTheInvariant : Obligations.EveryStepKeepsTheInvariant := by
  intro s t hinv hstep
  rcases step_next hstep with ⟨-, hresume⟩ | ⟨-, -, rfl⟩ | ⟨q, rest, i, -, -, -, hexec⟩
  · exact inv_of_finish_run hinv.cellsInRange hinv.pending_inRange hresume
  · exact hinv
  · exact inv_of_exec (hinv.cellsInRange.acceptRequest q rest) hexec

/-- Settles O57: the cells that R37 leaves unspecified hold 0 (log 7, 8), and the default bits differ. -/
theorem invariantHoldsAtReset : Obligations.InvariantHoldsAtReset where
  bitsDiffer := by decide
  buf_wf := Memory.wf_nil
  buf_inBuf := Memory.inBuf_nil
  col_le := by decide
  step_le := Nat.zero_le 13
  idle _ := rfl
  waiting hbusy := by simp [State.reset] at hbusy
  pending_inRange := by simp [State.reset]

end Sys2Proof.Machine
end

