-- ==== Sys2Proof/Proofs/StateStatements.lean ====
section
/-!
SUPPORT. The other statements of 10_state.md: what a step keeps, what is refused before and after a port is injected,
and that the operation-local cells are not read.
-/
namespace Sys2Proof.Machine

open Sys2Proof

/-! ### What a step keeps -/

/-- The parts of the state that neither an action nor the end of an operation writes (R11, R21, R257). -/
def constantParts (s : State) : Bit × Config.Params × List Request := (s.bl, s.params, s.queue)

theorem constantParts_blind : Blind constantParts := ⟨fun _ _ _ _ => rfl, fun _ _ _ => rfl⟩

theorem constantParts_afterAction (a : Action) (s : State) :
    constantParts (afterAction a s) = constantParts s := by
  cases a <;> rfl

/-- No run changes BL, a parameter or the queue, however it ends. -/
theorem finish_constantParts {actions : List Action} {s t : State} (h : finish (run actions s) = .next t) :
    t.bl = s.bl ∧ t.params = s.params ∧ t.queue = s.queue := by
  simpa [constantParts] using
    finish_keeps constantParts_blind (fun a _ => constantParts_afterAction a) h

/-- A step does nothing, or it runs some actions from a state with the same BL, parameters, PORT_BOUND and trace. -/
theorem step_next_run {s t : State} (h : step s = .next t) :
    t = s ∨ ∃ actions s₁, finish (run actions s₁) = .next t ∧
      s₁.bl = s.bl ∧ s₁.params = s.params ∧ s₁.portBound = s.portBound ∧ s₁.trace = s.trace := by
  rcases step_next h with ⟨-, hresume⟩ | ⟨-, -, ht⟩ | ⟨q, rest, i, -, -, -, hexec⟩
  · exact .inr ⟨s.pending, s, hresume, rfl, rfl, rfl, rfl⟩
  · exact .inl ht
  · obtain ⟨-, actions, buf, -, hrun⟩ := exec_next hexec
    exact .inr ⟨actions, _, hrun, by simp⟩

/-- Settles O59: a step is a run, and a run writes neither BL nor a parameter, keeps the port and adds to the trace. -/
theorem backlightAndParametersNeverChange : Obligations.BacklightAndParametersNeverChange := by
  intro s t hstep
  rcases step_next_run hstep with rfl | ⟨actions, s₁, hrun, hbl, hparams, hbound, htrace⟩
  · exact ⟨rfl, rfl, id, List.prefix_refl _⟩
  · obtain ⟨hbl', hparams', -⟩ := finish_constantParts hrun
    exact ⟨hbl'.trans hbl, hparams'.trans hparams, fun hs => finish_portBound hrun (hbound.trans hs),
      htrace ▸ finish_trace hrun⟩

theorem step_busy {s : State} (h : s.busy = true) : step s = finish (run s.pending s) := by
  simp [step, resume, h]

/-- Settles O4: a busy step runs what is pending, and a run does not write the queue. -/
theorem requestsAreNotServedWhileBusy : Obligations.RequestsAreNotServedWhileBusy := by
  intro s t hbusy hstep
  rw [step_busy hbusy] at hstep
  obtain ⟨-, -, hqueue⟩ := finish_constantParts hstep
  exact ⟨hqueue, finish_trace hstep⟩

/-! ### Refusals -/

theorem exec_idle {i : Instr} {s : State} (h : s.busy = false) :
    exec i s =
      match operation i s with
      | .error r => .refused r
      | .ok (actions, buf) => finish (run actions { s with buf := buf }) := by
  rw [exec_eq, h]
  rfl

/-- Settles O29: an instruction that is not refused for its operands sends a frame first, for which there is no port. -/
theorem operationsBeforeInitAreRefused : Obligations.OperationsBeforeInitAreRefused := by
  intro i s hidle hunbound hinit hnull
  rw [exec_idle hidle]
  split
  · next r _ => exact ⟨r, rfl⟩
  · next actions buf hop =>
    obtain ⟨frame, rest, rfl⟩ := operation_starts_with_frame hop hinit hnull
    have hs : { s with buf := buf }.portBound = false := hunbound
    rw [run_frame_unbound hs, finish_refused]
    exact ⟨_, rfl⟩

/-- Settles O53: with a port no action is refused, so only the operands can be. -/
theorem boundOperationsAreRefusedForOperandsOnly : Obligations.BoundOperationsAreRefusedForOperandsOnly := by
  intro i s r ⟨hidle, hbound⟩ hexec
  rw [exec_idle hidle] at hexec
  split at hexec
  · next r' hop =>
    cases hexec
    exact operation_error hop
  · next actions buf _ =>
    have hs : { s with buf := buf }.portBound = true := hbound
    exact absurd hexec (finish_run_not_refused hs actions r)

/-! ### Operation-local cells -/

theorem unseen_sameOutsideLocals : Unseen SameOutsideLocals where
  bound s s' h := by rw [h]
  answers s s' h := by rw [h]
  delays s s' h := by rw [h]
  after s s' a h := by rw [h]; cases a <;> rfl
  failed s s' e rest h := by rw [h]; rfl

/-- The local cells decide nothing about an operation before it starts: not whether it is refused, and not its
actions; BUF is written before PRINT_FORMATTED reads it (R20, R220). -/
theorem operation_sameOutsideLocals (i : Instr) {s s' : State} (h : SameOutsideLocals s s') (hs : Memory.wf s.buf)
    (hs' : Memory.wf s'.buf) :
    (∀ r, operation i s = .error r → operation i s' = .error r) ∧
    (∀ actions buf, operation i s = .ok (actions, buf) → ∃ buf', operation i s' = .ok (actions, buf')) := by
  have hparams : s'.params = s.params := by rw [h]
  have hbl : s'.bl = s.bl := by rw [h]
  have htext : s'.text = s.text := by rw [h]
  have hfmt : s'.fmt = s.fmt := by rw [h]
  have hnum : s'.num = s.num := by rw [h]
  cases i with
  | printFormatted =>
    simp only [operation, hparams, hbl, hfmt, hnum]
    cases split s.params s.num with
    | error r => simp
    | ok parts =>
      dsimp only
      cases hrender : renderForBuf s.params s.fmt parts.1 parts.2 with
      | error r => simp
      | ok text =>
        have hlen := renderForBuf_length hrender
        simp [printTextActions_buf _ _ text hs hlen, printTextActions_buf _ _ text hs' hlen]
  | setCursor row column =>
    simp only [operation, hparams, hbl]
    split <;> simp
  | _ => simp [operation, hparams, hbl, htext]

/-- Settles O56: two runs of the same actions beside one another, from states that differ in local cells only. -/
theorem localCellsDoNotInfluenceOperations : Obligations.LocalCellsDoNotInfluenceOperations := by
  intro i s s' hs hs' h
  have hbusy : s'.busy = s.busy := by rw [h]
  obtain ⟨herror, hok⟩ := operation_sameOutsideLocals i h hs hs'
  by_cases hb : s.busy = true
  · simp [exec_eq, hbusy, hb]
  · have hidle : s.busy = false := by simpa using hb
    rw [exec_idle hidle, exec_idle (hbusy.trans hidle)]
    cases hop : operation i s with
    | error r => simp [herror r hop]
    | ok started =>
      obtain ⟨actions, buf⟩ := started
      obtain ⟨buf', hop'⟩ := hok actions buf hop
      rw [hop']
      have hstart : SameOutsideLocals { s with buf := buf } { s' with buf := buf' } := by rw [h]; rfl
      exact finish_related unseen_sameOutsideLocals (fun _ _ _ _ _ hr => by rw [hr]; rfl) actions hstart

end Sys2Proof.Machine
end

