-- ==== Sys2Proof/Proofs/MemoryStatements.lean ====
section
/-!
SUPPORT. The statements of 20_memory.md: a message can be read back from the events it sends, and the TEXT space
matters to PRINT_TEXT up to its first NUL only.
-/
namespace Sys2Proof.Machine

open Sys2Proof

/-! ### Messages are told apart by their events -/

/-- The data nibble and the register-select can be read back from the second write of a strobe pair (R84). -/
theorem nibbleEvents_inj {p : Config.Params} (hbits : p.BitsDiffer) {bl rs rs' : Bit} {d d' : Nibble}
    (h : nibbleEvents p bl d rs = nibbleEvents p bl d' rs') : d = d' ∧ rs = rs' := by
  have hclear : frameOf p d bl rs &&& ~~~ enableBit p = frameOf p d' bl rs' &&& ~~~ enableBit p := by
    simp only [nibbleEvents, frameEvents, List.cons.injEq, PortEvent.write.injEq] at h
    obtain ⟨-, -, ⟨hsecond, -⟩, -⟩ := h
    exact hsecond
  exact frameOf_clear_inj hbits hclear

/-- The two nibbles that a message sends make up the whole byte (R144). -/
theorem byte_eq_of_nibbles_eq {v v' : Byte} (hhigh : v.extractLsb' 4 4 = v'.extractLsb' 4 4)
    (hlow : v.extractLsb' 0 4 = v'.extractLsb' 0 4) : v = v' := by
  have hsplit : ∀ b : Byte, b.extractLsb' 4 4 ++ b.extractLsb' 0 4 = b := by decide
  rw [← hsplit v, ← hsplit v', hhigh, hlow]

/-- The high frame gives the high nibble and the register-select, the low frame the low nibble (R144). -/
theorem messageEvents_inj {p : Config.Params} (hbits : p.BitsDiffer) {bl rs rs' : Bit} {v v' : Byte}
    (h : messageEvents p bl v rs = messageEvents p bl v' rs') : v = v' ∧ rs = rs' := by
  obtain ⟨hfirst, hsecond⟩ := List.append_inj h rfl
  obtain ⟨hhigh, hrs⟩ := nibbleEvents_inj hbits hfirst
  obtain ⟨hlow, -⟩ := nibbleEvents_inj hbits hsecond
  exact ⟨byte_eq_of_nibbles_eq hhigh hlow, hrs⟩

/-- A SEND_MESSAGE that returned OK has appended the events of its message. -/
theorem sendMessage_ok_trace {v8 : Byte} {rs : Bit} {s t : State} (h : exec (.sendMessage v8 rs) s = .next t)
    (hok : t.status = some .ok) : t.trace = s.trace ++ messageEvents s.params s.bl v8 rs := by
  obtain ⟨-, rfl, -⟩ := perform_ok h hok
  simp

/-- Settles O16: both messages have appended their events to the trace of `s`, and events determine their message. -/
theorem messageTraceDeterminesValueAndSelect : Obligations.MessageTraceDeterminesValueAndSelect := by
  intro s t v8 v8' rs rs' hbits h h' hok
  have hevents : s.trace ++ messageEvents s.params s.bl v8 rs = s.trace ++ messageEvents s.params s.bl v8' rs' :=
    (sendMessage_ok_trace h hok).symm.trans (sendMessage_ok_trace h' hok)
  exact messageEvents_inj hbits (List.append_cancel_left hevents)

/-! ### The TEXT space after NUL -/

/-- Two states that differ in the TEXT space only, where the second has `u`. -/
def SameWithText (u : List Byte) (s s' : State) : Prop := s' = { s with text := u }

/-- No action reads or writes the TEXT space: a text is turned into actions before the first of them is done (R51). -/
theorem unseen_sameWithText (u : List Byte) : Unseen (SameWithText u) where
  bound s s' h := by rw [h]
  answers s s' h := by rw [h]
  delays s s' h := by rw [h]
  after s s' a h := by rw [h]; cases a <;> rfl
  failed s s' e rest h := by rw [h]; rfl

/-- Given its actions, an operation ends in the same way with any other content of the TEXT space. -/
theorem perform_withText (actions : List Action) (u : List Byte) (s : State) :
    (∀ t, perform actions s = .next t → perform actions { s with text := u } = .next { t with text := u }) ∧
    (∀ r, perform actions s = .refused r → perform actions { s with text := u } = .refused r) := by
  have hrel : SameWithText u s { s with text := u } := rfl
  obtain ⟨hnext, hrefused⟩ :=
    finish_related (unseen_sameWithText u) (fun _ _ _ _ _ h => by rw [h]; rfl) actions hrel
  by_cases hbusy : s.busy = true
  · simp [perform_busy, hbusy]
  · have hidle : s.busy = false := by simpa using hbusy
    have hidle' : { s with text := u }.busy = false := hidle
    rw [perform_idle hidle, perform_idle hidle']
    refine ⟨fun t ht => ?_, hrefused⟩
    obtain ⟨t', ht', rfl⟩ := hnext t ht
    exact ht'

/-- PRINT_TEXT has the same actions for a text and for its bytes before the first NUL. -/
theorem printTextActions_textBytes (p : Config.Params) (bl : Bit) (u : List Byte) :
    printTextActions p bl (some (textBytes p u)) = printTextActions p bl (some u) := by
  rw [printTextActions_some, printTextActions_some, loopFrom_textBytes]

/-- Settles O39: the bytes after the first NUL change no action of PRINT_TEXT, and no action reads the TEXT space. -/
theorem textAfterNulIsNeverRead : Obligations.TextAfterNulIsNeverRead := by
  intro s
  simp only [exec_printText_one, printTextActions_textBytes]
  exact perform_withText _ s.text { s with text := textBytes s.params s.text }

end Sys2Proof.Machine
end

