-- ==== Sys2Proof/Proofs/Codec.lean ====
section
/-!
SUPPORT. The codec of 30_encoding.md: a command word is its three bytes, what the decoder does with each form, and
which encoded forms can give SEND_BYTE.
-/
namespace Sys2Proof

/-! ### The three bytes of a command word (R90) -/

theorem extractLsb'_bytes_op (op a b : Byte) : (op ++ a ++ b).extractLsb' 16 8 = op := by
  rw [BitVec.extractLsb'_append_eq_of_le (by decide)]
  exact BitVec.extractLsb'_append_eq_left

theorem extractLsb'_bytes_a (op a b : Byte) : (op ++ a ++ b).extractLsb' 8 8 = a := by
  rw [BitVec.extractLsb'_append_eq_of_le (by decide)]
  exact BitVec.extractLsb'_append_eq_right

theorem extractLsb'_bytes_b (op a b : Byte) : (op ++ a ++ b).extractLsb' 0 8 = b :=
  BitVec.extractLsb'_append_eq_right

/-- Every command word is made of OP, A and B. -/
theorem exists_bytes (w : BitVec 24) : ∃ op a b : Byte, w = op ++ a ++ b := by
  refine ⟨w.extractLsb' 16 8, w.extractLsb' 8 8, w.extractLsb' 0 8, ?_⟩
  have hhigh : w.extractLsb' 16 8 ++ w.extractLsb' 8 8 = w.extractLsb' 8 16 :=
    BitVec.extractLsb'_append_extractLsb'_eq_extractLsb' rfl
  have hall : w.extractLsb' 8 16 ++ w.extractLsb' 0 8 = w.extractLsb' 0 24 :=
    BitVec.extractLsb'_append_extractLsb'_eq_extractLsb' rfl
  rw [hhigh]
  exact (hall.trans BitVec.extractLsb'_eq_self).symm

theorem toNat_bytes (op a b : Byte) : (op ++ a ++ b).toNat = op.toNat * 65536 + a.toNat * 256 + b.toNat := by
  rw [BitVec.toNat_append, BitVec.toNat_append, ← Nat.shiftLeft_add_eq_or_of_lt a.isLt,
    ← Nat.shiftLeft_add_eq_or_of_lt b.isLt, Nat.shiftLeft_eq, Nat.shiftLeft_eq]
  omega

/-- PRINT_TEXT's V is the lowest bit of B, below seven must-be-zero bits (R91, R92). -/
theorem encode_printText (v : Bit) : encode (.printText v) = .cmd24 (0x03#8 ++ 0x00#8 ++ (0#7 ++ v)) := by
  revert v; decide

theorem append_bit_of_highBits_eq_zero {b : Byte} (h : b.extractLsb' 1 7 = 0) : 0#7 ++ b.extractLsb' 0 1 = b := by
  revert b; decide

theorem highBits_eq_zero_iff (b : Byte) : b.extractLsb' 1 7 = 0 ↔ b.toNat ≤ 1 := by
  revert b; decide

/-! ### Command words -/

theorem decodeCmd24_setCursor (row column : Byte) :
    decodeCmd24 (0x02#8 ++ row ++ column) = .ok (.setCursor row column) := by
  simp only [decodeCmd24, extractLsb'_bytes_op, extractLsb'_bytes_a, extractLsb'_bytes_b]
  rfl

/-- The decoder reads a command word only from the encoding of what it reads: each accepting branch fixes every bit
of the word that is not an operand bit. -/
theorem encode_of_decodeCmd24 {w : BitVec 24} {i : Instr} (h : decodeCmd24 w = .ok i) : encode i = .cmd24 w := by
  obtain ⟨op, a, b, rfl⟩ := exists_bytes w
  simp only [decodeCmd24, extractLsb'_bytes_op, extractLsb'_bytes_a, extractLsb'_bytes_b] at h
  split at h
  · next hinit =>
    split at h
    · next hzero => obtain ⟨rfl, rfl⟩ := hzero; cases h; rw [hinit]; rfl
    · cases h
  split at h
  · next hclear =>
    split at h
    · next hzero => obtain ⟨rfl, rfl⟩ := hzero; cases h; rw [hclear]; rfl
    · cases h
  split at h
  · next hcursor => cases h; rw [hcursor]; rfl
  split at h
  · next htext =>
    split at h
    · next hzero =>
      obtain ⟨rfl, hb⟩ := hzero
      cases h
      rw [htext, encode_printText, append_bit_of_highBits_eq_zero hb]; rfl
    · cases h
  split at h
  · next hformatted =>
    split at h
    · next hzero => obtain ⟨rfl, rfl⟩ := hzero; cases h; rw [hformatted]; rfl
    · cases h
  split at h
  · next hchar =>
    split at h
    · next hzero => cases h; rw [hchar, hzero]; rfl
    · cases h
  · cases h

/-- What the decoder rejects, in the fields of the word: a reserved OP, or a must-be-zero bit that is 1 (R93). -/
theorem decodeCmd24_bytes_error_iff (op a b : Byte) :
    (∃ e, decodeCmd24 (op ++ a ++ b) = .error e) ↔
      5 < op.toNat ∨
      (op.toNat ∈ [0, 1, 4] ∧ ¬ (a.toNat = 0 ∧ b.toNat = 0)) ∨
      (op.toNat = 3 ∧ ¬ (a.toNat = 0 ∧ b.toNat ≤ 1)) ∨
      (op.toNat = 5 ∧ a.toNat ≠ 0) := by
  simp only [decodeCmd24, extractLsb'_bytes_op, extractLsb'_bytes_a, extractLsb'_bytes_b, highBits_eq_zero_iff]
  simp only [BitVec.toNat_eq, BitVec.ofNat_eq_ofNat, BitVec.toNat_ofNat]
  split_ifs <;> simp <;> omega

/-! ### Strobe pairs (R84) -/

theorem isFramePair_port8 (d : Nibble) (blb rs : Bit) :
    isFramePair (port8 d blb 1 rs) (port8 d blb 0 rs) = true := by revert d blb rs; decide

theorem port8Data_port8 (d : Nibble) (blb en rs : Bit) : port8Data (port8 d blb en rs) = d := by
  revert d blb en rs; decide

theorem port8Backlight_port8 (d : Nibble) (blb en rs : Bit) : port8Backlight (port8 d blb en rs) = blb := by
  revert d blb en rs; decide

theorem port8Select_port8 (d : Nibble) (blb en rs : Bit) : port8Select (port8 d blb en rs) = rs := by
  revert d blb en rs; decide

theorem append_nibbles (v8 : Byte) : v8.extractLsb' 4 4 ++ v8.extractLsb' 0 4 = v8 := by revert v8; decide

theorem encodeFramePair_first (d : Nibble) (rs : Bit) :
    (encodeFramePair d rs).extractLsb' 8 8 = port8 d Config.blDefault 1 rs := BitVec.extractLsb'_append_eq_left

theorem encodeFramePair_second (d : Nibble) (rs : Bit) :
    (encodeFramePair d rs).extractLsb' 0 8 = port8 d Config.blDefault 0 rs := BitVec.extractLsb'_append_eq_right

theorem decodeInner_nibblePair (v4 : Nibble) (rs : Bit) :
    decodeInner (.nibblePair (encodeFramePair v4 rs)) = .ok (.sendNibble v4 rs) := by
  simp only [decodeInner, encodeFramePair_first, encodeFramePair_second, isFramePair_port8, port8Data_port8,
    port8Select_port8, if_true]

/-- A byte of the first of two strobe pairs. -/
theorem extractLsb'_pairs_high (x y : BitVec 16) (k : Nat) :
    (x ++ y).extractLsb' (16 + k) 8 = x.extractLsb' k 8 := by
  rw [BitVec.extractLsb'_append_eq_of_le (Nat.le_add_right 16 k), Nat.add_sub_cancel_left]

/-- A byte of the second of two strobe pairs. -/
theorem extractLsb'_pairs_low (x y : BitVec 16) {k : Nat} (hk : k + 8 ≤ 16) :
    (x ++ y).extractLsb' k 8 = y.extractLsb' k 8 := BitVec.extractLsb'_append_eq_of_add_le hk

/-- The four port bytes of a message are the strobe pairs of its two nibbles, with one backlight bit and one
register-select (R84, R85). -/
theorem decodeInner_message (v8 : Byte) (rs : Bit) :
    decodeInner (.message (encodeFramePair (v8.extractLsb' 4 4) rs ++ encodeFramePair (v8.extractLsb' 0 4) rs)) =
      .ok (.sendMessage v8 rs) := by
  simp only [decodeInner, extractLsb'_pairs_high _ _ 8, extractLsb'_pairs_high _ _ 0,
    extractLsb'_pairs_low _ _ (k := 8) (by decide), extractLsb'_pairs_low _ _ (k := 0) (by decide),
    encodeFramePair_first, encodeFramePair_second, isFramePair_port8, port8Data_port8, port8Select_port8,
    port8Backlight_port8, append_nibbles, Bool.and_self, and_self, if_true]

/-- SEND_BYTE is read from its own two port bytes only: no command word and no other inner form gives it. -/
theorem bytePair_of_decode_sendByte {e : Encoding} {frame : Byte} (h : decode e = .ok (.sendByte frame)) :
    ∃ w, e = .inner (.bytePair w) := by
  cases e with
  | cmd24 w =>
    have hencode := encode_of_decodeCmd24 h
    simp [encode] at hencode
  | inner w =>
    cases w with
    | bytePair w => exact ⟨w, rfl⟩
    | nibblePair w | message w | command w =>
      simp only [decode, decodeInner] at h
      split_ifs at h <;> cases h

end Sys2Proof
end

