-- ==== Sys2Proof/Proofs/EncodingStatements.lean ====
section
/-!
SUPPORT. The statements of 30_encoding.md about the codec, the request a step fetches, the display commands and the
STATUS bit.
-/
namespace Sys2Proof.Machine

open Sys2Proof

/-! ### The codec -/

/-- Settles O7: the operands of each form can be read back from the fields that the encoder puts them in. -/
theorem decodingAnEncodedInstructionGivesItBack : Obligations.DecodingAnEncodedInstructionGivesItBack := by
  intro i hwf
  cases i with
  | setCursor row column => exact decodeCmd24_setCursor row column
  | printText v => revert v; decide
  | printChar character => revert character; decide
  | sendByte frame => revert frame; decide
  | sendNibble v4 rs => exact decodeInner_nibblePair v4 rs
  | sendMessage v8 rs => exact decodeInner_message v8 rs
  | setDdramAddr address => revert address; decide
  | init | clear | printFormatted => rfl
  | cmdClearDisplay | cmdReturnHome | cmdEntryModeInc | cmdDisplayOff | cmdDisplayOn | cmdFunctionSet4Bit => rfl

/-- Settles O8: an accepted command word is the encoding of its instruction. -/
theorem encodingADecodedCommandWordGivesItBack : Obligations.EncodingADecodedCommandWordGivesItBack :=
  fun _ _ => encode_of_decodeCmd24

/-- Settles O9: the decoder evaluates on each word. -/
theorem wordsFromTheTablesDecode : Obligations.WordsFromTheTablesDecode := by
  unfold Obligations.WordsFromTheTablesDecode
  decide

/-! ### The request that a step fetches -/

theorem step_request {s : State} {q : Request} {rest : List Request} (hidle : s.busy = false)
    (hqueue : s.queue = q :: rest) : step s = runRequest q rest s := by
  simp [step, hidle, hqueue]

theorem runRequest_of_decode_ok {q : Request} {i : Instr} (h : decode (requestEncoding q) = .ok i)
    (rest : List Request) (s : State) : runRequest q rest s = exec i (acceptRequest q rest s) := by
  simp only [runRequest, h]

theorem runRequest_of_decode_error {q : Request} {e : DecodeError} (h : decode (requestEncoding q) = .error e)
    (rest : List Request) (s : State) : runRequest q rest s = .refused (.undecodable e) := by
  simp only [runRequest, h]

/-- Settles O6: the fields of a command word are the quotients and remainders of its value; and the step that fetches
a request decodes it first. -/
theorem reservedCommandWordsAreRefused : Obligations.ReservedCommandWordsAreRefused := by
  refine ⟨fun w => ?_, fun s c rest e hidle hqueue herror => ?_⟩
  · obtain ⟨op, a, b, rfl⟩ := exists_bytes w
    have ha := a.isLt
    have hb := b.isLt
    rw [decodeCmd24_bytes_error_iff, toNat_bytes]
    simp only [List.mem_cons, List.not_mem_nil, or_false]
    omega
  · rw [step_request hidle hqueue, runRequest_of_decode_error (q := .host c) herror]

/-- Settles O2: the command word is decoded and its operands are sampled. -/
theorem stepRunsTheDecodedHostOperation : Obligations.StepRunsTheDecodedHostOperation := by
  intro s c rest i hidle hqueue hdecode _
  rw [step_request hidle hqueue, runRequest_of_decode_ok (q := .host c) hdecode]
  rfl

/-- Settles O3: the inner form is decoded and the operands stay as they are. -/
theorem stepRunsTheDecodedInnerRequest : Obligations.StepRunsTheDecodedInnerRequest := by
  intro s w rest i hidle hqueue hdecode _
  rw [step_request hidle hqueue, runRequest_of_decode_ok (q := .inner w) hdecode]
  rfl

/-! ### Display commands and STATUS -/

/-- A display command that the port serves. -/
theorem perform_command {s : State} (command : Byte) (hs : Ready s) (hp : PortServes 4 4 s) :
    perform (sendCommandActions s.params s.bl command) s =
      .next (succeeded (commandEvents s.params s.bl command) 4 4 s) :=
  perform_message command s.params.rsCommand hs hp

/-- The "set DDRAM address" command of a 7-bit address is the byte 1aaaaaaa (R87). -/
theorem ddramCommand_address (address : BitVec 7) : ddramCommand address.toNat = (1 : Bit) ++ address := by
  revert address; decide

/-- Settles O22: each display command is one message with register-select COMMAND. -/
theorem displayCommandsSendTheirBytes : Obligations.DisplayCommandsSendTheirBytes := by
  intro s hs hp
  refine ⟨perform_command _ hs hp, perform_command _ hs hp, perform_command _ hs hp, perform_command _ hs hp,
    perform_command _ hs hp, perform_command _ hs hp, fun address => ?_⟩
  rw [← ddramCommand_address]
  exact perform_command _ hs hp

/-- Settles O50: the two values of STATUS. -/
theorem statusBitsAreZeroAndOne : Obligations.StatusBitsAreZeroAndOne :=
  ⟨rfl, rfl, fun st => by cases st <;> rfl⟩

end Sys2Proof.Machine
end

