-- ==== Sys2Proof/Proofs/Framing.lean ====
section
/-!
SUPPORT. The framing of port bytes (R81, R149): every operation but SEND_BYTE writes bytes that the encoder builds,
and the writes of a run, in its trace and in what it leaves pending, are writes of its actions.
-/
namespace Sys2Proof.Machine

open Sys2Proof

/-! ### Framed actions -/

/-- Every port byte that a list of actions writes is one the encoder builds. -/
def FramedActions (p : Config.Params) (bl : Bit) (actions : List Action) : Prop :=
  ∀ b cause, Action.write b cause ∈ actions → byteFramed p bl b = true

@[simp] theorem framedActions_nil (p : Config.Params) (bl : Bit) : FramedActions p bl [] := by
  simp [FramedActions]

@[simp] theorem framedActions_cons (p : Config.Params) (bl : Bit) (a : Action) (rest : List Action) :
    FramedActions p bl (a :: rest) ↔
      (∀ b cause, a = .write b cause → byteFramed p bl b = true) ∧ FramedActions p bl rest := by
  simp only [FramedActions, List.mem_cons, eq_comm (a := a)]
  exact ⟨fun h => ⟨fun b c hb => h b c (.inl hb), fun b c hb => h b c (.inr hb)⟩,
    fun h b c hb => hb.elim (h.1 b c) (h.2 b c)⟩

@[simp] theorem framedActions_append (p : Config.Params) (bl : Bit) (xs ys : List Action) :
    FramedActions p bl (xs ++ ys) ↔ FramedActions p bl xs ∧ FramedActions p bl ys := by
  simp only [FramedActions, List.mem_append, or_imp, forall_and]

/-! ### What the operations write -/

/-- The strobe pair of a frame in the PORT8 layout (R84). -/
theorem framedActions_frame (p : Config.Params) (d : Nibble) (bl rs : Bit) :
    FramedActions p bl (sendByteActions p (frameOf p d bl rs)) := by
  obtain ⟨hset, hclear⟩ := byteFramed_frameOf p d bl rs
  simp [sendByteActions, enableSet, enableClear, enMask_eq, hset, hclear]

@[simp] theorem framedActions_sendNibble (p : Config.Params) (bl : Bit) (v4 : Nibble) (rs : Bit) :
    FramedActions p bl (sendNibbleActions p bl v4 rs) := by
  rw [sendNibbleActions, nibbleFrame_eq]
  exact framedActions_frame p v4 bl rs

@[simp] theorem framedActions_sendMessage (p : Config.Params) (bl : Bit) (v8 : Byte) (rs : Bit) :
    FramedActions p bl (sendMessageActions p bl v8 rs) := by
  rw [sendMessageActions, highFrame_eq, lowFrame_eq, framedActions_append]
  exact ⟨framedActions_frame p _ bl rs, framedActions_frame p _ bl rs⟩

@[simp] theorem framedActions_sendCommand (p : Config.Params) (bl : Bit) (command : Byte) :
    FramedActions p bl (sendCommandActions p bl command) := framedActions_sendMessage p bl command _

@[simp] theorem framedActions_setCursor (p : Config.Params) (bl : Bit) (row column : Byte) :
    FramedActions p bl (setCursorActions p bl row column) := framedActions_sendMessage p bl _ _

@[simp] theorem framedActions_printChar (p : Config.Params) (bl : Bit) (character : Byte) :
    FramedActions p bl (printCharActions p bl character) := framedActions_sendMessage p bl character _

@[simp] theorem framedActions_wrap (p : Config.Params) (bl : Bit) : FramedActions p bl (wrapActions p bl) := by
  rw [wrapActions]
  split <;> simp

theorem framedActions_loopFrom (p : Config.Params) (bl : Bit) (c : LoopCells) (u : List Byte) :
    FramedActions p bl (loopFrom p bl c u) := by
  induction u generalizing c with
  | nil => simp [loopFrom, textLoopActions]
  | cons ch rest ih =>
    simp only [loopFrom, textLoopActions]
    split
    · simp
    split
    · simpa using ih ⟨c.row ^^^ 1, 0, c.idx + 1⟩
    split
    · split
      · simpa using ih ⟨1, 0, c.idx + 1⟩
      · simp
    · simpa using ih ⟨c.row, c.col + 1, c.idx + 1⟩

theorem framedActions_printText (p : Config.Params) (bl : Bit) (text : Option (List Byte)) :
    FramedActions p bl (printTextActions p bl text) := by
  cases text with
  | none => simp [printTextActions]
  | some u => simp [printTextActions_some, clearActions, framedActions_loopFrom]

theorem framedActions_init (p : Config.Params) (bl : Bit) : FramedActions p bl (initActions p bl) := by
  simp [initActions, initCommandActions, initCommands]

/-- Every operation but SEND_BYTE, whose frame is its operand, writes bytes that the encoder builds (R149). -/
theorem framedActions_operation {i : Instr} {s : State} {actions : List Action} {buf : Memory}
    (h : operation i s = .ok (actions, buf)) (hi : ∀ frame, i ≠ .sendByte frame) :
    FramedActions s.params s.bl actions := by
  cases i with
  | sendByte frame => exact absurd rfl (hi frame)
  | init => cases h; exact framedActions_init _ _
  | printText v => cases h; exact framedActions_printText _ _ _
  | printFormatted =>
    simp only [operation] at h
    split at h
    · cases h
    split at h
    · cases h
    · cases h; exact framedActions_printText _ _ _
  | setCursor row column =>
    simp only [operation] at h
    split at h
    · cases h
    · cases h; exact framedActions_setCursor _ _ _ _
  | sendNibble v4 rs => cases h; exact framedActions_sendNibble _ _ _ _
  | _ => cases h; exact framedActions_sendMessage _ _ _ _

/-! ### The writes of a run -/

/-- A write among the events of actions that succeed is one of the actions. -/
theorem write_of_mem_successEvents {actions : List Action} {b : Byte} {r : Bool}
    (h : PortEvent.write b r ∈ successEvents actions) : ∃ cause, Action.write b cause ∈ actions := by
  obtain ⟨a, ha, hevent⟩ := List.mem_flatMap.1 h
  cases a with
  | write b' cause =>
    simp only [actionEvents, List.mem_singleton, PortEvent.write.injEq] at hevent
    exact ⟨cause, hevent.1 ▸ ha⟩
  | _ => simp [actionEvents] at hevent

/-- A request answered false appends its own event. -/
theorem requestAnswer_fail_trace {event : Bool → PortEvent} {cause cause' : FailCause} {s s' : State}
    (h : requestAnswer event cause s = .fail cause' s') : s'.trace = s.trace ++ [event false] := by
  rcases requestAnswer_cases event cause s with ⟨-, e⟩ | ⟨-, -, e⟩ | ⟨_, -, -, e⟩ | ⟨_, -, -, e⟩ <;> rw [e] at h <;>
    cases h
  rfl

/-- A write in the trace after an action that failed was there before, or is that action. -/
theorem write_of_act_fail {a : Action} {s s' : State} {cause : FailCause} {b : Byte} {r : Bool}
    (h : act a s = .fail cause s') (hw : PortEvent.write b r ∈ s'.trace) :
    PortEvent.write b r ∈ s.trace ∨ ∃ cause', a = .write b cause' := by
  cases a with
  | portInit =>
    rw [requestAnswer_fail_trace h] at hw
    simpa using hw
  | write b' cause' =>
    rw [requestAnswer_fail_trace h, List.mem_append, List.mem_singleton, PortEvent.write.injEq] at hw
    exact hw.imp_right fun hb => ⟨cause', by rw [hb.1]⟩
  | delay n => rcases portDelay_cases n s with ⟨-, e⟩ | ⟨-, -, e⟩ | ⟨-, -, e⟩ <;> simp [act, e] at h
  | raise cause' => cases h; exact .inl hw
  | bindPort | setStep | setRow | setCol | setIdx => cases h

/-- However a run ends, a write in its trace was there before or is one of its actions. -/
theorem write_of_mem_finish_trace {actions : List Action} {s t : State} {b : Byte} {r : Bool}
    (h : finish (run actions s) = .next t) (hw : PortEvent.write b r ∈ t.trace) :
    PortEvent.write b r ∈ s.trace ∨ ∃ cause, Action.write b cause ∈ actions := by
  have hdone : ∀ {pre}, PortEvent.write b r ∈ (afterActions pre s).trace →
      PortEvent.write b r ∈ s.trace ∨ ∃ cause, Action.write b cause ∈ pre := fun hpre => by
    rw [afterActions_trace, List.mem_append] at hpre
    exact hpre.imp_right write_of_mem_successEvents
  rcases run_cases actions s with e | ⟨pre, a, post, cause, s', rfl, -, hfail, e⟩ | ⟨pre, a, post, rfl, -, -, e⟩ |
    ⟨_, _, _, _, _, _, _, e⟩
  · simp only [e, finish_done, Host.Outcome.next.injEq] at h
    subst h
    exact hdone hw
  · simp only [e, finish_failed, Host.Outcome.next.injEq] at h
    subst h
    rcases write_of_act_fail hfail hw with hpre | ⟨cause', rfl⟩
    · exact (hdone hpre).imp_right fun ⟨c, hc⟩ => ⟨c, List.mem_append_left _ hc⟩
    · exact .inr ⟨cause', by simp⟩
  · simp only [e, finish_waiting, Host.Outcome.next.injEq] at h
    subst h
    exact (hdone hw).imp_right fun ⟨c, hc⟩ => ⟨c, List.mem_append_left _ hc⟩
  · simp [e] at h

/-- What a run leaves pending is the rest of its actions. -/
theorem mem_of_mem_finish_pending {actions : List Action} {s t : State} {a : Action}
    (h : finish (run actions s) = .next t) (ha : a ∈ t.pending) : a ∈ actions := by
  rcases run_cases actions s with e | ⟨_, _, _, _, _, -, -, -, e⟩ | ⟨pre, b, post, rfl, -, -, e⟩ |
    ⟨_, _, _, _, _, _, _, e⟩
  · simp only [e, finish_done, Host.Outcome.next.injEq] at h
    subst h
    simp at ha
  · simp only [e, finish_failed, Host.Outcome.next.injEq] at h
    subst h
    simp at ha
  · simp only [e, finish_waiting, Host.Outcome.next.injEq] at h
    subst h
    exact List.mem_append_right _ ha
  · simp [e] at h

/-! ### Framed states -/

/-- However a run of framed actions ends, it ends in a framed state. -/
theorem framed_of_finish_run {actions : List Action} {s t : State} (h : finish (run actions s) = .next t)
    (htrace : ∀ b r, PortEvent.write b r ∈ s.trace → byteFramed s.params s.bl b = true)
    (hactions : FramedActions s.params s.bl actions) (hqueue : ∀ w, Request.inner (.bytePair w) ∉ s.queue) :
    Framed t := by
  obtain ⟨hbl, hparams, hq⟩ := finish_constantParts h
  refine ⟨fun b r hw => ?_, fun b cause hb => ?_, hq ▸ hqueue⟩ <;> rw [hbl, hparams]
  · rcases write_of_mem_finish_trace h hw with hold | ⟨cause, hnew⟩
    · exact htrace b r hold
    · exact hactions b cause hnew
  · exact hactions b cause (mem_of_mem_finish_pending h hb)

/-- Settles O60: what is pending is framed already, and a request that is no bare SEND_BYTE starts an operation whose
bytes the encoder builds. -/
theorem everyPortByteIsFramed : Obligations.EveryPortByteIsFramed := by
  intro s t hframed hstep
  rcases step_next hstep with ⟨-, hresume⟩ | ⟨-, -, rfl⟩ | ⟨q, rest, i, -, hqueue, hdecode, hexec⟩
  · exact framed_of_finish_run hresume hframed.trace hframed.pending hframed.queue
  · exact hframed
  · have hnoPair : ∀ w, Request.inner (.bytePair w) ∉ q :: rest := hqueue ▸ hframed.queue
    have hi : ∀ frame, i ≠ .sendByte frame := by
      rintro frame rfl
      obtain ⟨w, hw⟩ := bytePair_of_decode_sendByte hdecode
      cases q with
      | host c => cases hw
      | inner w' => cases hw; exact hnoPair w List.mem_cons_self
    obtain ⟨-, actions, buf, hop, hrun⟩ := exec_next hexec
    have hactions := framedActions_operation hop hi
    simp only [acceptRequest_params, acceptRequest_bl] at hactions
    refine framed_of_finish_run hrun ?_ ?_ ?_
    · simpa using hframed.trace
    · simpa using hactions
    · simpa using fun w hw => hnoPair w (List.mem_cons_of_mem _ hw)

end Sys2Proof.Machine
end

