-- ==== Sys2Proof/Proofs/TransportStatements.lean ====
section
/-!
SUPPORT. The statements of 40_transport.md: SEND_BYTE on every path of its pseudocode, and the operations that write
no cell of LCD4.
-/
namespace Sys2Proof.Machine

open Sys2Proof

/-! ### A run that fails at a write -/

/-- A write answered false is the last event of the run (R127). -/
theorem run_write_false {s : State} {answers : List Bool} (hbound : s.portBound = true)
    (hanswer : s.answers = false :: answers) (b : Byte) (cause : FailCause) (rest : List Action) :
    run (.write b cause :: rest) s =
      .failed cause { s with answers := answers, trace := s.trace ++ [.write b false] } := by
  simp [run, act, portWrite, requestAnswer, hbound, hanswer]

/-- A run fails at a write whose answer is false after the port has served the actions before it (R15, R127). -/
theorem run_fails_at_write {pre : List Action} {s : State} {answers : List Bool}
    (hraise : ∀ c, Action.raise c ∉ pre) (hbound : s.portBound = true)
    (hserves : PortServes (answersNeeded pre) (delaysNeeded pre) s)
    (hanswer : s.answers.drop (answersNeeded pre) = false :: answers) (b : Byte) (cause : FailCause)
    (post : List Action) :
    run (pre ++ .write b cause :: post) s = .failed cause { afterActions pre s with
      answers := answers, trace := s.trace ++ successEvents pre ++ [.write b false] } := by
  have hnext : (afterActions pre s).answers = false :: answers := by rw [afterActions_answers, hanswer]
  rw [run_append, run_of_serves hraise hbound hserves, ← afterActions_trace]
  exact run_write_false (afterActions_portBound hbound) hnext b cause post

/-! ### SEND_BYTE -/

/-- A strobe pair whose first write is answered false: that write is its one event. -/
theorem run_sendByte_first_false {s : State} {answers : List Bool} (hbound : s.portBound = true)
    (hanswer : s.answers = false :: answers) (frame : Byte) :
    run (sendByteActions s.params frame) s = .failed .writeEn { s with
      answers := answers, trace := s.trace ++ [.write (frame ||| enableBit s.params) false] } := by
  rw [sendByteActions, run_write_false hbound hanswer, enableSet, enMask_eq]

/-- A strobe pair whose second write is answered false: no wait follows that write. -/
theorem run_sendByte_second_false {s : State} {answers : List Bool} {d : Nat} (hbound : s.portBound = true)
    (hanswer : s.answers = true :: false :: answers) (hreturn : s.delayReturns = d + 1) (frame : Byte) :
    run (sendByteActions s.params frame) s = .failed .writeDis { s with
      answers := answers, delayReturns := d,
      trace := s.trace ++ [.write (frame ||| enableBit s.params) true, .delay 1,
        .write (frame &&& ~~~ enableBit s.params) false] } := by
  have hfail := run_fails_at_write (pre := [.write (enableSet s.params frame) .writeEn, .delay Config.tStrobe])
    (by simp) hbound (by simp [PortServes, actionAnswers, actionDelays, hanswer, hreturn])
    (by rw [hanswer]; rfl) (enableClear s.params frame) .writeDis [.delay Config.tStrobe]
  simpa [sendByteActions, afterAction, actionEvents, enableSet, enableClear, enMask_eq, Config.tStrobe, hreturn]
    using hfail

/-- A strobe pair that the port serves. -/
theorem perform_sendByte {s : State} (frame : Byte) (hs : Ready s) (hp : PortServes 2 2 s) :
    perform (sendByteActions s.params frame) s = .next (succeeded (frameEvents s.params frame) 2 2 s) := by
  rw [perform_requests (requests_sendByte _ _) hs hp, successEvents_sendByte]
  rfl

/-- Settles O10: the first request is refused, the first write fails, the second one fails, or both are served. -/
theorem sendByteFollowsItsPseudocode : Obligations.SendByteFollowsItsPseudocode := by
  intro frame s hidle
  have hexec : exec (.sendByte frame) s = finish (run (sendByteActions s.params frame) s) := perform_idle hidle
  refine ⟨fun hunbound => ?_, fun hbound rest hanswers => ?_, fun hbound rest d hanswers hreturn => ?_,
    fun hbound hserves => perform_sendByte frame ⟨hidle, hbound⟩ hserves⟩
  · rw [hexec, ← List.append_nil (sendByteActions _ _), run_frame_unbound hunbound, finish_refused]
  · rw [hexec, run_sendByte_first_false hbound hanswers, finish_failed, deliver, hidle]
  · rw [hexec, run_sendByte_second_false hbound hanswers hreturn, finish_failed, deliver, hidle]

/-! ### Operations that write no cell -/

/-- Apart from INIT, PRINT_TEXT and PRINT_FORMATTED, an operation makes port requests only, on BUF as it stands. -/
theorem operation_requests {i : Instr} {s : State} {actions : List Action} {buf : Memory}
    (h : operation i s = .ok (actions, buf)) (hinit : i ≠ .init) (htext : ∀ v, i ≠ .printText v)
    (hformatted : i ≠ .printFormatted) : (∀ a ∈ actions, isRequest a = true) ∧ buf = s.buf := by
  cases i with
  | init => exact absurd rfl hinit
  | printText v => exact absurd rfl (htext v)
  | printFormatted => exact absurd rfl hformatted
  | setCursor row column =>
    simp only [operation] at h
    split at h
    · cases h
    · cases h
      exact ⟨requests_sendMessage _ _ _ _, rfl⟩
  | sendByte frame | sendNibble v4 rs =>
    cases h
    exact ⟨requests_sendByte _ _, rfl⟩
  | _ =>
    cases h
    exact ⟨requests_sendMessage _ _ _ _, rfl⟩

/-- The state without STATUS, BUSY and the position, the trace, and the port's inputs: all that port requests and the
end of an operation leave alone. -/
def withoutTransport (s : State) : State :=
  { s with status := none, busy := false, pending := [], trace := [], answers := [], delayReturns := 0 }

theorem withoutTransport_blind : Blind withoutTransport := ⟨fun _ _ _ _ => rfl, fun _ _ _ => rfl⟩

theorem withoutTransport_afterAction {a : Action} (h : isRequest a = true) (s : State) :
    withoutTransport (afterAction a s) = withoutTransport s := by
  cases a with
  | portInit | write | delay => rfl
  | bindPort | setStep | setRow | setCol | setIdx | raise => cases h

/-- However a run of port requests ends, it changes only STATUS, BUSY and the position, the trace, and the port's
inputs. -/
theorem finish_requests_frame {actions : List Action} {s t : State} (hactions : ∀ a ∈ actions, isRequest a = true)
    (h : finish (run actions s) = .next t) :
    t = { s with status := t.status, busy := t.busy, pending := t.pending, trace := t.trace,
                 answers := t.answers, delayReturns := t.delayReturns } := by
  have hsame : withoutTransport t = withoutTransport s :=
    finish_keeps withoutTransport_blind (fun a ha => withoutTransport_afterAction (hactions a ha)) h
  calc t = { withoutTransport t with status := t.status, busy := t.busy, pending := t.pending, trace := t.trace,
                                     answers := t.answers, delayReturns := t.delayReturns } := rfl
    _ = _ := by rw [hsame]; rfl

/-- Settles O23: a run of port requests writes no cell, and such an operation starts on BUF as it stands. -/
theorem oneMessageOperationsWriteNoCell : Obligations.OneMessageOperationsWriteNoCell := by
  intro i s t hinit htext hformatted hexec
  obtain ⟨-, actions, buf, hop, hrun⟩ := exec_next hexec
  obtain ⟨hactions, rfl⟩ := operation_requests hop hinit htext hformatted
  have hframe := finish_requests_frame hactions hrun
  exact ⟨hframe, fun a => by rw [hframe]⟩

end Sys2Proof.Machine
end

