-- ==== Sys2Proof/Proofs/EncoderStatements.lean ====
section
/-!
SUPPORT. The statements of 41_encoder.md: SEND_NIBBLE is SEND_BYTE of one frame, SEND_MESSAGE is SEND_BYTE of two, and
where a message stops when a write is answered false.
-/
namespace Sys2Proof.Machine

open Sys2Proof

/-! ### Two lists of actions in a row -/

/-- A list of actions that failed ends the operation: nothing after it is done (R15, R248). -/
theorem perform_append_of_fail {xs : List Action} {s t : State} (h : perform xs s = .next t)
    (hfail : t.status = some .fail) (ys : List Action) : perform (xs ++ ys) s = .next t := by
  obtain ⟨hidle, ⟨-, rfl⟩ | ⟨pre, a, post, cause, s', rfl, hpre, ha, rfl⟩ | ⟨_, _, _, _, _, _, rfl⟩⟩ :=
    perform_next h
  · cases hfail
  · rw [perform_idle hidle, List.append_assoc, run_append, hpre]
    simp [run, ha]
  · cases hfail

/-- After a list of actions that returned OK, the rest is done as an operation by itself would be (R15). -/
theorem perform_append_of_ok {xs : List Action} {s t : State} (h : perform xs s = .next t)
    (hok : t.status = some .ok) (ys : List Action) : perform (xs ++ ys) s = perform ys t := by
  obtain ⟨hidle, rfl, hrun⟩ := perform_ok h hok
  have hsame : SameToFinish (afterActions xs s) (deliver .ok (afterActions xs s)) := rfl
  rw [perform_idle hidle, perform_idle (deliver_busy _ _), run_append, hrun]
  exact finish_run_congr ys hsame

/-! ### An operation that fails at a write -/

/-- An operation whose port requests before a write are served, and whose write is answered false: it returns FAIL with
the events of those requests and the failed write, and changes nothing else (R127). -/
theorem perform_requests_fails_at_write {pre : List Action} {s : State} {answers : List Bool}
    (hpre : ∀ a ∈ pre, isRequest a = true) (hs : Ready s)
    (hanswers : s.answers = List.replicate (answersNeeded pre) true ++ false :: answers)
    (hreturns : delaysNeeded pre ≤ s.delayReturns) (b : Byte) (cause : FailCause) (post : List Action) :
    perform (pre ++ .write b cause :: post) s = .next { s with
      status := some .fail, pending := [], answers := answers, delayReturns := s.delayReturns - delaysNeeded pre,
      trace := s.trace ++ successEvents pre ++ [.write b false] } := by
  obtain ⟨hidle, hbound⟩ := hs
  have hserves : PortServes (answersNeeded pre) (delaysNeeded pre) s :=
    ⟨by simp [hanswers], by simp [hanswers], hreturns⟩
  have hfalse : s.answers.drop (answersNeeded pre) = false :: answers := by simp [hanswers]
  rw [perform_idle hidle, run_fails_at_write (not_raise_of_requests hpre) hbound hserves hfalse, finish_failed,
    afterActions_requests hpre, deliver, hidle]

/-! ### SEND_NIBBLE -/

/-- Settles O11: SEND_NIBBLE runs the strobe pair of the frame that it builds. -/
theorem sendNibbleIsSendByteOfItsFrame : Obligations.SendNibbleIsSendByteOfItsFrame := by
  intro v4 rs s
  calc exec (.sendNibble v4 rs) s = perform (sendByteActions s.params (nibbleFrame s.params s.bl v4 rs)) s := rfl
    _ = perform (sendByteActions s.params (frameOf s.params v4 s.bl rs)) s := by rw [nibbleFrame_eq]

/-- Settles O12: SEND_NIBBLE is SEND_BYTE of its frame, which completes. -/
theorem sendNibbleCompletes : Obligations.SendNibbleCompletes := by
  intro v4 rs s hs hserves
  rw [sendNibbleIsSendByteOfItsFrame]
  exact perform_sendByte (frameOf s.params v4 s.bl rs) hs hserves

/-! ### SEND_MESSAGE -/

/-- SEND_MESSAGE runs the strobe pairs of two frames (R144). -/
theorem exec_sendMessage (v8 : Byte) (rs : Bit) (s : State) :
    exec (.sendMessage v8 rs) s =
      perform (sendByteActions s.params (frameOf s.params (v8.extractLsb' 4 4) s.bl rs) ++
        sendByteActions s.params (frameOf s.params (v8.extractLsb' 0 4) s.bl rs)) s := by
  rw [← highFrame_eq, ← lowFrame_eq]
  rfl

/-- Settles O13: the low frame follows a high frame that returned OK, and nothing follows one that failed. -/
theorem sendMessageIsHighThenLowFrame : Obligations.SendMessageIsHighThenLowFrame := by
  intro v8 rs s t hhigh
  rw [exec_sendMessage]
  refine ⟨fun hfail => perform_append_of_fail hhigh hfail _, fun hok => ?_⟩
  have hparams : t.params = s.params := by
    obtain ⟨-, rfl, -⟩ := perform_ok hhigh hok
    rw [deliver_params, afterActions_frame]
  rw [perform_append_of_ok hhigh hok, ← hparams]
  rfl

/-- Settles O14: a message makes port requests only, and the port serves them. -/
theorem sendMessageCompletes : Obligations.SendMessageCompletes :=
  fun v8 rs _ hs hserves => perform_message v8 rs hs hserves

/-- Before write number k + 1 of a message stand its first k writes, each with its wait (R145). -/
theorem sendMessageActions_split {p : Config.Params} {bl rs : Bit} {v8 b : Byte} {k : Nat} (hk : k < 4)
    (hb : (writesOf (messageEvents p bl v8 rs))[k]? = some b) :
    ∃ pre cause post, sendMessageActions p bl v8 rs = pre ++ .write b cause :: post ∧
      answersNeeded pre = k ∧ delaysNeeded pre = k ∧ successEvents pre = (messageEvents p bl v8 rs).take (2 * k) := by
  rw [← successEvents_sendMessage] at hb ⊢
  refine ⟨(sendMessageActions p bl v8 rs).take (2 * k), ?_⟩
  obtain rfl | rfl | rfl | rfl : k = 0 ∨ k = 1 ∨ k = 2 ∨ k = 3 := by omega
  all_goals
    cases hb
    exact ⟨_, _, rfl, rfl, rfl, rfl⟩

/-- Settles O15: the port serves what stands before the write that it answers false. -/
theorem sendMessageFailsAtTheFirstFalseWrite : Obligations.SendMessageFailsAtTheFirstFalseWrite := by
  intro v8 rs s k rest b hs hk hanswers hreturns hb
  obtain ⟨pre, cause, post, hsplit, hpreAnswers, hpreDelays, hpreEvents⟩ := sendMessageActions_split hk hb
  have hpre : ∀ a ∈ pre, isRequest a = true := fun a ha =>
    requests_sendMessage s.params s.bl v8 rs a (hsplit ▸ List.mem_append_left _ ha)
  rw [← hpreAnswers] at hanswers
  rw [← hpreDelays] at hreturns
  calc exec (.sendMessage v8 rs) s = perform (sendMessageActions s.params s.bl v8 rs) s := rfl
    _ = perform (pre ++ .write b cause :: post) s := by rw [hsplit]
    _ = _ := by rw [perform_requests_fails_at_write hpre hs hanswers hreturns, hpreDelays, hpreEvents]

end Sys2Proof.Machine
end

