-- ==== Sys2Proof/Proofs/InitStatements.lean ====
section
/-!
SUPPORT. The statements of 42_init_sequencer.md: what INIT writes on every path, what it sends and asks for when it
succeeds, and where it stops when a request is answered false.
-/
namespace Sys2Proof.Machine

open Sys2Proof

/-- An idle LCD4 starts INIT with PORT_BOUND <- 1 and goes on with a port (R165, R169). -/
theorem exec_init {s : State} (hidle : s.busy = false) :
    exec .init s = finish (run (initTail s.params s.bl) { s with portBound := true }) :=
  perform_idle hidle

theorem successEvents_initTail (p : Config.Params) (bl : Bit) : successEvents (initTail p bl) = initEvents p bl :=
  successEvents_init p bl

theorem initTail_no_raise (p : Config.Params) (bl : Bit) : ∀ c, Action.raise c ∉ initTail p bl :=
  fun c hc => initActions_no_raise p bl c (List.mem_cons_of_mem _ hc)

/-! ### The cells that INIT writes -/

/-- The state without PORT_BOUND, STEP and what port requests and the end of an operation write: all that INIT leaves
alone. -/
def withoutInitCells (s : State) : State := withoutTransport { s with portBound := false, initStep := 0 }

theorem withoutInitCells_blind : Blind withoutInitCells := ⟨fun _ _ _ _ => rfl, fun _ _ _ => rfl⟩

theorem withoutInitCells_afterAction {a : Action} (h : isInitAction a = true) (s : State) :
    withoutInitCells (afterAction a s) = withoutInitCells s := by
  cases a with
  | portInit | write | delay | setStep => rfl
  | bindPort | setRow | setCol | setIdx | raise => cases h

/-- Settles O28: after PORT_BOUND <- 1 INIT makes port requests and advances STEP, and no run clears PORT_BOUND. -/
theorem initBindsThePortAndKeepsTheRest : Obligations.InitBindsThePortAndKeepsTheRest := by
  intro s t hexec
  obtain ⟨hidle, -⟩ := exec_next hexec
  rw [exec_init hidle] at hexec
  have hbound : t.portBound = true := finish_portBound hexec rfl
  have hsame : withoutInitCells t = withoutInitCells { s with portBound := true } :=
    finish_keeps withoutInitCells_blind
      (fun a ha => withoutInitCells_afterAction (initTail_isInitAction _ _ a ha)) hexec
  have hframe : t = { s with portBound := true, initStep := t.initStep, status := t.status, busy := t.busy,
                             pending := t.pending, trace := t.trace, answers := t.answers,
                             delayReturns := t.delayReturns } :=
    calc t = { withoutInitCells t with portBound := t.portBound, initStep := t.initStep, status := t.status,
                                       busy := t.busy, pending := t.pending, trace := t.trace, answers := t.answers,
                                       delayReturns := t.delayReturns } := rfl
      _ = _ := by rw [hsame, hbound]; rfl
  exact ⟨hframe, fun a => by rw [hframe]⟩

/-! ### An INIT that succeeds -/

/-- Settles O24: the port serves every request of INIT, and the frame of INIT (O28) covers the other cells. -/
theorem initEmitsItsFixedSequence : Obligations.InitEmitsItsFixedSequence := by
  intro s hidle hserves
  have hserves' : PortServes (answersNeeded (initTail s.params s.bl)) (delaysNeeded (initTail s.params s.bl))
      { s with portBound := true } := by
    rw [answersNeeded_initTail, delaysNeeded_initTail]
    exact hserves
  have hexec : exec .init s =
      .next (deliver .ok (afterActions (initTail s.params s.bl) { s with portBound := true })) := by
    rw [exec_init hidle, run_of_serves (initTail_no_raise _ _) rfl hserves', finish_done]
  obtain ⟨hframe, -⟩ := initBindsThePortAndKeepsTheRest _ _ hexec
  rw [hexec, hframe]
  simp [succeeded, initStep_afterActions_init, successEvents_initTail, answersNeeded_initTail, delaysNeeded_initTail]

/-- An INIT that returned OK has appended its fixed sequence. -/
theorem exec_init_ok_trace {s t : State} (h : exec .init s = .next t) (hok : t.status = some .ok) :
    t.trace = s.trace ++ initEvents s.params s.bl := by
  obtain ⟨-, rfl, -⟩ := perform_ok h hok
  rw [deliver_trace, afterActions_trace, successEvents_init]

theorem writesOf_append (xs ys : List PortEvent) : writesOf (xs ++ ys) = writesOf xs ++ writesOf ys :=
  List.filterMap_append

/-- Settles O25: the writes of the fixed sequence, evaluated for the default parameters. -/
theorem initWritesTheDefaultBytes : Obligations.InitWritesTheDefaultBytes := by
  intro s t hparams hbl hexec hok
  rw [exec_init_ok_trace hexec hok, hparams, hbl, writesOf_append]
  exact congrArg (writesOf s.trace ++ ·) (by decide)

/-- The writes of INIT: two for each of the four boot frames and four for each of the six commands (R163). -/
theorem length_writesOf_init (p : Config.Params) (bl : Bit) : (writesOf (initEvents p bl)).length = 32 := rfl

/-- The waits of INIT: at power-on, after each write of the four boot frames and after the first two of these frames,
and for each command one before its message and one after each of its four writes (R163). -/
theorem delaysOf_init (p : Config.Params) (bl : Bit) :
    delaysOf (initEvents p bl) =
      ([[20], [1, 1], [10], [1, 1], [1], [1, 1], [1, 1]] ++ List.replicate 6 [1, 1, 1, 1, 1]).flatten := rfl

/-- Settles O26: the fixed sequence is one `portInit` event and then the writes and delays, which are counted. -/
theorem initCountsHoldForAllParameters : Obligations.InitCountsHoldForAllParameters := by
  intro s t hexec hok
  obtain ⟨events, hevents, hno⟩ := initEvents_head s.params s.bl
  have hwrites : writesOf events = writesOf (initEvents s.params s.bl) := by rw [hevents]; rfl
  have hdelays : delaysOf events = delaysOf (initEvents s.params s.bl) := by rw [hevents]; rfl
  refine ⟨events, ?_, hno, ?_, ?_, ?_⟩
  · rw [exec_init_ok_trace hexec hok, hevents]
  · rw [hwrites, length_writesOf_init]
  · rw [hdelays, delaysOf_init]; decide
  · rw [requestedDelay, hdelays, delaysOf_init]; decide

/-! ### An INIT that fails -/

/-- A `portInit` request answered false is the only event of INIT (R161, R166). -/
theorem run_initTail_portInit_false {s : State} {rest : List Bool} (hbound : s.portBound = true)
    (hanswer : s.answers = false :: rest) (p : Config.Params) (bl : Bit) :
    run (initTail p bl) s = .failed .portInit { s with
      initStep := 1, answers := rest, trace := s.trace ++ [.portInit false] } := by
  obtain ⟨post, hpost⟩ : ∃ post, initTail p bl = .setStep 1 :: .portInit :: post := ⟨_, rfl⟩
  simp [hpost, run, act, portInit, requestAnswer, hbound, hanswer]

/-- The answers that a list of actions takes are those of its writes and of its `portInit` requests. -/
theorem answersNeeded_eq_writes_add_portInits (actions : List Action) :
    answersNeeded actions =
      (writesOf (successEvents actions)).length + (successEvents actions).count (.portInit true) := by
  induction actions with
  | nil => rfl
  | cons a rest ih =>
    rw [answersNeeded_cons, successEvents_cons, writesOf_append, List.length_append, List.count_append, ih]
    cases a <;> simp [actionAnswers, actionEvents, writesOf] <;> omega

/-- `portInit` is requested once, before every write (R163). -/
theorem count_portInit_before_write {p : Config.Params} {bl : Bit} {before after : List PortEvent} {b : Byte}
    (h : initEvents p bl = before ++ .write b true :: after) : before.count (.portInit true) = 1 := by
  obtain ⟨events, hevents, hno⟩ := initEvents_head p bl
  rw [hevents] at h
  cases before with
  | nil => simp at h
  | cons e before =>
    obtain ⟨rfl, rfl⟩ : PortEvent.portInit true = e ∧ events = before ++ .write b true :: after := by simpa using h
    have hno' : PortEvent.portInit true ∉ before := fun hmem => hno true (List.mem_append_left _ hmem)
    rw [List.count_cons_self, List.count_eq_zero_of_not_mem hno']

/-- What INIT does before one of its writes, and the answers and delays this takes: one answer is for `portInit`. -/
theorem initTail_split_at_write {p : Config.Params} {bl : Bit} {before after : List PortEvent} {b : Byte}
    (h : initEvents p bl = before ++ .write b true :: after) :
    ∃ pre cause post, initTail p bl = pre ++ .write b cause :: post ∧ successEvents pre = before ∧
      answersNeeded pre = (writesOf before).length + 1 ∧ delaysNeeded pre = (delaysOf before).length := by
  obtain ⟨pre, a, post, hsplit, hpre, ha⟩ := successEvents_split ((successEvents_initTail p bl).trans h)
  obtain ⟨cause, rfl⟩ : ∃ cause, a = .write b cause := by
    cases a with
    | write b' cause => exact ⟨cause, by simpa [actionEvents] using ha⟩
    | _ => simp [actionEvents] at ha
  refine ⟨pre, cause, post, hsplit, hpre, ?_, ?_⟩
  · rw [answersNeeded_eq_writes_add_portInits, hpre, count_portInit_before_write h]
  · rw [delaysNeeded_eq, hpre]

/-- Settles O27: `portInit` is answered false, or the port serves what stands before a write that it answers false. -/
theorem initFailureEndsTheSequence : Obligations.InitFailureEndsTheSequence := by
  intro s hidle
  rw [exec_init hidle]
  refine ⟨fun rest hanswers => ?_, fun before b after rest hevents hanswers hreturns => ?_⟩
  · have hfail := run_initTail_portInit_false (s := { s with portBound := true }) rfl hanswers s.params s.bl
    rw [hfail, finish_failed]
    exact ⟨_, rfl, rfl, rfl, rfl⟩
  · obtain ⟨pre, cause, post, hsplit, hpreEvents, hpreAnswers, hpreDelays⟩ := initTail_split_at_write hevents
    have hraise : ∀ c, Action.raise c ∉ pre := fun c hc =>
      initTail_no_raise s.params s.bl c (hsplit ▸ List.mem_append_left _ hc)
    rw [← List.replicate_succ, ← hpreAnswers] at hanswers
    have hserves : PortServes (answersNeeded pre) (delaysNeeded pre) { s with portBound := true } :=
      ⟨by simp [hanswers], by simp [hanswers], by simpa [hpreDelays] using hreturns⟩
    have hfalse : s.answers.drop (answersNeeded pre) = false :: rest := by simp [hanswers]
    rw [hsplit, run_fails_at_write hraise rfl hserves hfalse, finish_failed, hpreEvents]
    exact ⟨_, rfl, rfl, rfl, rfl, rfl⟩

end Sys2Proof.Machine
end

