-- ==== Sys2Proof/Proofs/CursorStatements.lean ====
section
/-!
SUPPORT. The statements of 43_cursor_text.md about the one-message operations: CLEAR and PRINT_CHAR are messages, and
SET_CURSOR is a message of its address where that fits.
-/
namespace Sys2Proof.Machine

open Sys2Proof

/-! ### CLEAR and PRINT_CHAR -/

/-- Settles O17: CLEAR and SEND_MESSAGE of the clear-display command run the same actions. -/
theorem clearSendsTheClearDisplayMessage : Obligations.ClearSendsTheClearDisplayMessage := by
  refine ⟨fun _ => rfl, fun s hs hserves => ?_⟩
  exact sendMessageCompletes s.params.cmdClearDisplay s.params.rsCommand s hs hserves

/-- Settles O21: PRINT_CHAR and SEND_MESSAGE of the character run the same actions. -/
theorem printCharSendsTheCharacterAsData : Obligations.PrintCharSendsTheCharacterAsData := by
  intro character s
  exact ⟨rfl, sendMessageCompletes character s.params.rsData s⟩

/-! ### The address of SET_CURSOR -/

/-- SET_CURSOR reads its operands through their address only. -/
theorem exec_setCursor_congr {row column row' column' : Byte} (h : ddramAddr row column = ddramAddr row' column')
    (s : State) : exec (.setCursor row column) s = exec (.setCursor row' column') s := by
  simp only [exec, execSetCursor, setCursorActions, h]

/-- Row 1 starts at 0x40 (R56). -/
theorem ddramAddr_one (column : Byte) : ddramAddr 1 column = 0x40 + column.toNat := rfl

/-- Every row but 1 starts at 0 (R56). -/
theorem ddramAddr_of_ne_one {row : Byte} (h : row ≠ 1) (column : Byte) : ddramAddr row column = column.toNat := by
  rw [ddramAddr, if_neg h, Config.rowBase0, Nat.zero_add]

/-- The operands whose address exceeds 0x7F (R184). -/
theorem maxDdramAddr_lt_ddramAddr_iff (row column : Byte) :
    Config.maxDdramAddr < ddramAddr row column ↔
      (row = 1 ∧ 64 ≤ column.toNat) ∨ (row ≠ 1 ∧ 128 ≤ column.toNat) := by
  rw [Config.maxDdramAddr]
  by_cases h : row = 1
  · simp only [h, ddramAddr_one, true_and, ne_eq, not_true, false_and, or_false]; omega
  · simp only [h, ddramAddr_of_ne_one h, false_and, ne_eq, not_false_iff, true_and, false_or]; omega

/-- SET_CURSOR whose address fits is SEND_MESSAGE of the "set DDRAM address" command (R181). -/
theorem exec_setCursor_of_le {row column : Byte} (h : ddramAddr row column ≤ Config.maxDdramAddr) (s : State) :
    exec (.setCursor row column) s =
      exec (.sendMessage (ddramCommand (ddramAddr row column)) s.params.rsCommand) s := by
  have hfits : ¬ ddramAddr row column > Config.maxDdramAddr := Nat.not_lt.mpr h
  rw [exec_eq, exec_eq]
  simp only [operation, if_neg hfits]
  rfl

/-- An idle SET_CURSOR whose address does not fit is refused before anything is sent (R247). -/
theorem exec_setCursor_of_lt {row column : Byte} {s : State} (hidle : s.busy = false)
    (h : Config.maxDdramAddr < ddramAddr row column) : exec (.setCursor row column) s = .refused .addressOverflow := by
  rw [exec_eq]
  simp [operation, hidle, h]

/-- A run is refused for one reason only: no port has been injected (R22). -/
theorem eq_portNotBound_of_finish_refused {actions : List Action} {s : State} {r : Refusal}
    (h : finish (run actions s) = .refused r) : r = .portNotBound := by
  rcases run_cases actions s with e | ⟨_, _, _, _, _, _, _, _, e⟩ | ⟨_, _, _, _, _, _, e⟩ |
    ⟨pre, a, post, r', _, _, hrefuse, e⟩
  · simp [e] at h
  · simp [e] at h
  · simp [e] at h
  · obtain rfl : r' = r := by simpa [e] using h
    exact (act_refuse hrefuse).2

/-- Settles O20: an address that fits is sent as a message, which is refused for its port at most. -/
theorem setCursorOverflowIsRefused : Obligations.SetCursorOverflowIsRefused := by
  intro row column s hidle
  rw [← maxDdramAddr_lt_ddramAddr_iff]
  refine ⟨fun hrefused => ?_, exec_setCursor_of_lt hidle⟩
  by_contra hfits
  rw [exec_setCursor_of_le (Nat.not_lt.mp hfits), exec_sendMessage, perform_idle hidle] at hrefused
  cases eq_portNotBound_of_finish_refused hrefused

/-- Settles O18: the command of an address that fits is 0x80 plus the address. -/
theorem setCursorSendsTheDdramAddress : Obligations.SetCursorSendsTheDdramAddress := by
  intro row column s hfits
  have hmessage := exec_setCursor_of_le hfits s
  rw [ddramCommand_eq (addr := ddramAddr row column) hfits] at hmessage
  exact ⟨hmessage, fun hs hserves => hmessage.trans (sendMessageCompletes _ _ s hs hserves)⟩

/-- Settles O19: a row other than 1 has the addresses of row 0; the address of (2, 3) is 3. -/
theorem rowsOtherThanOneAliasToRowZero : Obligations.RowsOtherThanOneAliasToRowZero :=
  ⟨fun _ column s hrow =>
      exec_setCursor_congr ((ddramAddr_of_ne_one hrow column).trans (ddramAddr_of_ne_one (by decide) column).symm) s,
    fun s => (setCursorSendsTheDdramAddress 2 3 s (by decide)).2⟩

end Sys2Proof.Machine
end

