-- ==== Sys2Proof/Proofs/TextLoop.lean ====
section
/-!
SUPPORT. The character loop of PRINT_TEXT, character by character: an equation for each way it goes on, what each
character sends, and what a text of ordinary characters sends on each row.
-/
namespace Sys2Proof.Machine

open Sys2Proof

/-! ### What one character does

The four ways the character loop goes on at a character that is not NUL: a newline (R189), a character that does not
fill the row (R190), one that fills row 0 (R191) and one that fills row 1 (R192). -/

theorem loopFrom_newline {p : Config.Params} (h : p.newline ≠ p.nul) (bl : Bit) (c : LoopCells) (rest : List Byte) :
    loopFrom p bl c (p.newline :: rest) =
      .setRow (c.row ^^^ 1) :: .setCol 0 :: setCursorActions p bl (rowOperand (c.row ^^^ 1)) 0
        ++ .setIdx (c.idx + 1) :: loopFrom p bl ⟨c.row ^^^ 1, 0, c.idx + 1⟩ rest := by
  simp only [loopFrom, textLoopActions, if_neg h, if_pos]

theorem loopEnd_newline {p : Config.Params} (h : p.newline ≠ p.nul) (c : LoopCells) (rest : List Byte) :
    loopEnd p c (p.newline :: rest) = loopEnd p ⟨c.row ^^^ 1, 0, c.idx + 1⟩ rest := by
  simp only [loopEnd, if_neg h, if_pos]

theorem loopFrom_ordinary {p : Config.Params} {ch : Byte} (h : Ordinary p ch) {c : LoopCells} (hc : c.col ≠ 15)
    (bl : Bit) (rest : List Byte) :
    loopFrom p bl c (ch :: rest) =
      printCharActions p bl ch ++ .setCol (c.col + 1) :: .setIdx (c.idx + 1)
        :: loopFrom p bl ⟨c.row, c.col + 1, c.idx + 1⟩ rest := by
  simp only [loopFrom, textLoopActions, if_neg h.1, if_neg h.2, if_neg (mt col_succ_eq.1 hc)]

theorem loopEnd_ordinary {p : Config.Params} {ch : Byte} (h : Ordinary p ch) {c : LoopCells} (hc : c.col ≠ 15)
    (rest : List Byte) : loopEnd p c (ch :: rest) = loopEnd p ⟨c.row, c.col + 1, c.idx + 1⟩ rest := by
  simp only [loopEnd, if_neg h.1, if_neg h.2, if_neg (mt col_succ_eq.1 hc)]

theorem loopFrom_fill_row_zero {p : Config.Params} {ch : Byte} (h : Ordinary p ch) {c : LoopCells} (hc : c.col = 15)
    (hr : c.row = 0) (bl : Bit) (rest : List Byte) :
    loopFrom p bl c (ch :: rest) =
      printCharActions p bl ch ++ .setCol (c.col + 1) :: wrapActions p bl
        ++ .setIdx (c.idx + 1) :: loopFrom p bl ⟨1, 0, c.idx + 1⟩ rest := by
  simp only [loopFrom, textLoopActions, if_neg h.1, if_neg h.2, if_pos (col_succ_eq.2 hc), if_pos hr,
    List.append_assoc, List.cons_append]

theorem loopEnd_fill_row_zero {p : Config.Params} {ch : Byte} (h : Ordinary p ch) {c : LoopCells} (hc : c.col = 15)
    (hr : c.row = 0) (rest : List Byte) : loopEnd p c (ch :: rest) = loopEnd p ⟨1, 0, c.idx + 1⟩ rest := by
  simp only [loopEnd, if_neg h.1, if_neg h.2, if_pos (col_succ_eq.2 hc), if_pos hr]

theorem loopFrom_fill_row_one {p : Config.Params} {ch : Byte} (h : Ordinary p ch) {c : LoopCells} (hc : c.col = 15)
    (hr : c.row ≠ 0) (bl : Bit) (rest : List Byte) :
    loopFrom p bl c (ch :: rest) = printCharActions p bl ch ++ [.setCol (c.col + 1)] := by
  simp only [loopFrom, textLoopActions, if_neg h.1, if_neg h.2, if_pos (col_succ_eq.2 hc), if_neg hr]

theorem loopEnd_fill_row_one {p : Config.Params} {ch : Byte} (h : Ordinary p ch) {c : LoopCells} (hc : c.col = 15)
    (hr : c.row ≠ 0) (rest : List Byte) : loopEnd p c (ch :: rest) = { c with col := c.col + 1 } := by
  simp only [loopEnd, if_neg h.1, if_neg h.2, if_pos (col_succ_eq.2 hc), if_neg hr]

/-! ### What one character sends -/

/-- The cursor command of the other row: 0xC0 from row 0, 0x80 from row 1 (R181, R189). -/
theorem successEvents_setCursor_toggled (p : Config.Params) (bl row : Bit) :
    successEvents (setCursorActions p bl (rowOperand (row ^^^ 1)) 0) =
      commandEvents p bl (if row = 0 then 0xC0 else 0x80) := by
  rw [setCursorActions, successEvents_sendCommand]
  congr 1
  revert row
  decide

/-- The line wrap sends the cursor command of row 1, unless WRAP_REPOSITIONS is off (log 15). -/
theorem successEvents_wrap (p : Config.Params) (bl : Bit) :
    successEvents (wrapActions p bl) = if p.wrapRepositions then commandEvents p bl 0xC0 else [] := by
  rw [wrapActions]
  cases p.wrapRepositions with
  | false => rfl
  | true => exact successEvents_sendCommand p bl _

theorem needs_wrap (p : Config.Params) (bl : Bit) :
    answersNeeded (wrapActions p bl) = (if p.wrapRepositions then 4 else 0) ∧
    delaysNeeded (wrapActions p bl) = (if p.wrapRepositions then 4 else 0) := by
  rw [wrapActions]
  cases p.wrapRepositions with
  | false => exact ⟨rfl, rfl⟩
  | true => exact ⟨rfl, rfl⟩

/-- What the loop does over the text `v` from the cells `c`: it sends `events`, with `n` answers and `n` delays, and
leaves the cells `e`. -/
structure LoopDoes (p : Config.Params) (bl : Bit) (c : LoopCells) (v : List Byte) (events : List PortEvent) (n : Nat)
    (e : LoopCells) : Prop where
  events : successEvents (loopFrom p bl c v) = events
  answers : answersNeeded (loopFrom p bl c v) = n
  delays : delaysNeeded (loopFrom p bl c v) = n
  cells : loopEnd p c v = e

theorem loopDoes_newline {p : Config.Params} (h : p.newline ≠ p.nul) (bl : Bit) (c : LoopCells) :
    LoopDoes p bl c [p.newline] (commandEvents p bl (if c.row = 0 then 0xC0 else 0x80)) 4
      ⟨c.row ^^^ 1, 0, c.idx + 1⟩ where
  events := by
    rw [loopFrom_newline h, successEvents_append, successEvents_cons, successEvents_cons,
      successEvents_setCursor_toggled]
    simp [actionEvents, textLoopActions]
  answers := by rw [loopFrom_newline h]; simp [setCursorActions, actionAnswers, textLoopActions]
  delays := by rw [loopFrom_newline h]; simp [setCursorActions, actionDelays, textLoopActions]
  cells := loopEnd_newline h c []

theorem loopDoes_ordinary {p : Config.Params} {ch : Byte} (h : Ordinary p ch) (bl : Bit) {c : LoopCells}
    (hc : c.col ≠ 15) : LoopDoes p bl c [ch] (dataEvents p bl ch) 4 ⟨c.row, c.col + 1, c.idx + 1⟩ where
  events := by rw [loopFrom_ordinary h hc]; simp [printCharActions, actionEvents, textLoopActions]
  answers := by rw [loopFrom_ordinary h hc]; simp [printCharActions, actionAnswers, textLoopActions]
  delays := by rw [loopFrom_ordinary h hc]; simp [printCharActions, actionDelays, textLoopActions]
  cells := loopEnd_ordinary h hc []

theorem loopDoes_fill_row_zero {p : Config.Params} {ch : Byte} (h : Ordinary p ch) (bl : Bit) {c : LoopCells}
    (hc : c.col = 15) (hr : c.row = 0) :
    LoopDoes p bl c [ch] (dataEvents p bl ch ++ if p.wrapRepositions then commandEvents p bl 0xC0 else [])
      (4 + if p.wrapRepositions then 4 else 0) ⟨1, 0, c.idx + 1⟩ where
  events := by
    rw [loopFrom_fill_row_zero h hc hr]
    simp [printCharActions, successEvents_wrap, actionEvents, textLoopActions]
  answers := by
    rw [loopFrom_fill_row_zero h hc hr]
    simp [printCharActions, (needs_wrap p bl).1, actionAnswers, textLoopActions]
  delays := by
    rw [loopFrom_fill_row_zero h hc hr]
    simp [printCharActions, (needs_wrap p bl).2, actionDelays, textLoopActions]
  cells := loopEnd_fill_row_zero h hc hr []

theorem loopDoes_fill_row_one {p : Config.Params} {ch : Byte} (h : Ordinary p ch) (bl : Bit) {c : LoopCells}
    (hc : c.col = 15) (hr : c.row ≠ 0) : LoopDoes p bl c [ch] (dataEvents p bl ch) 4 ⟨c.row, 16, c.idx⟩ where
  events := by rw [loopFrom_fill_row_one h hc hr]; simp [printCharActions, actionEvents]
  answers := by rw [loopFrom_fill_row_one h hc hr]; simp [printCharActions, actionAnswers]
  delays := by rw [loopFrom_fill_row_one h hc hr]; simp [printCharActions, actionDelays]
  cells := by rw [loopEnd_fill_row_one h hc hr, hc]; rfl

/-! ### What ordinary characters send on each row -/

/-- A column that the next character does not fill has room for one character more than the column after it. -/
theorem col_room : ∀ col : BitVec 5, col < 16 → col ≠ 15 →
    16 - col.toNat = 16 - (col + 1).toNat + 1 ∧ col + 1 < 16 := by
  decide

/-- On row 1 the loop sends ordinary characters as data until the row is full (R190, R192). -/
theorem successEvents_loopFrom_row_one (p : Config.Params) (bl : Bit) (u : List Byte) (hu : ∀ ch ∈ u, Ordinary p ch)
    (c : LoopCells) (hr : c.row = 1) (hc : c.col < 16) :
    successEvents (loopFrom p bl c u) = (u.take (16 - c.col.toNat)).flatMap (dataEvents p bl) := by
  induction u generalizing c with
  | nil => simp [textLoopActions]
  | cons ch rest ih =>
    obtain ⟨hch, hrest⟩ := List.forall_mem_cons.1 hu
    by_cases h15 : c.col = 15
    · have hr0 : c.row ≠ 0 := by rw [hr]; decide
      rw [loopFrom_fill_row_one hch h15 hr0]
      simp [h15, printCharActions, actionEvents]
    · obtain ⟨hsucc, hlt⟩ := col_room c.col hc h15
      rw [loopFrom_ordinary hch h15, successEvents_append, successEvents_cons, successEvents_cons,
        ih hrest ⟨c.row, c.col + 1, c.idx + 1⟩ hr hlt, hsucc, List.take_succ_cons]
      simp [printCharActions, actionEvents]

/-- On row 0 the loop sends ordinary characters as data until the row is full, and then wraps and goes on on row 1
(R190, R191). -/
theorem successEvents_loopFrom_row_zero (p : Config.Params) (bl : Bit) (u : List Byte)
    (hu : ∀ ch ∈ u, Ordinary p ch) (c : LoopCells) (hr : c.row = 0) (hc : c.col < 16) :
    successEvents (loopFrom p bl c u) =
      (u.take (16 - c.col.toNat)).flatMap (dataEvents p bl)
        ++ (if 16 - c.col.toNat ≤ u.length ∧ p.wrapRepositions = true then commandEvents p bl 0xC0 else [])
        ++ ((u.drop (16 - c.col.toNat)).take 16).flatMap (dataEvents p bl) := by
  induction u generalizing c with
  | nil =>
    have hroom : ¬ 16 - c.col.toNat ≤ 0 := by have : c.col.toNat < 16 := hc; omega
    simp [textLoopActions, hroom]
  | cons ch rest ih =>
    obtain ⟨hch, hrest⟩ := List.forall_mem_cons.1 hu
    by_cases h15 : c.col = 15
    · have hrow := successEvents_loopFrom_row_one p bl rest hrest ⟨1, 0, c.idx + 1⟩ rfl zero_lt_cols
      rw [loopFrom_fill_row_zero hch h15 hr]
      simpa [h15, printCharActions, actionEvents, successEvents_wrap] using hrow
    · obtain ⟨hsucc, hlt⟩ := col_room c.col hc h15
      rw [loopFrom_ordinary hch h15, successEvents_append, successEvents_cons, successEvents_cons,
        ih hrest ⟨c.row, c.col + 1, c.idx + 1⟩ hr hlt, hsucc, List.take_succ_cons]
      simp [printCharActions, actionEvents]

end Sys2Proof.Machine
end

