-- ==== Sys2Proof/Proofs/TextStatements.lean ====
section
/-!
SUPPORT. The statements of 43_cursor_text.md about PRINT_TEXT: how it starts, what it writes, what each character does
after the ones before it, where the text ends, and what a whole text has sent and counted.
-/
namespace Sys2Proof.Machine

open Sys2Proof

/-! ### Every path of PRINT_TEXT -/

/-- Settles O30: the null reference raises its failure before any port request. -/
theorem nullTextFailsWithoutPortEvent : Obligations.NullTextFailsWithoutPortEvent := by
  intro s hidle
  calc exec (.printText 0) s = perform [.raise .nullText] s := rfl
    _ = .next (deliver .fail s) := by rw [perform_idle hidle]; rfl
    _ = _ := by rw [deliver, hidle]

/-- The state without ROW, COL, IDX and what port requests and the end of an operation write: all that PRINT_TEXT
leaves alone. -/
def withoutTextCells (s : State) : State := withoutTransport { s with row := 0, col := 0, idx := 0 }

theorem withoutTextCells_blind : Blind withoutTextCells := ⟨fun _ _ _ _ => rfl, fun _ _ _ => rfl⟩

theorem withoutTextCells_afterAction {a : Action} (h : isTextAction a = true) (s : State) :
    withoutTextCells (afterAction a s) = withoutTextCells s := by
  cases a with
  | write | delay | setRow | setCol | setIdx | raise => rfl
  | bindPort | portInit | setStep => cases h

/-- Settles O32: PRINT_TEXT makes port requests and writes ROW, COL and IDX, and no run of such actions writes more. -/
theorem printTextWritesRowColIdxOnly : Obligations.PrintTextWritesRowColIdxOnly := by
  intro v s t hexec
  have hsame : withoutTextCells t = withoutTextCells s :=
    perform_keeps withoutTextCells_blind
      (fun a ha => withoutTextCells_afterAction (printTextActions_isTextAction _ _ _ a ha)) hexec
  have hframe : t = { s with row := t.row, col := t.col, idx := t.idx, status := t.status, busy := t.busy,
                             pending := t.pending, trace := t.trace, answers := t.answers,
                             delayReturns := t.delayReturns } :=
    calc t = { withoutTextCells t with row := t.row, col := t.col, idx := t.idx, status := t.status, busy := t.busy,
                                       pending := t.pending, trace := t.trace, answers := t.answers,
                                       delayReturns := t.delayReturns } := rfl
      _ = _ := by rw [hsame]; rfl
  exact ⟨hframe, fun a => by rw [hframe]⟩

/-- Settles O31: two messages for every character and the two of the preamble are all that the text can need. -/
theorem printTextCompletes : Obligations.PrintTextCompletes := by
  intro s hs hserves
  obtain ⟨hanswers, hdelays⟩ := needs_loopFrom s.params s.bl loopStart s.text
  have hprints : PortPrints s.text s :=
    PortServes_mono hserves (Nat.add_le_add_left hanswers 8) (Nat.add_le_add_left hdelays 8)
  have hexec : exec (.printText 1) s = .next (printed s.text s) := perform_printText hs hprints
  obtain ⟨hframe, -⟩ := printTextWritesRowColIdxOnly 1 s _ hexec
  exact ⟨printed s.text s, hexec, rfl, rfl, hframe.trans (by rw [hs.1]; rfl)⟩

/-! ### The preamble -/

/-- PRINT_TEXT of the empty text is the preamble, and that of any text goes on with the character loop. -/
theorem printTextActions_eq_preamble_append (p : Config.Params) (bl : Bit) (u : List Byte) :
    printTextActions p bl (some u) = printTextActions p bl (some []) ++ loopFrom p bl loopStart u := by
  simp [printTextActions_some, textLoopActions]

/-- On a port that serves the preamble, PRINT_TEXT sends it first, however it goes on. -/
theorem printText_trace_starts {s t : State} (hs : Ready s) (hserves : PortServes 8 8 s)
    (h : exec (.printText 1) s = .next t) : s.trace ++ preambleEvents s.params s.bl <+: t.trace := by
  have hpreamble : run (printTextActions s.params s.bl (some [])) s =
      .done (afterActions (printTextActions s.params s.bl (some [])) s) := by
    refine run_of_serves (printTextActions_no_raise _ _ _) hs.2 ?_
    rw [(needs_printText _ _ _).1, (needs_printText _ _ _).2]
    exact hserves
  rw [exec_printText_one, perform_idle hs.1, printTextActions_eq_preamble_append, run_append, hpreamble] at h
  have hstarts := finish_trace h
  rw [afterActions_printText] at hstarts
  simpa [textLoopActions, withCells] using hstarts

/-- The empty text has been printed once the preamble has been sent. -/
theorem printed_nil (s : State) :
    printed [] s = { succeeded (preambleEvents s.params s.bl) 8 8 s with text := [], row := 0, col := 0, idx := 0 } := by
  simp [printed, textLoopActions, loopEnd, loopStart, withCells, deliver, succeeded]

/-- Settles O33: the loop over an empty text does nothing. -/
theorem printTextStartsWithClearAndHome : Obligations.PrintTextStartsWithClearAndHome := by
  intro s hs hserves
  refine ⟨fun t ht => ?_, fun hempty => ?_⟩
  · rw [List.append_assoc]
    exact printText_trace_starts hs hserves ht
  · have hexec : exec (.printText 1) { s with text := [] } = .next (printed [] s) := perform_printText hs hserves
    rw [printed_nil, ← hempty] at hexec
    exact hexec

/-! ### One character more -/

/-- Printing `u ++ v` where `u` is not truncated: the state that `u` leaves, and then what the loop does over `v`. -/
theorem printText_append {s t : State} {u v : List Byte} {events : List PortEvent} {n : Nat} {e : LoopCells}
    (hs : Ready s) (hu : s.params.nul ∉ u) (h : PrintsTo s u t) (hc : t.col ≠ 16)
    (hv : LoopDoes s.params s.bl (cellsOf t) v events n e) (hserves : PortServes n n t) :
    exec (.printText 1) { s with text := u ++ v } =
      .next (withCells e { succeeded events n n t with text := u ++ v }) := by
  obtain ⟨rfl, rfl, hdelays, rfl⟩ := hv
  rw [printText_extend hs hu h hc (by rw [hdelays]; exact hserves), hdelays]
  rfl

/-- Settles O34: the newline writes ROW and COL, sends one cursor command and counts itself. -/
theorem newlineTogglesTheRow : Obligations.NewlineTogglesTheRow := by
  intro s t u hs hu hnewline h hc hserves
  exact printText_append hs hu h hc (loopDoes_newline hnewline s.bl (cellsOf t)) hserves

/-- Settles O35: the character is sent as data and counted in COL and IDX. -/
theorem ordinaryCharacterIsPrintedAndCounted : Obligations.OrdinaryCharacterIsPrintedAndCounted := by
  intro s t u ch hs hu hch h hc hserves
  have hc15 : t.col ≠ 15 := BitVec.ne_of_lt hc
  have hc16 : t.col ≠ 16 := col_ne_of_lt (BitVec.lt_trans hc (by decide))
  exact printText_append hs hu h hc16 (loopDoes_ordinary hch s.bl (c := cellsOf t) hc15) hserves

/-- Settles O36: after the character the wrap writes ROW and COL, and sends its cursor command where it has one. -/
theorem fullRowZeroWrapsToRowOne : Obligations.FullRowZeroWrapsToRowOne := by
  intro s t u ch hs hu hch h hc hr hserves
  have hc16 : t.col ≠ 16 := by rw [hc]; decide
  have hwrap := loopDoes_fill_row_zero hch s.bl (c := cellsOf t) hc hr
  cases hw : s.params.wrapRepositions with
  | true =>
    rw [hw] at hwrap
    exact printText_append hs hu h hc16 hwrap hserves
  | false =>
    simp only [hw, Bool.false_eq_true, if_false, List.append_nil] at hwrap
    exact printText_append hs hu h hc16 hwrap (PortServes_mono hserves (by decide) (by decide))

/-! ### Where the text ends -/

/-- A text with the actions of another one is printed like it. -/
theorem printText_of_same_actions {s t : State} {u w : List Byte}
    (hsame : printTextActions s.params s.bl (some w) = printTextActions s.params s.bl (some u)) (h : PrintsTo s u t) :
    exec (.printText 1) { s with text := w } = .next { t with text := w } := by
  rw [exec_printText_one, hsame]
  exact (perform_withText _ w { s with text := u }).1 t h.1

/-- Settles O37: the character is sent as data and fills the row; from a full row 1 the loop does not go on. -/
theorem fullRowOneTruncatesSilently : Obligations.FullRowOneTruncatesSilently := by
  refine ⟨fun s t u ch hs hu hch h hc hr hserves => ?_, fun s t u v hs hu h hc => ?_⟩
  · have hc16 : t.col ≠ 16 := by rw [hc]; decide
    have hr0 : t.row ≠ 0 := by rw [hr]; decide
    exact printText_append hs hu h hc16 (loopDoes_fill_row_one hch s.bl (c := cellsOf t) hc hr0) hserves
  · obtain ⟨-, rfl⟩ := (printsTo_iff hs).1 h
    have hfull : (loopEnd s.params loopStart u).col = 16 := hc
    refine printText_of_same_actions ?_ h
    rw [printTextActions_some, printTextActions_some, loopFrom_append _ _ _ _ _ hu zero_lt_cols, if_pos hfull,
      List.append_nil]

/-- Settles O38: the loop makes the same actions with NUL and what stands after it, and without. -/
theorem nulEndsTheText : Obligations.NulEndsTheText := by
  intro s t u v _ h
  refine printText_of_same_actions ?_ h
  rw [printTextActions_some, printTextActions_some, loopFrom_nul]

/-! ### What a whole text has sent and counted -/

/-- What a text that returned OK has sent. -/
theorem printsTo_trace {s t : State} {u : List Byte} (h : PrintsTo s u t) :
    t.trace = s.trace ++ (preambleEvents s.params s.bl ++ successEvents (loopFrom s.params s.bl loopStart u)) := by
  obtain ⟨-, rfl⟩ := (printsTo_iff (ready_of_printsTo h)).1 h
  exact List.append_assoc _ _ _

/-- The cells that a text which returned OK leaves. -/
theorem printsTo_cells {s t : State} {u : List Byte} (h : PrintsTo s u t) :
    cellsOf t = loopEnd s.params loopStart (textBytes s.params u) := by
  obtain ⟨-, rfl⟩ := (printsTo_iff (ready_of_printsTo h)).1 h
  rw [loopEnd_textBytes]
  rfl

/-- Settles O40: the loop starts on row 0. -/
theorem textWithoutNewlineFillsTwoRows : Obligations.TextWithoutNewlineFillsTwoRows := by
  intro s t u hu h
  rw [printsTo_trace h, successEvents_loopFrom_row_zero _ _ u hu loopStart rfl zero_lt_cols]
  simp only [preambleEvents, List.append_assoc]
  rfl

/-- Settles O41: the cells are those of the end of the loop, whose text has no NUL. -/
theorem printTextCountersStayInRange : Obligations.PrintTextCountersStayInRange := by
  intro s t u h
  have hnul : s.params.nul ∉ textBytes s.params u := nul_notMem_textBytes _ _
  change (cellsOf t).col ≤ 16 ∧ ((cellsOf t).col = 16 → (cellsOf t).row = 1) ∧
    ((cellsOf t).col ≠ 16 → (cellsOf t).idx = (textBytes s.params u).length)
  rw [printsTo_cells h]
  refine ⟨?_, fun hfull => ?_, fun hnotFull => ?_⟩
  · rcases loopEnd_col s.params loopStart (textBytes s.params u) zero_lt_cols with hlt | ⟨hfull, -⟩
    · exact BitVec.le_of_lt hlt
    · exact BitVec.le_of_eq hfull
  · rcases loopEnd_col s.params loopStart (textBytes s.params u) zero_lt_cols with hlt | ⟨-, hrow⟩
    · exact absurd hfull (col_ne_of_lt hlt)
    · exact hrow
  · rw [loopEnd_idx _ _ _ hnul zero_lt_cols hnotFull]
    exact Nat.zero_add _

/-- The events of a message, as data or as a command. -/
def taggedMessageEvents (p : Config.Params) (bl : Bit) (m : Bool × Byte) : List PortEvent :=
  if m.1 then dataEvents p bl m.2 else commandEvents p bl m.2

/-- A message has four writes and four waits of 1 ms (R145). -/
theorem counts_messageEvents (p : Config.Params) (bl : Bit) (v8 : Byte) (rs : Bit) :
    (writesOf (messageEvents p bl v8 rs)).length = 4 ∧ delaysOf (messageEvents p bl v8 rs) = List.replicate 4 1 :=
  ⟨rfl, rfl⟩

theorem counts_taggedMessageEvents (p : Config.Params) (bl : Bit) (m : Bool × Byte) :
    (writesOf (taggedMessageEvents p bl m)).length = 4 ∧
    delaysOf (taggedMessageEvents p bl m) = List.replicate 4 1 := by
  rw [taggedMessageEvents]
  split
  · exact counts_messageEvents _ _ _ _
  · exact counts_messageEvents _ _ _ _

theorem delaysOf_append (xs ys : List PortEvent) : delaysOf (xs ++ ys) = delaysOf xs ++ delaysOf ys :=
  List.filterMap_append

/-- A list of messages has four times as many writes and waits (R197). -/
theorem counts_messages (p : Config.Params) (bl : Bit) (messages : List (Bool × Byte)) :
    (writesOf (messages.flatMap (taggedMessageEvents p bl))).length = 4 * messages.length ∧
    delaysOf (messages.flatMap (taggedMessageEvents p bl)) = List.replicate (4 * messages.length) 1 := by
  induction messages with
  | nil => exact ⟨rfl, rfl⟩
  | cons m rest ih =>
    obtain ⟨hwrites, hdelays⟩ := ih
    obtain ⟨hwrites', hdelays'⟩ := counts_taggedMessageEvents p bl m
    rw [List.flatMap_cons, writesOf_append, delaysOf_append, List.length_append, hwrites, hwrites', hdelays, hdelays',
      List.replicate_append_replicate, List.length_cons, Nat.mul_succ, Nat.add_comm]
    exact ⟨rfl, rfl⟩

/-- The preamble is two messages. -/
theorem preambleEvents_eq_messages (p : Config.Params) (bl : Bit) :
    preambleEvents p bl = [(false, p.cmdClearDisplay), (false, 0x80)].flatMap (taggedMessageEvents p bl) := by
  simp [preambleEvents, taggedMessageEvents]

/-- The processed characters are those before NUL that the loop has counted. -/
theorem processed_eq {s t : State} {u : List Byte} (h : PrintsTo s u t) :
    processed s.params u t = (textBytes s.params u).take
      (loopCount (loopEnd s.params loopStart (textBytes s.params u)) - loopStart.idx) := by
  rw [← printsTo_cells h]
  rfl

/-- Settles O42: the loop sends the messages of the text before NUL, after the two of the preamble. -/
theorem printTextSendsWholeMessagesOfItsText : Obligations.PrintTextSendsWholeMessagesOfItsText := by
  intro s t u h
  obtain ⟨messages, hevents, hdata, hordinary, hcommands, hlength⟩ :=
    loopFrom_messages s.params s.bl loopStart _ (nul_notMem_textBytes s.params u) zero_lt_cols
  rw [← processed_eq h] at hdata hlength
  rw [loopFrom_textBytes] at hevents
  have hsent : preambleEvents s.params s.bl ++ successEvents (loopFrom s.params s.bl loopStart u) =
      ((false, s.params.cmdClearDisplay) :: (false, 0x80) :: messages).flatMap
        (taggedMessageEvents s.params s.bl) := by
    rw [preambleEvents_eq_messages, hevents]
    rfl
  obtain ⟨hwrites, hdelays⟩ := counts_messages s.params s.bl
    ((false, s.params.cmdClearDisplay) :: (false, 0x80) :: messages)
  have hcount : ((false, s.params.cmdClearDisplay) :: (false, 0x80) :: messages).length = 2 + messages.length :=
    Nat.add_comm messages.length 2
  rw [← hsent, hcount, hlength, ← Nat.add_assoc, ← Nat.add_assoc] at hwrites hdelays
  refine ⟨messages, _, _, _, _, rfl, rfl, rfl, printsTo_trace h, ?_, hdata, hordinary, hcommands, hlength, hwrites,
    hdelays⟩
  rw [hevents]
  rfl

end Sys2Proof.Machine
end

