-- ==== Sys2Proof/Proofs/FormattedStatements.lean ====
section
/-!
SUPPORT. The statements of 44_formatted.md about PRINT_FORMATTED: what it does with operands that SPLIT and RENDER
accept, that this is what PRINT_TEXT does with the rendered text, and which operands it refuses.
-/
namespace Sys2Proof.Machine

open Sys2Proof

/-! ### Operands that are accepted -/

/-- SPLIT and RENDER accept the operands of PRINT_FORMATTED, and give a text that fits in BUF with its terminator. -/
def FormatsTo (s : State) (text : List Byte) : Prop :=
  ∃ parts, split s.params s.num = .ok parts ∧ renderForBuf s.params s.fmt parts.1 parts.2 = .ok text

/-- RENDER's text is accepted when it has at most 31 bytes (R224). -/
theorem renderForBuf_ok_iff {p : Config.Params} {template : Option (List Byte)} {ipart fpart : Int}
    {text : List Byte} : renderForBuf p template ipart fpart = .ok text ↔
      ∃ chars, template = some chars ∧ render p chars [ipart, fpart] = .ok text ∧ text.length ≤ 31 := by
  constructor
  · intro h
    have hlength : text.length ≤ 31 := Nat.le_of_succ_le_succ (renderForBuf_length h)
    simp only [renderForBuf] at h
    split at h
    · cases h
    · next chars =>
      split at h
      · cases h
      · next rendered hrender =>
        split at h
        · cases h
        · cases h
          exact ⟨chars, rfl, hrender, hlength⟩
  · rintro ⟨chars, rfl, hrender, hlength⟩
    have hfits : ¬ text.length + 1 > Config.bufCap := Nat.not_lt.2 (Nat.succ_le_succ hlength)
    simp only [renderForBuf, hrender, if_neg hfits]

/-- Accepted operands make PRINT_FORMATTED store their text in BUF and run the actions of PRINT_TEXT (R220, R225). -/
theorem operation_printFormatted {s : State} {text : List Byte} (hwf : Memory.wf s.buf) (h : FormatsTo s text) :
    operation .printFormatted s =
      .ok (printTextActions s.params s.bl (some text), storeText s.params text s.buf) := by
  obtain ⟨parts, hsplit, hrender⟩ := h
  simp only [operation, hsplit, hrender, printTextActions_buf _ _ text hwf (renderForBuf_length hrender)]

/-- A PRINT_FORMATTED that is not refused has accepted operands. -/
theorem formatsTo_of_operation_ok {s : State} {started : List Action × Memory}
    (h : operation .printFormatted s = .ok started) : ∃ text, FormatsTo s text := by
  simp only [operation] at h
  split at h
  · cases h
  · next parts hsplit =>
    split at h
    · cases h
    · next text hrender => exact ⟨text, parts, hsplit, hrender⟩

/-! ### PRINT_FORMATTED as PRINT_TEXT -/

/-- An operation ends alike from two states that no action can tell apart, and that are both idle or both busy. -/
theorem perform_related {R : State → State → Prop} (hR : Unseen R)
    (hfin : ∀ s s' st b p, R s s' →
      R { s with status := st, busy := b, pending := p } { s' with status := st, busy := b, pending := p })
    (actions : List Action) {s s' : State} (h : R s s') (hbusy : s'.busy = s.busy) :
    (∀ t, perform actions s = .next t → ∃ t', perform actions s' = .next t' ∧ R t t') ∧
    (∀ r, perform actions s = .refused r → perform actions s' = .refused r) := by
  cases hb : s.busy with
  | true => simp [perform_busy hb, perform_busy (hbusy.trans hb)]
  | false =>
    rw [perform_idle hb, perform_idle (hbusy.trans hb)]
    exact finish_related hR hfin actions h

/-- Two states that differ in the TEXT space and BUF only, where the second has `u` and `m`. -/
def SameWithTextAndBuf (u : List Byte) (m : Memory) (s s' : State) : Prop := s' = { s with text := u, buf := m }

/-- No action reads or writes the TEXT space or BUF: both are turned into actions before the first of them is done. -/
theorem unseen_sameWithTextAndBuf (u : List Byte) (m : Memory) : Unseen (SameWithTextAndBuf u m) where
  bound s s' h := by rw [h]
  answers s s' h := by rw [h]
  delays s s' h := by rw [h]
  after s s' a h := by rw [h]; cases a <;> rfl
  failed s s' e rest h := by rw [h]; rfl

/-- PRINT_FORMATTED ends as PRINT_TEXT of its text does, with the text in BUF (R225). -/
theorem exec_printFormatted_of_formatsTo {s : State} {text : List Byte} (hwf : Memory.wf s.buf)
    (hidle : s.busy = false) (h : FormatsTo s text) :
    (∀ t, exec (.printText 1) { s with text := text } = .next t →
      exec .printFormatted s = .next { t with text := s.text, buf := storeText s.params text s.buf }) ∧
    (∀ r, exec (.printText 1) { s with text := text } = .refused r → exec .printFormatted s = .refused r) := by
  have hformatted : exec .printFormatted s =
      perform (printTextActions s.params s.bl (some text)) { s with buf := storeText s.params text s.buf } := by
    rw [exec_idle hidle, operation_printFormatted hwf h]
    exact (perform_idle (s := { s with buf := storeText s.params text s.buf }) hidle).symm
  have hsame : SameWithTextAndBuf s.text (storeText s.params text s.buf) { s with text := text }
      { s with buf := storeText s.params text s.buf } := rfl
  obtain ⟨hnext, hrefused⟩ := perform_related (unseen_sameWithTextAndBuf _ _) (fun _ _ _ _ _ hr => by rw [hr]; rfl)
    (printTextActions s.params s.bl (some text)) hsame rfl
  rw [hformatted]
  refine ⟨fun t ht => ?_, hrefused⟩
  obtain ⟨t', ht', rfl⟩ := hnext t ht
  exact ht'

/-- Every next state of PRINT_FORMATTED is one of PRINT_TEXT of its text, with the text in BUF. -/
theorem exec_printFormatted_next {s t : State} (hwf : Memory.wf s.buf) (h : exec .printFormatted s = .next t) :
    ∃ text t', FormatsTo s text ∧ exec (.printText 1) { s with text := text } = .next t' ∧
      t = { t' with text := s.text, buf := storeText s.params text s.buf } := by
  obtain ⟨hidle, actions, buf, hop, -⟩ := exec_next h
  obtain ⟨text, htext⟩ := formatsTo_of_operation_ok hop
  obtain ⟨hnext, hrefused⟩ := exec_printFormatted_of_formatsTo hwf hidle htext
  cases hexec : exec (.printText 1) { s with text := text } with
  | next t' =>
    have ht := h.symm.trans (hnext t' hexec)
    exact ⟨text, t', htext, hexec, Host.Outcome.next.inj ht⟩
  | refused r => cases h.symm.trans (hrefused r hexec)
  | fault f => cases f

/-- Settles O43: the actions are those of PRINT_TEXT, run from a state that differs in the TEXT space and BUF only. -/
theorem printFormattedIsPrintTextOfTheRenderedText : Obligations.PrintFormattedIsPrintTextOfTheRenderedText := by
  intro s template rendered parts hwf hidle hfmt hsplit hrender hlength
  have hformats : FormatsTo s rendered :=
    ⟨parts, hsplit, renderForBuf_ok_iff.2 ⟨template, hfmt, hrender, hlength⟩⟩
  exact exec_printFormatted_of_formatsTo hwf hidle hformats

/-- Settles O44: PRINT_TEXT of the rendered text completes, and BUF reads as `storeText` leaves it. -/
theorem printFormattedCompletesAndStoresItsText : Obligations.PrintFormattedCompletesAndStoresItsText := by
  intro s template rendered parts hwf hs hfmt hsplit hrender hlength hserves
  obtain ⟨t, hexec, hok, hidle, hframe⟩ := printTextCompletes { s with text := rendered } hs hserves
  obtain ⟨hnext, -⟩ :=
    printFormattedIsPrintTextOfTheRenderedText s template rendered parts hwf hs.1 hfmt hsplit hrender hlength
  refine ⟨_, hnext t hexec, hok, hidle, fun i hi => ?_, ?_, fun a ha => ?_, ?_⟩
  · rw [Memory.read_storeText _ _ hwf, List.getD_append _ _ _ _ hi, List.getD_eq_getElem _ _ hi,
      List.getD_eq_getElem _ _ hi]
  · rw [Memory.read_storeText _ _ hwf, List.getD_append_right _ _ _ _ le_rfl, Nat.sub_self]
    rfl
  · rw [Memory.read_storeText _ _ hwf]
    exact List.getD_eq_default _ _ (by simpa using ha)
  · rw [hframe]

/-- Settles O45: the next state is one of PRINT_TEXT, whose frame is known, with the text in BUF. -/
theorem printFormattedWritesBufRowColIdxOnly : Obligations.PrintFormattedWritesBufRowColIdxOnly := by
  intro s t hwf hexec
  obtain ⟨rendered, t', ⟨parts, hsplit, haccepted⟩, hprint, rfl⟩ := exec_printFormatted_next hwf hexec
  obtain ⟨template, hfmt, hrender, hlength⟩ := renderForBuf_ok_iff.1 haccepted
  obtain ⟨hframe, -⟩ := printTextWritesRowColIdxOnly 1 _ _ hprint
  refine ⟨by rw [hframe], template, parts, rendered, hfmt, hsplit, hrender, hlength, fun a => ?_⟩
  exact Memory.read_storeText _ _ hwf a

/-! ### Operands that are refused -/

/-- A pattern with an exponent field of all ones is no finite number. -/
theorem ieeeValue_eq_none (exponentBits fractionBits : Nat) (negative : Bool) (fraction : Nat) :
    ieeeValue exponentBits fractionBits negative (2 ^ exponentBits - 1) fraction = none :=
  if_pos rfl

theorem split_not_finite {p : Config.Params} {num : BitVec 64} (h : splitNumber p.floatFormat num = none) :
    split p num = .error .numberNotFinite := by
  simp only [split, h]

theorem split_too_wide {p : Config.Params} {num : BitVec 64} {parts : Int × Int}
    (h : splitNumber p.floatFormat num = some parts)
    (hwide : parts.1 < -2 ^ (p.intWidth - 1) ∨ 2 ^ (p.intWidth - 1) ≤ parts.1) :
    split p num = .error .integerPartTooWide := by
  have hfits : ¬ fitsSigned p.intWidth parts.1 = true := fun hin => fitsSigned_iff.1 hin hwide
  simp only [split, h, if_neg hfits]

theorem exec_printFormatted_of_split_error {s : State} {r : Refusal} (hidle : s.busy = false)
    (h : split s.params s.num = .error r) : exec .printFormatted s = .refused r := by
  simp only [exec_idle hidle, operation, h]

theorem exec_printFormatted_of_render_error {s : State} {parts : Int × Int} {r : Refusal} (hidle : s.busy = false)
    (hsplit : split s.params s.num = .ok parts) (h : renderForBuf s.params s.fmt parts.1 parts.2 = .error r) :
    exec .printFormatted s = .refused r := by
  simp only [exec_idle hidle, operation, hsplit, h]

/-- Settles O46: SPLIT refuses the number in the first three clauses, `renderForBuf` the template in the others. -/
theorem printFormattedRefusesUndefinedOperands : Obligations.PrintFormattedRefusesUndefinedOperands := by
  intro s hidle
  refine ⟨fun hformat hones => ?_, fun hformat hones => ?_, fun parts hparts hwide => ?_, fun parts hsplit hnull => ?_,
    fun parts template hsplit hfmt hbad => ?_, fun parts template rendered hsplit hfmt hrender hlong => ?_⟩
  · refine exec_printFormatted_of_split_error hidle (split_not_finite ?_)
    rw [hformat, splitNumber, binary32Value, hones]
    exact congrArg _ (ieeeValue_eq_none 8 23 _ _)
  · refine exec_printFormatted_of_split_error hidle (split_not_finite ?_)
    rw [hformat, splitNumber, binary64Value, hones]
    exact congrArg _ (ieeeValue_eq_none 11 52 _ _)
  · exact exec_printFormatted_of_split_error hidle (split_too_wide hparts hwide)
  · refine exec_printFormatted_of_render_error hidle hsplit ?_
    rw [hnull, renderForBuf]
  · have hrefused := (render_refused_iff s.params template [parts.1, parts.2]).2 hbad
    refine exec_printFormatted_of_render_error hidle hsplit ?_
    simp only [hfmt, renderForBuf, hrefused]
  · have hoverflow : rendered.length + 1 > Config.bufCap := Nat.succ_lt_succ hlong
    refine exec_printFormatted_of_render_error hidle hsplit ?_
    simp only [hfmt, renderForBuf, hrender, if_pos hoverflow]

end Sys2Proof.Machine
end

