-- ==== Sys2Proof/Proofs/NumberStatements.lean ====
section
/-!
SUPPORT. The statements of 44_formatted.md about the two functions below PRINT_FORMATTED: what RENDER makes of a
template and of an integer, and which numbers the two parts of SPLIT are.
-/
namespace Sys2Proof.Machine

open Sys2Proof

/-! ### RENDER -/

/-- Settles O47: RENDER goes through the template piece by piece, and NUL is neither `%` nor `d`. -/
theorem renderPlacesTheTwoIntegersInOrder : Obligations.RenderPlacesTheTwoIntegersInOrder := by
  intro p a b c ipart fpart hnul
  simp only [List.mem_append, List.mem_cons, List.not_mem_nil, or_false, not_or] at hnul
  obtain ⟨⟨⟨⟨ha, hpercent, hd⟩, hb⟩, -⟩, hc⟩ := hnul
  have hdecimal : ∀ rest i parts,
      render p ([0x25, 0x64] ++ rest) (i :: parts) = (render p rest parts).map (decimalInt i ++ ·) :=
    render_decimal p hpercent hd
  have hlast : render p (escaped c) [] = .ok c := by
    have h := render_escaped p c [] [] hc hpercent
    rw [List.append_nil] at h
    rw [h]
    simp [render, Except.map]
  simp only [List.append_assoc]
  rw [render_escaped p a _ _ ha hpercent, hdecimal, render_escaped p b _ _ hb hpercent, hdecimal, hlast]
  rfl

/-- Settles O48: the fuel of `decimalNat` is enough for all digits. -/
theorem decimalDigitsStandForTheNumber : Obligations.DecimalDigitsStandForTheNumber := by
  refine ⟨fun i => ?_, fun n => ?_⟩
  · rw [decimalInt]
    split <;> rfl
  · obtain ⟨digits, hdigits, hrange, hhead, -, hvalue⟩ := digitsOnto_spec (n + 1) n [] n.lt_succ_self
    rw [List.append_nil] at hdigits
    rw [decimalNat, hdigits]
    exact ⟨hvalue, hrange, hhead, rfl⟩

/-! ### SPLIT -/

/-- A nonnegative number with the sign of a floating-point number. -/
def signed (negative : Bool) (m : ℚ) : ℚ := (if negative then -1 else 1) * m

theorem signed_true (m : ℚ) : signed true m = -m := neg_one_mul m
theorem signed_false (m : ℚ) : signed false m = m := one_mul m

/-- Truncation toward zero takes the floor of the magnitude and keeps the sign (R221). -/
theorem truncatesTo_signed {m : ℚ} {n : Nat} (negative : Bool) (hm : 0 ≤ m) (hn : (n : ℤ) = ⌊m⌋) :
    TruncatesTo (signed negative m) (withSign negative n) := by
  cases negative with
  | false =>
    rw [signed_false, TruncatesTo, if_pos hm]
    exact hn
  | true =>
    rw [signed_true, TruncatesTo]
    have hneg : -(n : ℤ) = ⌈-m⌉ := by rw [hn, Int.ceil_neg]
    split
    · next hnonneg =>
      obtain rfl : m = 0 := le_antisymm (neg_nonneg.1 hnonneg) hm
      simpa [withSign] using hneg
    · exact hneg

/-- The two parts of SPLIT are right for the number `q` (R221, R222): the integer part is `q` truncated, the fraction
is 100 times the rest, rounded to `precision` bits and truncated, and both have the sign of `q`. -/
def PartsOf (precision : Nat) (negative : Bool) (q : ℚ) (i f : ℤ) : Prop :=
  TruncatesTo q i ∧ (∃ x, Nearest precision ((q - i) * 100) x ∧ TruncatesTo x f) ∧
    f.natAbs ≤ 99 ∧ (if negative then i ≤ 0 ∧ f ≤ 0 else 0 ≤ i ∧ 0 ≤ f)

/-- Right parts of the magnitude, with a sign, are right parts of the number. -/
theorem partsOf_signed {precision : Nat} {m x : ℚ} {i f : Nat} (negative : Bool) (hm : 0 ≤ m) (hx : 0 ≤ x)
    (hi : (i : ℤ) = ⌊m⌋) (hnear : Nearest precision ((m - i) * 100) x) (hf : (f : ℤ) = ⌊x⌋) (hle : f ≤ 99) :
    PartsOf precision negative (signed negative m) (withSign negative i) (withSign negative f) := by
  refine ⟨truncatesTo_signed negative hm hi, ⟨signed negative x, ?_, truncatesTo_signed negative hx hf⟩, ?_, ?_⟩
  · cases negative with
    | false => simpa [signed_false, withSign] using hnear
    | true =>
      have hrest : (-m - ((-(i : ℤ) : ℤ) : ℚ)) * 100 = -((m - i) * 100) := by push_cast; ring
      simpa only [signed_true, withSign, if_true, hrest] using hnear.neg
  · cases negative <;> simpa [withSign] using hle
  · cases negative <;> simp [withSign]

/-- The number that a floating-point value stands for. -/
def FloatValue.toRat (v : FloatValue) : ℚ := signed v.negative (v.significand * 2 ^ v.exponent)

/-- SPLIT of a value whose significand has the precision of its format. -/
theorem splitValue_spec {precision : Nat} (hp : 8 ≤ precision) {v : FloatValue}
    (hv : v.significand < 2 ^ precision) :
    PartsOf precision v.negative v.toRat (splitValue precision v).1 (splitValue precision v).2 := by
  obtain ⟨x, hx, hnear, hi, hf, hle⟩ := splitMagnitude_spec precision v.significand v.exponent hp hv
  exact partsOf_signed v.negative (by positivity) hx hi hnear hf hle

/-- A pattern whose exponent field is not all ones has a value (G7): a subnormal one without the hidden bit, where the
exponent field is 0, and a normal one with it. -/
theorem ieeeValue_spec {exponentBits fractionBits biased fraction : Nat} (negative : Bool)
    (hfinite : biased ≠ 2 ^ exponentBits - 1) (hfraction : fraction < 2 ^ fractionBits) {bias : ℤ}
    (hbias : bias = 2 ^ (exponentBits - 1) - 1 + fractionBits) :
    ∃ v, ieeeValue exponentBits fractionBits negative biased fraction = some v ∧ v.negative = negative ∧
      v.significand < 2 ^ (fractionBits + 1) ∧
      v.toRat = signed negative (if biased = 0 then (fraction : ℚ) * 2 ^ (1 - bias)
        else (2 ^ fractionBits + fraction) * 2 ^ ((biased : ℤ) - bias)) := by
  subst hbias
  simp only [ieeeValue, if_neg hfinite]
  have hpow : 2 ^ (fractionBits + 1) = 2 ^ fractionBits + 2 ^ fractionBits := by rw [Nat.pow_succ, Nat.mul_two]
  split
  · exact ⟨_, rfl, rfl, hfraction.trans (by omega), rfl⟩
  · exact ⟨_, rfl, rfl, by dsimp only; omega, by simp [FloatValue.toRat]⟩

/-- SPLIT of a pattern whose exponent field is not all ones, in a format with `fractionBits + 1` significant bits. -/
theorem splitValue_ieeeValue {exponentBits fractionBits biased fraction : Nat} (negative : Bool)
    (hprecision : 7 ≤ fractionBits) (hfinite : biased ≠ 2 ^ exponentBits - 1) (hfraction : fraction < 2 ^ fractionBits)
    {bias : ℤ} (hbias : bias = 2 ^ (exponentBits - 1) - 1 + fractionBits) :
    ∃ i f, (ieeeValue exponentBits fractionBits negative biased fraction).map (splitValue (fractionBits + 1)) =
        some (i, f) ∧
      PartsOf (fractionBits + 1) negative (signed negative (if biased = 0 then (fraction : ℚ) * 2 ^ (1 - bias)
        else (2 ^ fractionBits + fraction) * 2 ^ ((biased : ℤ) - bias))) i f := by
  obtain ⟨v, hv, hsign, hsignificand, hrat⟩ := ieeeValue_spec negative hfinite hfraction hbias
  have hparts := splitValue_spec (Nat.succ_le_succ hprecision) hsignificand
  rw [hsign, hrat] at hparts
  exact ⟨_, _, congrArg (Option.map (splitValue (fractionBits + 1))) hv, hparts⟩

/-- Settles O49: binary32 has 8 exponent bits and 23 fraction bits, binary64 has 11 and 52. -/
theorem splitFractionHasTwoDigitsAndTheSign : Obligations.SplitFractionHasTwoDigitsAndTheSign := by
  intro num
  refine ⟨fun hfinite => ?_, fun hfinite => ?_⟩
  · have hne : (num.extractLsb' 23 8).toNat ≠ 2 ^ 8 - 1 := fun h => hfinite (BitVec.eq_of_toNat_eq h)
    exact splitValue_ieeeValue (num.getLsbD 31) (by decide) hne (num.extractLsb' 0 23).isLt (bias := 150) (by norm_num)
  · have hne : (num.extractLsb' 52 11).toNat ≠ 2 ^ 11 - 1 := fun h => hfinite (BitVec.eq_of_toNat_eq h)
    exact splitValue_ieeeValue (num.getLsbD 63) (by decide) hne (num.extractLsb' 0 52).isLt (bias := 1075)
      (by norm_num)

end Sys2Proof.Machine
end

