-- ==== Sys2Proof/Proofs/ExceptionStatements.lean ====
section
/-!
SUPPORT. The statements of 60_exceptions.md about failing, waiting and refusing: where an instruction that returned
FAIL stopped, where one that waits stopped, and that its remaining actions, run with later answers, end it as they
would have ended it at once.
-/
namespace Sys2Proof.Machine

open Sys2Proof

/-- An instruction that gives a next state performed its operation, from the BUF that the operation starts with. -/
theorem exec_next_perform {i : Instr} {s t : State} (h : exec i s = .next t) :
    ∃ actions buf, operation i s = .ok (actions, buf) ∧ perform actions { s with buf := buf } = .next t := by
  obtain ⟨hidle, actions, buf, hop, hrun⟩ := exec_next h
  exact ⟨actions, buf, hop, (perform_idle (s := { s with buf := buf }) hidle).trans hrun⟩

/-! ### Starting while busy -/

/-- Settles O5: every instruction looks at BUSY first. -/
theorem startingWhileBusyIsRefused : Obligations.StartingWhileBusyIsRefused := by
  intro i s hbusy
  rw [exec_eq, if_pos hbusy]

/-! ### Failing -/

/-- What FAIL means for a step from `s` to `t`: after the requests of some actions had succeeded, the next request was
answered false, and its event is the last one (R242, R248). -/
def FailedAtRequest (s t : State) : Prop :=
  ∃ done e later, s.answers.drop (answersNeeded done) = false :: later ∧ eventFailed e = true ∧
    t.trace = s.trace ++ successEvents done ++ [e]

/-- An instruction that returns FAIL leaves LCD4 idle; and it is PRINT_TEXT of the null reference, which sends
nothing, or one of its requests was answered false (R241). -/
theorem exec_fail {i : Instr} {s t : State} (h : exec i s = .next t) (hfail : t.status = some .fail) :
    t.busy = false ∧ t.pending = [] ∧ ((i = .printText 0 ∧ t.trace = s.trace) ∨ FailedAtRequest s t) := by
  obtain ⟨actions, buf, hop, hperform⟩ := exec_next_perform h
  obtain ⟨-, ⟨-, rfl⟩ | ⟨pre, a, post, cause, s', rfl, -, hact, rfl⟩ | ⟨_, _, _, _, _, _, rfl⟩⟩ :=
    perform_next hperform
  · cases hfail
  · refine ⟨rfl, rfl, ?_⟩
    rcases act_fail hact with ⟨rfl, rfl⟩ | ⟨e, later, he, hanswers, rfl⟩
    · rcases operation_raise hop with hnone | ⟨hnull, hsingle⟩
      · exact absurd (by simp) (hnone cause)
      · obtain ⟨rfl, -, -⟩ : pre = [] ∧ cause = .nullText ∧ post = [] := by
          simpa [List.append_eq_singleton_iff] using hsingle
        exact .inl ⟨hnull, rfl⟩
    · rw [afterActions_answers] at hanswers
      exact .inr ⟨pre, e, later, hanswers, he, by simp⟩
  · cases hfail

/-- Settles O51: the request that failed is the last one, and an operation that returned OK had each answered true. -/
theorem failureIsTheLastEventOfTheTrace : Obligations.FailureIsTheLastEventOfTheTrace := by
  intro i s t hexec
  refine ⟨fun hfail => ?_, fun hok => ?_⟩
  · obtain ⟨hidle, hpending, hnull | ⟨done, e, -, -, he, htrace⟩⟩ := exec_fail hexec hfail
    · exact ⟨hidle, hpending, .inl hnull⟩
    · exact ⟨hidle, hpending, .inr ⟨_, e, htrace, he, successEvents_not_failed done⟩⟩
  · obtain ⟨actions, buf, -, hperform⟩ := exec_next_perform hexec
    obtain ⟨-, rfl, -⟩ := perform_ok hperform hok
    exact ⟨_, afterActions_trace actions _, successEvents_not_failed actions⟩

/-- Settles O52: a request that failed took a false answer from the port. -/
theorem noOperandButNullTextProducesFail : Obligations.NoOperandButNullTextProducesFail := by
  intro i s t htrue hexec hfail
  obtain ⟨-, -, ⟨hnull, -⟩ | ⟨done, _, _, hanswers, -, -⟩⟩ := exec_fail hexec hfail
  · exact hnull
  · have hmem : false ∈ s.answers := List.mem_of_mem_drop (i := answersNeeded done) (by simp [hanswers])
    cases htrue false hmem

/-! ### Waiting -/

/-- An instruction that has to wait has done the first of its actions, and waits at the next one (R259). -/
theorem exec_waiting {i : Instr} {s t : State} (h : exec i s = .next t) (hbusy : t.busy = true) :
    s.busy = false ∧ ∃ pre a post buf u, operation i s = .ok (pre ++ a :: post, buf) ∧
      run pre { s with buf := buf } = .done u ∧ act a u = .wait ∧ t = waitForPort (a :: post) u := by
  obtain ⟨actions, buf, hop, hperform⟩ := exec_next_perform h
  obtain ⟨hidle, ⟨-, rfl⟩ | ⟨_, _, _, _, _, _, _, _, rfl⟩ | ⟨pre, a, post, rfl, hpre, hwait, ht⟩⟩ :=
    perform_next hperform
  · cases hbusy
  · cases hbusy
  · exact ⟨hidle, pre, a, post, buf, _, hop, hpre, hwait, ht⟩

/-- A step of a waiting LCD4 runs the actions that are left; that it waits does not matter to them. -/
theorem step_waitForPort (rest : List Action) (s : State) : step (waitForPort rest s) = finish (run rest s) := by
  have hsame : SameToFinish s (waitForPort rest s) := rfl
  rw [step_busy (waitForPort_busy rest s), waitForPort_pending, finish_run_congr rest hsame]

/-- Settles O54: the action that waits is still the first one left, and it waits again. -/
theorem waitingForThePortChangesNothing : Obligations.WaitingForThePortChangesNothing := by
  intro i s t hexec hbusy
  obtain ⟨-, pre, a, post, buf, u, -, -, hwait, rfl⟩ := exec_waiting hexec hbusy
  have hinput : u.answers = [] ∨ u.delayReturns = 0 := (act_wait hwait).2.imp And.right And.right
  have hrun : run (a :: post) u = .waiting (a :: post) u := by simp only [run, hwait]
  exact ⟨rfl, List.cons_ne_nil _ _, hinput, by rw [step_waitForPort, hrun, finish_waiting]⟩

/-- An operation is made without looking at the port. -/
theorem operation_portContinues (i : Instr) (more : List Bool) (d : Nat) (s : State) :
    operation i (portContinues more d s) = operation i s := by
  cases i <;> rfl

/-- Settles O55: the actions done before the wait are done in the same way when the later answers are there already,
and the actions left are the same. -/
theorem resumedOperationEndsAsUninterrupted : Obligations.ResumedOperationEndsAsUninterrupted := by
  intro i s t more d hexec hbusy
  obtain ⟨hidle, pre, a, post, buf, u, hop, hpre, -, rfl⟩ := exec_waiting hexec hbusy
  have hidle' : (portContinues more d s).busy = false := hidle
  have hop' : operation i (portContinues more d s) = .ok (pre ++ a :: post, buf) :=
    (operation_portContinues i more d s).trans hop
  have hdone : run pre { portContinues more d s with buf := buf } = .done (portContinues more d u) :=
    run_portContinues_done hpre more d
  calc step (portContinues more d (waitForPort (a :: post) u))
      = step (waitForPort (a :: post) (portContinues more d u)) := rfl
    _ = finish (run (a :: post) (portContinues more d u)) := step_waitForPort _ _
    _ = finish (run (pre ++ a :: post) { portContinues more d s with buf := buf }) := by rw [run_append, hdone]
    _ = exec i (portContinues more d s) := by rw [exec_idle hidle', hop']

end Sys2Proof.Machine
end

