-- ==== Sys2Proof/Proofs/ResetStatements.lean ====
section
/-!
SUPPORT. The statement of 70_reset_and_hazards.md: what LCD4 is after reset, and that it does nothing on its own.
-/
namespace Sys2Proof.Machine

open Sys2Proof

/-- An idle LCD4 that the host asks nothing of waits (R38). -/
theorem step_of_no_request {s : State} (hidle : s.busy = false) (hqueue : s.queue = []) : step s = .next s := by
  simp [step, hidle, hqueue]

/-- Settles O1: the cells are those of the reset state, and its idle step is one with an empty queue. -/
theorem resetIsIdleUnboundWithBacklightOn : Obligations.ResetIsIdleUnboundWithBacklightOn :=
  ⟨rfl, rfl, rfl, rfl, rfl, step_of_no_request rfl rfl, fun _ => step_of_no_request⟩

end Sys2Proof.Machine
end
